-- ==== Sys2Proof/Word.lean ====
section
/-! DEFINITION. The value domains of 00_scope.md R9 and the plainest arithmetic on them (R10, R13).
Everything that picks bits out of a value (`rotr`, `shr`, `be32`, `byte_k`) stands in Machine/Bits.lean. -/

namespace Sys2Proof

/-- `u32` of 00_scope.md R9: every schedule word, working register, hash-state word and round constant. -/
abbrev Word := BitVec 32

/-- `u8` of 00_scope.md R9. -/
abbrev Byte := BitVec 8

/-- `u64` of 00_scope.md R9: the length field's value (30_encoding.md R72). -/
abbrev DWord := BitVec 64

/-- A command word `CMD[11:0]` (30_encoding.md R76). -/
abbrev CmdWord := BitVec 12

/-- A response word `RSP[9:0]` (30_encoding.md R81). -/
abbrev RspWord := BitVec 10

/-- A sequencer vector `SV[18:0]` (30_encoding.md R83). -/
abbrev SeqVec := BitVec 19

/-- `add32` of 00_scope.md R10: addition modulo `2^32`, no flag, no fault. -/
abbrev add32 (x y : Word) : Word := x + y

end Sys2Proof
end

