-- ==== Sys2Proof/Machine/Bits.lean ====
section
/-! DEFINITION. The operations of 00_scope.md R11, R12 and R14 that pick bits out of a value, and their inverses. -/

namespace Sys2Proof.Machine

/-- `rotr(x, n) = ((x >> n) or (x << (32 - n))) mod 2^32` (00_scope.md R11), for `1 <= n <= 31`. -/
def rotr (x : Word) (n : Nat) : Word := (x >>> n) ||| (x <<< (32 - n))

/-- `shr(x, n)`, the zero-fill right shift (00_scope.md R12), for `1 <= n <= 31`. -/
def shr (x : Word) (n : Nat) : Word := x >>> n

/-- `be32(b0, b1, b2, b3)` (00_scope.md R14): `b0` is the most significant byte. -/
def be32 (b0 b1 b2 b3 : Byte) : Word := b0 ++ b1 ++ b2 ++ b3

/-- `byte_k(x) = x[31-8k : 24-8k]` for `k` in 0..3 (00_scope.md R14). -/
def byteOf (k : Nat) (x : Word) : Byte := x.extractLsb' (24 - 8 * k) 8

/-- `be64_k(v) = v[63-8k : 56-8k]` for `k` in 0..7 (00_scope.md R14). -/
def be64 (k : Nat) (v : DWord) : Byte := v.extractLsb' (56 - 8 * k) 8

/-- The 8-byte big-endian encoding `be64_0(v), ..., be64_7(v)` (00_scope.md R14). -/
def be64Bytes (v : DWord) : List Byte := (List.range 8).map (fun k => be64 k v)

end Sys2Proof.Machine
end

