-- ==== Sys2Proof/Config.lean ====
section
/-! DEFINITION. The fixed parameters of 00_scope.md R7 and R8, the one OPEN parameter `N_INSTANCES`, and the model's
one free value. -/

namespace Sys2Proof.Config

/-- `BLOCK_BYTES` (00_scope.md R7). -/
def blockBytes : Nat := 64

/-- `BLOCK_WORDS` (00_scope.md R7). -/
def blockWords : Nat := 16

/-- `NSCHED` (00_scope.md R7). -/
def nSched : Nat := 64

/-- `NROUND` (00_scope.md R7). -/
def nRound : Nat := 64

/-- `DIGEST_BYTES` (00_scope.md R7). -/
def digestBytes : Nat := 32

/-- `PAD_MARK` (00_scope.md R7). -/
def padMark : Byte := 0x80

/-- The first length byte's place in the last block: the length field fills bytes 56 to 63 (30_encoding.md R71). -/
def lenFieldAt : BitVec 7 := 56

/-- `MAXLEN = 2^61 - 1` (00_scope.md R7), in the 61 bits of `LEN` (10_state.md R26). -/
def maxLen : BitVec 61 := 0x1fffffffffffffff

/-- `UPDATE_BYTES` (00_scope.md R8): the message bytes one UPDATE carries. -/
def updateBytes : Nat := 1

/-- `N_INSTANCES` (00_scope.md R8): OPEN in the spec, this is its default. `System.reset` takes the number as an argument. -/
def nInstances : Nat := 1

/-- FREE VALUE (log entry 9). The byte PADLEN writes when it is selected with `PS = LEN` and `CNT < 56`: 41_padder.md R116
writes `be64_(CNT - 56)`, and 00_scope.md R14 gives `be64_k` for `k` in 0..7 only. No state that reset reaches has such
values (10_state.md R37). It is a function of what PADLEN reads, `CNT` and `LEN`, because no rule draws a value
(45_engine.md R169); nothing is known of it. -/
opaque lenFieldByteOutside : BitVec 7 → BitVec 61 → Byte

end Sys2Proof.Config
end

