-- ==== Sys2Proof/Machine/State.lean ====
section
/-! DEFINITION. The state of one core (10_state.md R20 to R30) with the inputs and outputs of its step relation, the two
reasons a step can stop, and the state after reset (10_state.md R35, 70_reset_and_hazards.md R210). -/

namespace Sys2Proof.Machine

/-- The nine codes of `PHASE` (10_state.md R27). Codes 9 to 15 are never reached and a model need not represent them
(93_implementation_defined.md I15, log entry 8). -/
inductive Phase where
  /-- 0: after reset, no context. -/
  | uninit
  /-- 1: a message is open. -/
  | absorb
  /-- 2: padding bytes are being written. -/
  | pad
  /-- 3: the schedule is being built. -/
  | sched
  /-- 4: the working registers are about to be loaded. -/
  | vinit
  /-- 5: the rounds are running. -/
  | round
  /-- 6: the working registers are about to be added into `H`. -/
  | fold
  /-- 7: the digest is valid in `H`. -/
  | done
  /-- 8: `LengthOverflow` occurred. -/
  | failed
deriving DecidableEq, Repr

/-- The four codes of `PS` (10_state.md R28). -/
inductive PadStage where
  /-- 0 `NONE`: no FINALIZE yet for this message. -/
  | none
  /-- 1 `MARK`: the `0x80` byte is still to be written. -/
  | mark
  /-- 2 `ZERO`: zero bytes are being written. -/
  | zero
  /-- 3 `LEN`: length bytes are being written, or all have been. -/
  | len
deriving DecidableEq, Repr

/-- Eight like things under the names of the working registers, `a = [0]`, ..., `h = [7]` (10_state.md R21, R22). -/
structure Oct (α : Type) where
  (a b c d e f g h : α)
deriving DecidableEq, Repr

/-- An indexed storage space: a list of (index, value) with strictly rising indices. An index that is not listed holds
no value (`NOVAL`, 00_scope.md R17). -/
abbrev Store (α : Type) := List (Nat × α)

/-- The block buffer's contents (10_state.md R24): the only storage of 00_scope.md R16's `MemRead` and `MemWrite`. -/
abbrev Memory := List Host.Cell

/-- The cells of one core: exactly the table of 10_state.md R20. `none`, or an index not listed, is `NOVAL`. -/
structure Cells where
  /-- `H[0..7]`, the hash state (10_state.md R21). -/
  h : Oct (Option Word)
  /-- `V[0..7]`, the working registers `a` to `h` (10_state.md R22). -/
  v : Oct (Option Word)
  /-- `W[0..63]`, the message schedule (10_state.md R23). -/
  w : Store Word
  /-- `BUF[0..63]`, the block buffer (10_state.md R24). -/
  buf : Memory
  /-- `CNT`, the number of bytes in `BUF` (10_state.md R25). -/
  cnt : Option (BitVec 7)
  /-- `LEN`, the number of message bytes accepted since INIT (10_state.md R26). -/
  len : Option (BitVec 61)
  /-- `PHASE` (10_state.md R27). -/
  phase : Phase
  /-- `PS`, the pad stage (10_state.md R28). -/
  ps : Option PadStage
  /-- `T`, the word and round index (10_state.md R29). -/
  t : Option (BitVec 6)
deriving DecidableEq, Repr

/-- One move of the host (45_engine.md R171, log entry 2). -/
inductive HostMove where
  /-- The word `w` is presented at the command port and waits there until the core accepts it (40_commands.md R90).
  `rest` are the words that follow it in the same expansion; the first error ends the expansion (40_commands.md R97). -/
  | issue (w : CmdWord) (rest : List CmdWord)
  /-- The host lets one step pass without presenting anything. -/
  | silent
  /-- The host asserts reset, the script line `RESET` (30_encoding.md R85). -/
  | reset
deriving DecidableEq, Repr

/-- The state of the model: the cells of the core, and the inputs and outputs of its step relation (10_state.md R36). -/
structure State extends Cells where
  /-- The host's coming moves, in order; when the list is empty the host is silent for ever. -/
  host : List HostMove
  /-- The level of the reset input at each coming step; beyond the list reset is not asserted. -/
  resetPin : List Bool
  /-- The response words given so far, newest first. -/
  responses : List RspWord
deriving DecidableEq, Repr

/-- The cells that can be read while they hold no value. -/
inductive CellName where
  | h | v | w | buf | cnt | len | ps | t
deriving DecidableEq, Repr

/-- Why a step stops with a fault. No state reached from reset raises one (10_state.md R38). -/
inductive Fault where
  /-- A rule read a cell that holds no value. Raised by the meanings of RDDIGEST and of the micro-operations. "a model must
  treat such a read as a fault of the model, never as a read of zero" (00_scope.md R17). SAFE: the hardware would go on. -/
  | readNoValue (cell : CellName)
  /-- No step is defined but reset. Raised by `step` in a state that selects no micro-operation and is not ready, and by
  FOLD with `PS = MARK` (93_implementation_defined.md I15). SAFE: no claim about a later state can be made. -/
  | stuck
  /-- A micro-operation's meaning was asked for in a state that does not select it (30_encoding.md R82). `step` never asks
  so. SAFE: the core makes no such step. -/
  | notSelected
deriving DecidableEq, Repr

/-- Why a step has no meaning in this model. -/
inductive Refusal where
  /-- The instruction has no meaning yet. Raised by no arm of `exec`. SAFE. -/
  | notModelled (mnemonic : String)
deriving DecidableEq, Repr

/-- What a step or a meaning answers. -/
abbrev Outcome := Host.Outcome State Fault Refusal

/-- Eight cells without a value. -/
def Oct.noValue {α : Type} : Oct (Option α) :=
  ⟨.none, .none, .none, .none, .none, .none, .none, .none⟩

/-- The cells after reset (10_state.md R35). -/
def Cells.reset : Cells where
  h := Oct.noValue
  v := Oct.noValue
  w := []
  buf := []
  cnt := .none
  len := .none
  phase := .uninit
  ps := .none
  t := .none

/-- The state after reset: the cells of 10_state.md R35, and no input and no response yet (log entries 2, 3, 4). -/
def State.reset : State where
  toCells := Cells.reset
  host := []
  resetPin := []
  responses := []

end Sys2Proof.Machine
end

