-- ==== Sys2Proof/Machine/Flags.lean ====
section
/-! DEFINITION. The codes of `PHASE` and `PS` (10_state.md R27, R28) and the status outputs (10_state.md R33). The core has
no condition codes and no arithmetic flags. -/

namespace Sys2Proof.Machine

/-- The 4-bit code of a phase (10_state.md R27). -/
def Phase.code : Phase → BitVec 4
  | .uninit => 0
  | .absorb => 1
  | .pad => 2
  | .sched => 3
  | .vinit => 4
  | .round => 5
  | .fold => 6
  | .done => 7
  | .failed => 8

/-- The phase of a 4-bit code; codes 9 to 15 are unused (10_state.md R27). -/
def Phase.ofCode (c : BitVec 4) : Option Phase :=
  [Phase.uninit, .absorb, .pad, .sched, .vinit, .round, .fold, .done, .failed][c.toNat]?

/-- The 2-bit code of a pad stage (10_state.md R28). -/
def PadStage.code : PadStage → BitVec 2
  | .none => 0
  | .mark => 1
  | .zero => 2
  | .len => 3

/-- The pad stage of a 2-bit code (10_state.md R28). -/
def PadStage.ofCode (c : BitVec 2) : PadStage :=
  [PadStage.none, .mark, .zero, .len].getD c.toNat .none

/-- `READY` (10_state.md R33): "1 when `PHASE` is `UNINIT`, `DONE` or `FAILED`, or when `PHASE = ABSORB` and
`CNT < 64`; else 0". -/
def Cells.ready (c : Cells) : Bool :=
  match c.phase, c.cnt with
  | .uninit, _ => true
  | .done, _ => true
  | .failed, _ => true
  | .absorb, some n => n < 64
  | .absorb, none => false
  | .pad, _ => false
  | .sched, _ => false
  | .vinit, _ => false
  | .round, _ => false
  | .fold, _ => false

/-- `DVALID` (10_state.md R33): 1 when `PHASE = DONE`. -/
def Cells.dvalid (c : Cells) : Bool := c.phase = .done

/-- `LOVF` (10_state.md R33): 1 when `PHASE = FAILED`. -/
def Cells.lovf (c : Cells) : Bool := c.phase = .failed

/-- The `STATUS` word (10_state.md R33): bit 0 `READY`, bit 1 `DVALID`, bit 2 `LOVF`, bit 3 always 0, bits 7:4
`PHASE`. -/
def Cells.status (c : Cells) : BitVec 8 :=
  c.phase.code ++ 0#1 ++ BitVec.ofBool c.lovf ++ BitVec.ofBool c.dvalid ++ BitVec.ofBool c.ready

end Sys2Proof.Machine
end

