-- ==== Sys2Proof/Machine/Ops.lean ====
section
/-! DEFINITION. The named operations over storage, registers and responses that every meaning is written with. An error is
a response (60_exceptions.md R190): `State.answerError` is the one operation that takes it, and the way back from the one
error that changes the state (60_exceptions.md R198) is `State.openMessage`. -/

namespace Sys2Proof.Machine

/-- The value at an index of a storage space; `none` is `NOVAL`. -/
def Store.read {α : Type} : Store α → Nat → Option α
  | [], _ => none
  | (k, x) :: rest, i => if k = i then some x else Store.read rest i

/-- `s[i] <- x`, keeping the indices strictly rising. -/
def Store.write {α : Type} : Store α → Nat → α → Store α
  | [], i, x => [(i, x)]
  | (k, y) :: rest, i, x =>
    if i < k then (i, x) :: (k, y) :: rest
    else if i = k then (i, x) :: rest
    else (k, y) :: Store.write rest i x

/-- Every index of a storage space set to `NOVAL`. -/
def Store.invalid {α : Type} : Store α := []

/-- The canonical form of a storage space of `size` places: indices strictly rising and below `size`. -/
def Store.wf {α : Type} (size : Nat) : Store α → Bool
  | [] => true
  | [(k, _)] => k < size
  | (k, _) :: (k', x) :: rest => k < k' && Store.wf size ((k', x) :: rest)

/-- The canonical form of the block buffer: 64 places (20_memory.md R50). -/
def Memory.wf (m : Memory) : Bool := Store.wf 64 m

/-- Whether exactly the places below `n` hold values, in canonical form (the shape of `BUF` and `W`, 10_state.md R37). -/
abbrev Store.filledTo {α : Type} (n : Nat) (s : Store α) : Prop := s.map Prod.fst = List.range n

/-- The place of an index in `H` or `V` (10_state.md R21, R22). -/
def Oct.get {α : Type} (r : Oct α) : Fin 8 → α
  | 0 => r.a
  | 1 => r.b
  | 2 => r.c
  | 3 => r.d
  | 4 => r.e
  | 5 => r.f
  | 6 => r.g
  | 7 => r.h

/-- The same function on all eight places. -/
def Oct.map {α β : Type} (f : α → β) (r : Oct α) : Oct β :=
  ⟨f r.a, f r.b, f r.c, f r.d, f r.e, f r.f, f r.g, f r.h⟩

/-- The same function on all eight pairs of places. -/
def Oct.zip {α β γ : Type} (f : α → β → γ) (r : Oct α) (s : Oct β) : Oct γ :=
  ⟨f r.a s.a, f r.b s.b, f r.c s.c, f r.d s.d, f r.e s.e, f r.f s.f, f r.g s.g, f r.h s.h⟩

/-- The eight values in order. -/
def Oct.toList {α : Type} (r : Oct α) : List α := [r.a, r.b, r.c, r.d, r.e, r.f, r.g, r.h]

/-- Eight cells that hold values. -/
def Oct.held {α : Type} (r : Oct α) : Oct (Option α) := r.map some

/-- The eight values of eight cells, or nothing where a cell holds no value. -/
def Oct.values {α : Type} : Oct (Option α) → Option (Oct α)
  | ⟨some a, some b, some c, some d, some e, some f, some g, some h⟩ => some ⟨a, b, c, d, e, f, g, h⟩
  | _ => none

/-- A read of a cell: the rule goes on with its value, and a read of `NOVAL` is a fault of the model (00_scope.md R17). -/
def need {α : Type} (cell : CellName) (v : Option α) (k : α → Outcome) : Outcome :=
  match v with
  | some x => k x
  | none => .fault (.readNoValue cell)

/-- The codes of a response (30_encoding.md R81). -/
inductive RspCode where
  | ok | lengthOverflow | sequence | illegal
deriving DecidableEq, Repr

/-- The two bits of a response code (30_encoding.md R81). -/
def RspCode.bits : RspCode → BitVec 2
  | .ok => 0
  | .lengthOverflow => 1
  | .sequence => 2
  | .illegal => 3

/-- The response word `RSP = code[9:8] data[7:0]` (30_encoding.md R81). -/
def rspWord (code : RspCode) (data : Byte) : RspWord := code.bits ++ data

/-- The field `code = RSP[9:8]` (30_encoding.md R81). -/
def rspCode (r : RspWord) : BitVec 2 := r.extractLsb' 8 2

/-- The field `data = RSP[7:0]` (30_encoding.md R81). -/
def rspData (r : RspWord) : Byte := r.extractLsb' 0 8

/-- Whether a response is an error: its code is not `OK` (60_exceptions.md R190). -/
def isErrorRsp (r : RspWord) : Bool := rspCode r != RspCode.ok.bits

/-- `respond OK(d)`: the command ends successfully with a data byte (00_scope.md R16). -/
def State.answerData (d : Byte) (s : State) : State :=
  { s with responses := rspWord .ok d :: s.responses }

/-- `respond OK`: the data field is zero (30_encoding.md R81). -/
def State.answerOk (s : State) : State := s.answerData 0

/-- `respond ERR(code)`: the one way an error is taken (60_exceptions.md R190). The data field is zero (30_encoding.md
R81), and no cell changes: what LENGTH_OVERFLOW alone changes, `PHASE`, its rule writes (60_exceptions.md R197). -/
def State.answerError (code : RspCode) (s : State) : State :=
  { s with responses := rspWord code 0 :: s.responses }

/-- The cells of a message just opened: the writes of INIT (40_commands.md R92) with `H <- hs`. It is also the way back
from the error LENGTH_OVERFLOW: "`FAILED` is left only by INIT, ... or by reset" (60_exceptions.md R198). -/
def State.openMessage (hs : Oct Word) (s : State) : State :=
  { s with
    h := hs.held
    len := some 0
    cnt := some 0
    ps := some .none
    t := some 0
    v := Oct.noValue
    w := Store.invalid
    buf := Store.invalid
    phase := .absorb }

/-- Reset as an event of a run (70_reset_and_hazards.md R210): every cell as after reset; the host's moves and the
responses already given are the host's, and no response is produced. -/
def State.resetCells (s : State) : State := { s with toCells := Cells.reset }

/-- `BufWrite(i, v)` of 20_memory.md R63 at `i = CNT = n`, "always together with `CNT <- CNT + 1`". -/
def State.bufWrite (n : BitVec 7) (b : Byte) (s : State) : State :=
  { s with buf := Store.write s.buf n.toNat b, cnt := some (n + 1) }

/-- The end of one pass of a 64-pass loop at `T = t`: `T <- t + 1` while `t < 63`, else `T <- 0` and the next phase
(43_scheduler.md R133, 44_compressor.md R150). -/
def State.advance (t : BitVec 6) (next : Phase) (s : State) : State :=
  if t < 63 then { s with t := some (t + 1) } else { s with t := some 0, phase := next }

/-- Test (2) of 40_commands.md R91: outside the one phase in which the command is legal it is answered `ERR(SEQUENCE)`
and nothing changes (60_exceptions.md R192). -/
def inPhase (p : Phase) (s : State) (k : Outcome) : Outcome :=
  if s.phase = p then k else .next (s.answerError .sequence)

/-- The handshake of 40_commands.md R90: a command is executed only by a core that is ready. Otherwise it "waits,
unchanged": nothing happens to it or to the core (log entry 6). -/
def whenReady (s : State) (k : Outcome) : Outcome :=
  if s.ready then k else .next s

end Sys2Proof.Machine
end

