-- ==== Sys2Proof/Machine/Operands.lean ====
section
/-! DEFINITION. The operands the rules read: bytes and words of the block buffer (20_memory.md R63), words of the schedule,
the length field's bytes (30_encoding.md R72) and the digest view of `H` (46_digest_codec.md R181). The operands of the
command words (30_encoding.md R78) are assembled in Decode.lean. -/

namespace Sys2Proof.Machine

/-- `BufRead(i, 1) = BUF[i]` (20_memory.md R63). -/
def bufRead1 (m : Memory) (i : Nat) : Option Byte := Store.read m i

/-- `BufRead(i, 4) = be32(BUF[i], BUF[i+1], BUF[i+2], BUF[i+3])` (20_memory.md R63); no value if one of the bytes has
none. -/
def bufRead4 (m : Memory) (i : Nat) : Option Word :=
  match bufRead1 m i, bufRead1 m (i + 1), bufRead1 m (i + 2), bufRead1 m (i + 3) with
  | some b0, some b1, some b2, some b3 => some (be32 b0 b1 b2 b3)
  | _, _, _, _ => none

/-- `LEN * 8` in 64 bits: `LEN[60:0]` followed by three zero bits (30_encoding.md R72). -/
def lenBits (len : BitVec 61) : DWord := len ++ 0#3

/-- The byte PADLEN writes at `CNT = n`: `be64_(CNT - 56)(LEN * 8)` (41_padder.md R116). Below `CNT = 56`, which no
reachable state has, the spec gives no byte: a free value (log entry 9). -/
def lenFieldByte (n : BitVec 7) (len : BitVec 61) : Byte :=
  if Config.lenFieldAt ≤ n then be64 (n.toNat - Config.lenFieldAt.toNat) (lenBits len)
  else Config.lenFieldByteOutside n len

/-- `digest_byte(H, j) = byte_(j mod 4)(H[j div 4])` (46_digest_codec.md R181), `j` the five bits `CMD[4:0]`: the word
index is `j[4:2]`, the byte within the word `j[1:0]`. -/
def digestByte (hs : Oct Word) (j : BitVec 5) : Byte :=
  byteOf (j.extractLsb' 0 2).toNat (hs.get (j.extractLsb' 2 3).toFin)

/-- The digest byte of cells, of which one word only is read (20_memory.md R55). -/
def digestCell (h : Oct (Option Word)) (j : BitVec 5) : Option Byte :=
  (h.get (j.extractLsb' 2 3).toFin).map (byteOf (j.extractLsb' 0 2).toNat)

end Sys2Proof.Machine
end

