-- ==== Sys2Proof/Machine/Tables.lean ====
section
/-! DEFINITION. The two constant tables: the round constants `K` (10_state.md R31) and the initial hash constants `IV`
(10_state.md R32). They are not state: nothing writes them and reset leaves them (20_memory.md R60). -/

namespace Sys2Proof.Machine

/-- One line of the table of 10_state.md R31: the entries `t` to `t + 3`. -/
def tableRow (k k1 k2 k3 : Word) : List Word := [k, k1, k2, k3]

/-- `K[0..63]`, line by line as 10_state.md R31 lists them, `t = 0, 4, ..., 60` (log entry 15). -/
def roundConstants : List Word :=
  tableRow 0x428a2f98 0x71374491 0xb5c0fbcf 0xe9b5dba5 ++
  tableRow 0x3956c25b 0x59f111f1 0x923f82a4 0xab1c5ed5 ++
  tableRow 0xd807aa98 0x12835b01 0x243185be 0x550c7dc3 ++
  tableRow 0x72be5d74 0x80deb1fe 0x9bdc06a7 0xc19bf174 ++
  tableRow 0xe49b69c1 0xefbe4786 0x0fc19dc6 0x240ca1cc ++
  tableRow 0x2de92c6f 0x4a7484aa 0x5cb0a9dc 0x76f988da ++
  tableRow 0x983e5152 0xa831c66d 0xb00327c8 0xbf597fc7 ++
  tableRow 0xc6e00bf3 0xd5a79147 0x06ca6351 0x14292967 ++
  tableRow 0x27b70a85 0x2e1b2138 0x4d2c6dfc 0x53380d13 ++
  tableRow 0x650a7354 0x766a0abb 0x81c2c92e 0x92722c85 ++
  tableRow 0xa2bfe8a1 0xa81a664b 0xc24b8b70 0xc76c51a3 ++
  tableRow 0xd192e819 0xd6990624 0xf40e3585 0x106aa070 ++
  tableRow 0x19a4c116 0x1e376c08 0x2748774c 0x34b0bcb5 ++
  tableRow 0x391c0cb3 0x4ed8aa4a 0x5b9cca4f 0x682e6ff3 ++
  tableRow 0x748f82ee 0x78a5636f 0x84c87814 0x8cc70208 ++
  tableRow 0x90befffa 0xa4506ceb 0xbef9a3f7 0xc67178f2

/-- `K[t]` (20_memory.md R62): a read that cannot fail, the index has six bits. -/
def kAt (t : BitVec 6) : Word := roundConstants.getD t.toNat 0

/-- `IV[0..7]` (10_state.md R32, log entry 15). -/
def initialHash : Oct Word :=
  ⟨0x6a09e667, 0xbb67ae85, 0x3c6ef372, 0xa54ff53a,
   0x510e527f, 0x9b05688c, 0x1f83d9ab, 0x5be0cd19⟩

end Sys2Proof.Machine
end

