-- ==== Sys2Proof/Machine/Commands.lean ====
section
/-! DEFINITION. The four commands of the host (40_commands.md R92 to R95), evaluated in the order of R91: the word has been
decoded; then the phase, then the length bound, then the writes and the response. -/

namespace Sys2Proof.Machine

/-- INIT (40_commands.md R92): legal in every ready phase. -/
def execInit (s : State) : Outcome :=
  whenReady s (.next (s.openMessage initialHash).answerOk)

/-- UPDATE with the byte `b` in a ready core (40_commands.md R93): the byte that would make the message `2^61` bytes long
is refused and the message abandoned (60_exceptions.md R191); any other is stored and counted. -/
def appendByte (b : Byte) (s : State) : Outcome :=
  need .cnt s.cnt fun n =>
    need .len s.len fun l =>
      if l = Config.maxLen then
        .next ({ s with phase := .failed }.answerError .lengthOverflow)
      else
        .next ({ s with len := some (l + 1) }.bufWrite n b).answerOk

/-- UPDATE (40_commands.md R93): legal in `ABSORB` only. -/
def execUpdate (b : Byte) (s : State) : Outcome :=
  whenReady s (inPhase .absorb s (appendByte b s))

/-- FINALIZE (40_commands.md R94): legal in `ABSORB` only. -/
def execFinalize (s : State) : Outcome :=
  whenReady s (inPhase .absorb s (.next { s with ps := some .mark, phase := .pad }.answerOk))

/-- RDDIGEST (40_commands.md R95): an argument of 32 or more is an illegal word (30_encoding.md R79), which is found
before the phase is tested (40_commands.md R91); the command is legal in `DONE` only and changes no cell. -/
def execRddigest (j : Byte) (s : State) : Outcome :=
  whenReady s
    (if 32 ≤ j.toNat then .next (s.answerError .illegal)
     else inPhase .done s (need .h (digestCell s.h (j.setWidth 5)) fun d => .next (s.answerData d)))

end Sys2Proof.Machine
end

