-- ==== Sys2Proof/Machine/Codec.lean ====
section
/-! DEFINITION. The DigestCodec: `digest_bytes` and `hex` (46_digest_codec.md R180, R182). `digest_byte` (R181), the one
function the core evaluates, stands in Operands.lean. -/

namespace Sys2Proof.Machine

/-- `digest_bytes(Hs)` (46_digest_codec.md R180): the eight words in order, each big-endian. -/
def digestBytes (hs : Oct Word) : List Byte :=
  hs.toList.flatMap (fun x => [byteOf 0 x, byteOf 1 x, byteOf 2 x, byteOf 3 x])

/-- The hash state a digest came from: `Hs[k] = be32(D[4k], D[4k+1], D[4k+2], D[4k+3])` (46_digest_codec.md R183). -/
def hashOfDigest (d : List Byte) : Oct Word :=
  let word (k : Nat) : Word := be32 (d.getD (4 * k) 0) (d.getD (4 * k + 1) 0) (d.getD (4 * k + 2) 0) (d.getD (4 * k + 3) 0)
  ⟨word 0, word 1, word 2, word 3, word 4, word 5, word 6, word 7⟩

/-- `hexdigit(n)` for a nibble (46_digest_codec.md R182). -/
def hexDigit (n : BitVec 4) : Char :=
  if n.toNat < 10 then Char.ofNat ('0'.toNat + n.toNat) else Char.ofNat ('a'.toNat + (n.toNat - 10))

/-- `hex(D)` (46_digest_codec.md R182): two lowercase characters a byte, the high nibble first. -/
def hex (d : List Byte) : List Char :=
  d.flatMap (fun b => [hexDigit (b.extractLsb' 4 4), hexDigit (b.extractLsb' 0 4)])

end Sys2Proof.Machine
end

