-- ==== Sys2Proof/Syntax.lean ====
section
/-! DEFINITION. The instructions: one constructor per row of spec/opcode_table.json. The first four are the host's
commands (30_encoding.md R77, 40_commands.md R92 to R95), the others the rows of the micro-operation selection table
(30_encoding.md R82, R83). BLKGO and PADLEN have two rows, hence two constructors each (90_conflicts.md C8, log entry 11). -/

namespace Sys2Proof

/-- A row of spec/opcode_table.json with its operand. A micro-operation has no operand: it reads the sequencer state
`(PHASE, PS, CNT, T)` that selected it (10_state.md R30). -/
inductive Instr where
  /-- INIT, word `0x100` (40_commands.md R92). -/
  | init
  /-- UPDATE b, word `0x200 + b` (40_commands.md R93). -/
  | update (b : Byte)
  /-- FINALIZE, word `0x300` (40_commands.md R94). -/
  | finalize
  /-- RDDIGEST j, word `0x400 + j` (40_commands.md R95). The operand is held as the argument byte `CMD[7:0]`; only
  `j < 32` is well formed (30_encoding.md R78, R79). -/
  | rddigest (j : Byte)
  /-- BLKGO, block filled while absorbing (42_block_splitter.md R123). -/
  | blkgoAbsorb
  /-- BLKGO, block filled while padding (42_block_splitter.md R123). -/
  | blkgoPad
  /-- PADMARK (41_padder.md R114). -/
  | padmark
  /-- PADZERO (41_padder.md R115). -/
  | padzero
  /-- PADLEN, the first length byte (41_padder.md R116). -/
  | padlenFirst
  /-- PADLEN, the length bytes after the first (41_padder.md R116). -/
  | padlenNext
  /-- WLOAD (43_scheduler.md R132). -/
  | wload
  /-- WEXP (43_scheduler.md R133). -/
  | wexp
  /-- VLOAD (44_compressor.md R149). -/
  | vload
  /-- ROUND (44_compressor.md R150). -/
  | round
  /-- FOLD (44_compressor.md R151). -/
  | fold
deriving DecidableEq, Repr

/-- Whether the instruction is a command of the host; the others are micro-operations, which the host cannot issue
(30_encoding.md R86). -/
def Instr.isCommand : Instr → Bool
  | .init | .update _ | .finalize | .rddigest _ => true
  | .blkgoAbsorb | .blkgoPad | .padmark | .padzero | .padlenFirst | .padlenNext => false
  | .wload | .wexp | .vload | .round | .fold => false

/-- The mnemonic of the instruction's row in spec/opcode_table.json. -/
def Instr.mnemonic : Instr → String
  | .init => "INIT"
  | .update _ => "UPDATE"
  | .finalize => "FINALIZE"
  | .rddigest _ => "RDDIGEST"
  | .blkgoAbsorb => "BLKGO"
  | .blkgoPad => "BLKGO"
  | .padmark => "PADMARK"
  | .padzero => "PADZERO"
  | .padlenFirst => "PADLEN"
  | .padlenNext => "PADLEN"
  | .wload => "WLOAD"
  | .wexp => "WEXP"
  | .vload => "VLOAD"
  | .round => "ROUND"
  | .fold => "FOLD"

end Sys2Proof
end

