-- ==== Sys2Proof/WellFormed.lean ====
section
/-! DEFINITION. Which instruction terms stand for a legal encoding. -/

namespace Sys2Proof

/-- An instruction is well formed when a legal word stands for it. The one check: the index of RDDIGEST is below 32,
since `CMD[7:5]` must be zero (30_encoding.md R78, R79). Every other operand fills its field. -/
def Instr.wellFormed : Instr → Bool
  | .rddigest j => j.toNat < 32
  | .init | .update _ | .finalize => true
  | .blkgoAbsorb | .blkgoPad | .padmark | .padzero | .padlenFirst | .padlenNext => true
  | .wload | .wexp | .vload | .round | .fold => true

end Sys2Proof
end

