-- ==== Sys2Proof/Decode.lean ====
section
/-! DEFINITION. The two decoders of the core and the encoder. A command word is decoded at the command port
(30_encoding.md R77 to R79); a sequencer vector is decoded by the micro-operation selection table (30_encoding.md R83).
Both are total: a word with no row is rejected by name. -/

namespace Sys2Proof

/-- Why a word decodes to nothing. The first three are the illegal command words of 30_encoding.md R79. -/
inductive DecodeError where
  /-- `op` is `0000` or `0101` to `1111`. -/
  | reservedOp (op : BitVec 4)
  /-- `op` is INIT or FINALIZE and `arg` is not zero. -/
  | reservedArg (arg : Byte)
  /-- `op` is RDDIGEST and `arg` is 32 or more. -/
  | indexOutOfRange (arg : Byte)
  /-- The sequencer vector selects no micro-operation: the core is ready, or the state is none that reset reaches. -/
  | noMicroOp (sv : SeqVec)
deriving DecidableEq, Repr

/-- The field `op = CMD[11:8]` (30_encoding.md R76). -/
def cmdOp (w : CmdWord) : BitVec 4 := w.extractLsb' 8 4

/-- The field `arg = CMD[7:0]` (30_encoding.md R76). -/
def cmdArg (w : CmdWord) : Byte := w.extractLsb' 0 8

/-- The operand `j = CMD[4:0]` of RDDIGEST (30_encoding.md R78). -/
def cmdIndex (w : CmdWord) : BitVec 5 := w.extractLsb' 0 5

/-- Why an illegal command word is illegal (30_encoding.md R79). -/
def illegalReason (w : CmdWord) : DecodeError :=
  if cmdOp w = 1 ∨ cmdOp w = 3 then .reservedArg (cmdArg w)
  else if cmdOp w = 4 then .indexOutOfRange (cmdArg w)
  else .reservedOp (cmdOp w)

/-- The command of a 12-bit word: the one row of 30_encoding.md R77 with `(CMD and mask) = match`. -/
def decodeCmd (w : CmdWord) : Except DecodeError Instr :=
  if w &&& 0xfff = 0x100 then .ok .init
  else if w &&& 0xf00 = 0x200 then .ok (.update (cmdArg w))
  else if w &&& 0xfff = 0x300 then .ok .finalize
  else if w &&& 0xfe0 = 0x400 then .ok (.rddigest ((cmdIndex w).setWidth 8))
  else .error (illegalReason w)

/-- The extra condition of a row of 30_encoding.md R83. -/
inductive RowCond where
  /-- No extra condition. -/
  | always
  /-- `CNT != 56` (PADZERO). -/
  | cntNot56
  /-- `T >= 16` (WEXP). -/
  | tFrom16
deriving DecidableEq, Repr

/-- A row of the selection table of 30_encoding.md R83. -/
structure UopRow where
  /-- The micro-operation the row selects. -/
  instr : Instr
  /-- The column `match`. -/
  pattern : SeqVec
  /-- The column `mask`. -/
  mask : SeqVec
  /-- The column `extra condition`. -/
  cond : RowCond
deriving DecidableEq, Repr

/-- The field `PHASE = SV[18:15]` (30_encoding.md R83). -/
def svPhase (v : SeqVec) : BitVec 4 := v.extractLsb' 15 4

/-- The field `PS = SV[14:13]` (30_encoding.md R83). -/
def svPs (v : SeqVec) : BitVec 2 := v.extractLsb' 13 2

/-- The field `CNT = SV[12:6]` (30_encoding.md R83). -/
def svCnt (v : SeqVec) : BitVec 7 := v.extractLsb' 6 7

/-- The field `T = SV[5:0]` (30_encoding.md R83). -/
def svT (v : SeqVec) : BitVec 6 := v.extractLsb' 0 6

/-- Whether a row's extra condition holds of a vector. -/
def RowCond.holds : RowCond → SeqVec → Bool
  | .always, _ => true
  | .cntNot56, v => svCnt v != 56
  | .tFrom16, v => 16 ≤ (svT v).toNat

/-- "A row applies when `(SV and mask) = match` and its extra condition, if it has one, holds" (30_encoding.md R83). -/
def UopRow.applies (r : UopRow) (v : SeqVec) : Bool :=
  v &&& r.mask == r.pattern && r.cond.holds v

/-- The eleven rows of 30_encoding.md R83. -/
def uopRows : List UopRow :=
  [ ⟨.blkgoAbsorb, 0x09000, 0x79fc0, .always⟩,
    ⟨.blkgoPad,    0x11000, 0x79fc0, .always⟩,
    ⟨.padmark,     0x12000, 0x7f000, .always⟩,
    ⟨.padzero,     0x14000, 0x7f000, .cntNot56⟩,
    ⟨.padlenFirst, 0x14e00, 0x7ffc0, .always⟩,
    ⟨.padlenNext,  0x16000, 0x7f000, .always⟩,
    ⟨.wload,       0x18000, 0x78030, .always⟩ ] ++
  [ ⟨.wexp,        0x18000, 0x78000, .tFrom16⟩,
    ⟨.vload,       0x20000, 0x78000, .always⟩,
    ⟨.round,       0x28000, 0x78000, .always⟩,
    ⟨.fold,        0x30000, 0x78000, .always⟩ ]

/-- The micro-operation a sequencer vector selects (30_encoding.md R83). -/
def decodeSV (v : SeqVec) : Except DecodeError Instr :=
  match uopRows.find? (fun r => r.applies v) with
  | some r => .ok r.instr
  | none => .error (.noMicroOp v)

/-- The words of the opcode table: a command word or a sequencer vector. -/
inductive TableWord where
  /-- A word at the command port. -/
  | cmd (w : CmdWord)
  /-- A sequencer vector. -/
  | sv (v : SeqVec)
deriving DecidableEq, Repr

/-- The instruction of a word of the opcode table. -/
def decode : TableWord → Except DecodeError Instr
  | .cmd w => decodeCmd w
  | .sv v => decodeSV v

/-- The word of an instruction, from the encoding tables (30_encoding.md R77, R83). A command has one word. A
micro-operation has many vectors; the one given has every bit the row leaves open zero, but for WEXP, whose extra
condition asks for `T >= 16`: there `T = 16` (log entry 21). -/
def encode : Instr → TableWord
  | .init => .cmd 0x100
  | .update b => .cmd (0x200 ||| b.setWidth 12)
  | .finalize => .cmd 0x300
  | .rddigest j => .cmd (0x400 ||| j.setWidth 12)
  | .blkgoAbsorb => .sv 0x09000
  | .blkgoPad => .sv 0x11000
  | .padmark => .sv 0x12000
  | .padzero => .sv 0x14000
  | .padlenFirst => .sv 0x14e00
  | .padlenNext => .sv 0x16000
  | .wload => .sv 0x18000
  | .wexp => .sv 0x18010
  | .vload => .sv 0x20000
  | .round => .sv 0x28000
  | .fold => .sv 0x30000

/-- The word of the opcode table that a number of `nbits` bits stands for: a CMD row has 12 bits (16 in whole bytes), a UOP
row 19 (24 in whole bytes). A number that does not fit the 12 or the 19 bits is no word of the table. -/
def tableWordOf (nbits w : Nat) : Option TableWord :=
  if nbits ≤ 16 then (if w < 2 ^ 12 then some (.cmd (BitVec.ofNat 12 w)) else none)
  else if w < 2 ^ 19 then some (.sv (BitVec.ofNat 19 w)) else none

/-- The instruction the decoder reads from the word `w` of a row of `nbits` bits, bit 0 its least significant bit. -/
def decodeTableWord (nbits w : Nat) : Option Instr :=
  match tableWordOf nbits w with
  | some tw => (decode tw).toOption
  | none => none

end Sys2Proof
end

