-- ==== Sys2Proof/Machine/Sequencer.lean ====
section
/-! DEFINITION. The sequencer: which micro-operation, if any, is the next step (30_encoding.md R82, R83). -/

namespace Sys2Proof.Machine

/-- The sequencer vector `PHASE ++ PS ++ CNT ++ T` (30_encoding.md R83) of values of the four fields. -/
def packSV (phase : Phase) (ps : PadStage) (cnt : BitVec 7) (t : BitVec 6) : SeqVec :=
  phase.code ++ ps.code ++ cnt ++ t

/-- The sequencer vector of a state; none where one of the cells holds no value. -/
def Cells.seqVec (c : Cells) : Option SeqVec :=
  match c.ps, c.cnt, c.t with
  | some ps, some cnt, some t => some (packSV c.phase ps cnt t)
  | _, _, _ => none

/-- The micro-operation enabled in a state (30_encoding.md R82): the one its sequencer vector selects. Where a sequencer
cell holds no value none is selected (in `UNINIT` that is so of every cell, 10_state.md R37). "The combination `PHASE = PAD`,
`PS = NONE` is never reached ...; a model gives it no step": none is selected there, though the mask of BLKGO's second row
ignores `PS` (log entry 19). -/
def Cells.enabled (c : Cells) : Option Instr :=
  if c.phase = .pad ∧ c.ps = some .none then none
  else
    match c.seqVec with
    | some v => (decodeSV v).toOption
    | none => none

/-- A micro-operation's rule is applied only where it is selected (30_encoding.md R82). -/
def whenEnabled (i : Instr) (s : State) (k : Outcome) : Outcome :=
  if s.enabled = some i then k else .fault .notSelected

end Sys2Proof.Machine
end

