-- ==== Sys2Proof/Machine/Compressor.lean ====
section
/-! DEFINITION. The Compressor: the mixing functions, `round` and `compress` (44_compressor.md R140 to R142), and the
micro-operations VLOAD, ROUND and FOLD (R149 to R151). -/

namespace Sys2Proof.Machine

/-- `bsig1` (44_compressor.md R140). -/
def bsig1 (e : Word) : Word := rotr e 6 ^^^ rotr e 11 ^^^ rotr e 25

/-- `ch` (44_compressor.md R140). -/
def ch (e f g : Word) : Word := (e &&& f) ^^^ (~~~e &&& g)

/-- `bsig0` (44_compressor.md R140). -/
def bsig0 (a : Word) : Word := rotr a 2 ^^^ rotr a 13 ^^^ rotr a 22

/-- `maj` (44_compressor.md R140). -/
def maj (a b c : Word) : Word := (a &&& b) ^^^ (a &&& c) ^^^ (b &&& c)

/-- `t1 = add32(h, S1, chv, k, w)` of a round (44_compressor.md R141). -/
def roundT1 (v : Oct Word) (k w : Word) : Word :=
  add32 (add32 (add32 (add32 v.h (bsig1 v.e)) (ch v.e v.f v.g)) k) w

/-- `t2 = add32(S0, mj)` of a round (44_compressor.md R141). -/
def roundT2 (v : Oct Word) : Word := add32 (bsig0 v.a) (maj v.a v.b v.c)

/-- `round(v, k, w)` (44_compressor.md R141): every value on the right is the value before the round. -/
def round (v : Oct Word) (k w : Word) : Oct Word :=
  ⟨add32 (roundT1 v k w) (roundT2 v), v.a, v.b, v.c, add32 v.d (roundT1 v k w), v.e, v.f, v.g⟩

/-- `n` rounds in ascending order from round 0, on the words `w` (44_compressor.md R142, R143). -/
def rounds (w : List Word) (n : Nat) (v : Oct Word) : Oct Word :=
  (List.range n).foldl (fun v i => round v (roundConstants.getD i 0) (w.getD i 0)) v

/-- `compress(Hs, w)` (44_compressor.md R142). -/
def compress (hs : Oct Word) (w : List Word) : Oct Word := Oct.zip add32 hs (rounds w 64 hs)

/-- VLOAD (44_compressor.md R149). -/
def execVload (s : State) : Outcome :=
  whenEnabled .vload s
    (need .h s.h.values fun hs => .next { s with v := hs.held, t := some 0, phase := .round })

/-- ROUND (44_compressor.md R150). -/
def execRound (s : State) : Outcome :=
  whenEnabled .round s
    (need .t s.t fun t =>
      need .v s.v.values fun vs =>
        need .w (Store.read s.w t.toNat) fun x =>
          .next ({ s with v := (round vs (kAt t) x).held }.advance t .fold))

/-- The phase that follows FOLD, by the pad stage (44_compressor.md R151); `MARK` "cannot occur here" and has none. -/
def phaseAfterFold : PadStage → Option Phase
  | .none => some .absorb
  | .zero => some .pad
  | .len => some .done
  | .mark => none

/-- What FOLD writes, for the new hash state and the next phase (44_compressor.md R151). -/
def State.endBlock (hs : Oct Word) (next : Phase) (s : State) : State :=
  { s with
    h := hs.held
    v := Oct.noValue
    w := Store.invalid
    buf := Store.invalid
    cnt := some 0
    t := some 0
    phase := next }

/-- FOLD (44_compressor.md R151). With `PS = MARK` no next phase is defined: the core is stuck
(93_implementation_defined.md I15, log entry 8). -/
def execFold (s : State) : Outcome :=
  whenEnabled .fold s
    (need .ps s.ps fun ps =>
      need .h s.h.values fun hs =>
        need .v s.v.values fun vs =>
          match phaseAfterFold ps with
          | some next => .next (s.endBlock (Oct.zip add32 hs vs) next)
          | none => .fault .stuck)

end Sys2Proof.Machine
end

