-- ==== Sys2Proof/Machine/Padder.lean ====
section
/-! DEFINITION. The Padder: the function `pad` (41_padder.md R110 to R113) and the micro-operations PADMARK, PADZERO and
PADLEN (R114 to R116). -/

namespace Sys2Proof.Machine

/-- The document's one error (60_exceptions.md R191), as the answer of a function of the functional layer. -/
inductive HashError where
  /-- The message is `2^61` bytes long or longer (41_padder.md R113). -/
  | lengthOverflow
deriving DecidableEq, Repr

/-- `P = (55 - L) mod 64`, the mathematical modulus (41_padder.md R111). -/
def padZeros (len : Nat) : Nat := ((55 - (len : Int)) % 64).toNat

/-- `pad(M)` of 41_padder.md R110 for an admitted message: `M`, the mark, the zero bytes, the length field. -/
def padBytes (m : List Byte) : List Byte :=
  m ++ [Config.padMark] ++ List.replicate (padZeros m.length) 0 ++ be64Bytes (BitVec.ofNat 64 (m.length * 8))

/-- `pad(M)`, with its length bound (41_padder.md R113): "fails with `LengthOverflow` if `L * 8` cannot be represented in
64 bits". -/
def pad (m : List Byte) : Except HashError (List Byte) :=
  if m.length < 2 ^ 61 then .ok (padBytes m) else .error .lengthOverflow

/-- PADMARK (41_padder.md R114). -/
def execPadmark (s : State) : Outcome :=
  whenEnabled .padmark s
    (need .cnt s.cnt fun n => .next { s.bufWrite n Config.padMark with ps := some .zero })

/-- PADZERO (41_padder.md R115). -/
def execPadzero (s : State) : Outcome :=
  whenEnabled .padzero s (need .cnt s.cnt fun n => .next (s.bufWrite n 0))

/-- One byte of the length field (41_padder.md R116). -/
def padLengthByte (s : State) : Outcome :=
  need .cnt s.cnt fun n =>
    need .len s.len fun l =>
      .next { s.bufWrite n (lenFieldByte n l) with ps := some .len }

/-- PADLEN, the first length byte: `PS = ZERO` and `CNT = 56` (41_padder.md R116). -/
def execPadlenFirst (s : State) : Outcome :=
  whenEnabled .padlenFirst s (padLengthByte s)

/-- PADLEN, the length bytes after the first: `PS = LEN` and `CNT < 64` (41_padder.md R116). -/
def execPadlenNext (s : State) : Outcome :=
  whenEnabled .padlenNext s (padLengthByte s)

end Sys2Proof.Machine
end

