-- ==== Sys2Proof/Machine/Scheduler.lean ====
section
/-! DEFINITION. The MessageScheduler: the mixing functions and the function `schedule` (43_scheduler.md R130, R131), and
the micro-operations WLOAD and WEXP (R132, R133). -/

namespace Sys2Proof.Machine

/-- `ssig0` (43_scheduler.md R130). -/
def ssig0 (x : Word) : Word := rotr x 7 ^^^ rotr x 18 ^^^ shr x 3

/-- `ssig1` (43_scheduler.md R130). -/
def ssig1 (x : Word) : Word := rotr x 17 ^^^ rotr x 19 ^^^ shr x 10

/-- The recurrence's right side, from `w[i-16]`, `w[i-15]`, `w[i-7]` and `w[i-2]` (43_scheduler.md R131). -/
def expandWord (w16 w15 w7 w2 : Word) : Word := add32 (add32 (add32 w16 (ssig0 w15)) w7) (ssig1 w2)

/-- `w[i]` for `i` in 0..15: the big-endian word of bytes `[4i, 4i+4)` of the block (43_scheduler.md R131). -/
def blockWord (b : List Byte) (i : Nat) : Word :=
  be32 (b.getD (4 * i) 0) (b.getD (4 * i + 1) 0) (b.getD (4 * i + 2) 0) (b.getD (4 * i + 3) 0)

/-- The next word of a schedule that has at least 16 words (43_scheduler.md R131). -/
def nextWord (w : List Word) : Word :=
  expandWord (w.getD (w.length - 16) 0) (w.getD (w.length - 15) 0) (w.getD (w.length - 7) 0) (w.getD (w.length - 2) 0)

/-- `n` more words of the schedule, in ascending order (43_scheduler.md R131). -/
def expandBy : Nat → List Word → List Word
  | 0, w => w
  | n + 1, w => expandBy n (w ++ [nextWord w])

/-- `schedule(B) = w[0..63]` for a block of 64 bytes (43_scheduler.md R131). -/
def schedule (b : List Byte) : List Word := expandBy 48 ((List.range 16).map (blockWord b))

/-- WLOAD (43_scheduler.md R132): `W[t] <- BufRead(4t, 4)`, `T <- t + 1`. -/
def execWload (s : State) : Outcome :=
  whenEnabled .wload s
    (need .t s.t fun t =>
      need .buf (bufRead4 s.buf (4 * t.toNat)) fun x =>
        .next { s with w := Store.write s.w t.toNat x, t := some (t + 1) })

/-- WEXP (43_scheduler.md R133): one word of the recurrence; after `t = 63` the schedule is complete. -/
def execWexp (s : State) : Outcome :=
  whenEnabled .wexp s
    (need .t s.t fun t =>
      need .w (Store.read s.w (t.toNat - 16)) fun w16 =>
        need .w (Store.read s.w (t.toNat - 15)) fun w15 =>
          need .w (Store.read s.w (t.toNat - 7)) fun w7 =>
            need .w (Store.read s.w (t.toNat - 2)) fun w2 =>
              .next ({ s with w := Store.write s.w t.toNat (expandWord w16 w15 w7 w2) }.advance t .vinit))

end Sys2Proof.Machine
end

