-- ==== Sys2Proof/Machine/Splitter.lean ====
section
/-! DEFINITION. The BlockSplitter: the function `blocks` (42_block_splitter.md R120) and the micro-operation BLKGO
(R123). -/

namespace Sys2Proof.Machine

/-- `B_j = PM[64j .. 64j + 64)` (42_block_splitter.md R120). -/
def blockAt (pm : List Byte) (j : Nat) : List Byte := (pm.drop (64 * j)).take 64

/-- `blocks(PM) = [B_0, ..., B_(N-1)]`, `N = len(PM) / 64` (42_block_splitter.md R120). -/
def blocks (pm : List Byte) : List (List Byte) := (List.range (pm.length / 64)).map (blockAt pm)

/-- What BLKGO writes (42_block_splitter.md R123); nothing else changes. -/
def State.startBlock (s : State) : State := { s with phase := .sched, t := some 0 }

/-- BLKGO of a block of message bytes, from `ABSORB` (42_block_splitter.md R123). -/
def execBlkgoAbsorb (s : State) : Outcome :=
  whenEnabled .blkgoAbsorb s (.next s.startBlock)

/-- BLKGO of a block that holds padding, from `PAD` (42_block_splitter.md R123). -/
def execBlkgoPad (s : State) : Outcome :=
  whenEnabled .blkgoPad s (.next s.startBlock)

end Sys2Proof.Machine
end

