-- ==== Sys2Proof/Machine/Engine.lean ====
section
/-! DEFINITION. The Sha256Engine's function `sha256` (45_engine.md R160): what the machine layer must realise
(00_scope.md R4). -/

namespace Sys2Proof.Machine

/-- One block of the engine: `compress(Hs, schedule(B))` (45_engine.md R160). -/
def hashBlock (hs : Oct Word) (b : List Byte) : Oct Word := compress hs (schedule b)

/-- The hash state after all blocks of a message (45_engine.md R160). -/
def hashState (m : List Byte) : Except HashError (Oct Word) :=
  match pad m with
  | .ok pm => .ok ((blocks pm).foldl hashBlock initialHash)
  | .error e => .error e

/-- `sha256(M)` (45_engine.md R160): an error or a 32-byte digest. -/
def sha256 (m : List Byte) : Except HashError (List Byte) :=
  match hashState m with
  | .ok hs => .ok (digestBytes hs)
  | .error e => .error e

end Sys2Proof.Machine
end

