-- ==== Sys2Proof/Machine/Dispatch.lean ====
section
/-! DEFINITION. One arm per instruction: which meaning each constructor of `Instr` has. -/

namespace Sys2Proof.Machine

def exec (i : Instr) (s : State) : Host.Outcome State Fault Refusal :=
  match i with
  | .init => Sys2Proof.Machine.execInit s
  | .update b => Sys2Proof.Machine.execUpdate b s
  | .finalize => Sys2Proof.Machine.execFinalize s
  | .rddigest j => Sys2Proof.Machine.execRddigest j s
  | .blkgoAbsorb => Sys2Proof.Machine.execBlkgoAbsorb s
  | .blkgoPad => Sys2Proof.Machine.execBlkgoPad s
  | .padmark => Sys2Proof.Machine.execPadmark s
  | .padzero => Sys2Proof.Machine.execPadzero s
  | .padlenFirst => Sys2Proof.Machine.execPadlenFirst s
  | .padlenNext => Sys2Proof.Machine.execPadlenNext s
  | .wload => Sys2Proof.Machine.execWload s
  | .wexp => Sys2Proof.Machine.execWexp s
  | .vload => Sys2Proof.Machine.execVload s
  | .round => Sys2Proof.Machine.execRound s
  | .fold => Sys2Proof.Machine.execFold s

end Sys2Proof.Machine
end

