-- ==== Sys2Proof/Machine/Port.lean ====
section
/-! DEFINITION. The command port and the reset input: how a word comes to be evaluated (40_commands.md R90, R91), how reset
takes effect (70_reset_and_hazards.md R210, R211), and how the host goes on after a response (40_commands.md R97). The last
section places an instruction so that it is the next one run. -/

namespace Sys2Proof.Machine

/-- Whether reset is asserted in the coming step: by the reset input, or by the host's line `RESET` (30_encoding.md R85,
45_engine.md R171). -/
def State.resetAsserted (s : State) : Bool := s.resetPin.headD false || s.host.head? == some .reset

/-- Reset takes effect (70_reset_and_hazards.md R210). The host's move of this step is used up: "If reset and a command are
presented together, reset takes effect and the command is discarded without a response" (R211), and so is a waiting one. -/
def State.takeReset (s : State) : State :=
  { s.resetCells with host := s.host.tail, resetPin := s.resetPin.tail }

/-- One step passes at the inputs while a micro-operation runs: silence is used up, a presented command waits unchanged
(40_commands.md R90). -/
def State.elapse (s : State) : State :=
  { s with
    resetPin := s.resetPin.tail
    host := match s.host with
      | .silent :: ms => ms
      | ms => ms }

/-- The evaluation of an accepted command word (40_commands.md R91): an illegal word is answered `ERR(ILLEGAL)` and changes
no cell (60_exceptions.md R193); a legal one is executed. -/
def acceptWord (w : CmdWord) (s : State) : Outcome :=
  match decodeCmd w with
  | .ok i => exec i s
  | .error _ => .next (s.answerError .illegal)

/-- Whether the newest response is an error (30_encoding.md R81). -/
def State.lastIsError (s : State) : Bool :=
  match s.responses with
  | r :: _ => isErrorRsp r
  | [] => false

/-- The host after a response: the expansion goes on with its next word, or "stops there" at an error (40_commands.md R97,
60_exceptions.md R200). -/
def State.resumeExpansion (rest : List CmdWord) (s : State) : State :=
  match rest with
  | [] => s
  | w :: ws => if s.lastIsError then s else { s with host := .issue w ws :: s.host }

/-- The step of a ready core (45_engine.md R163 (b)): a presented word is accepted; without one the core "stays as it
is". -/
def portStep (s : State) : Outcome :=
  match s.host with
  | .issue w rest :: ms =>
    match acceptWord w { s with host := ms, resetPin := s.resetPin.tail } with
    | .next t => .next (t.resumeExpansion rest)
    | .fault f => .fault f
    | .refused r => .refused r
  | .silent :: ms => .next { s with host := ms, resetPin := s.resetPin.tail }
  | .reset :: ms => .next { s.resetCells with host := ms, resetPin := s.resetPin.tail }
  | [] => .next { s with resetPin := s.resetPin.tail }

/-! ### Placing an instruction as the next one (log entry 13)

The core fetches nothing (10_state.md R30). A command is placed by presenting its word; a micro-operation by giving the
sequencer cells the values that select it. -/

/-- The word is the next to be accepted: presented first, reset not asserted, the core ready (a busy core is put in
`UNINIT`, a ready phase). -/
def State.placeCommand (w : CmdWord) (s : State) : State :=
  { s with
    phase := if s.ready then s.phase else .uninit
    host := .issue w [] :: s.host
    resetPin := false :: s.resetPin }

/-- A storage space with zero in those places below `n` that hold no value. -/
def Store.fillTo {α : Type} (zero : α) (n : Nat) (s : Store α) : Store α :=
  (List.range n).foldl
    (fun s i => match Store.read s i with
      | some _ => s
      | none => Store.write s i zero) s

/-- Eight cells with zero in those that hold no value. -/
def Oct.fill (r : Oct (Option Word)) : Oct (Option Word) := r.map (fun x => some (x.getD 0))

/-- How many places of `BUF` hold values in a phase (10_state.md R37). -/
def bufHeld (p : Phase) (cnt : BitVec 7) : Nat := if p = .sched then 64 else min cnt.toNat 64

/-- How many places of `W` hold values in a phase (10_state.md R37). -/
def wHeld (p : Phase) (t : BitVec 6) : Nat :=
  match p with
  | .sched => t.toNat
  | .vinit | .round | .fold => 64
  | .uninit | .absorb | .pad | .done | .failed => 0

/-- The pad stage of a placed vector: its field `PS`, but for `PAD` with `NONE`, a combination no state has (30_encoding.md
R82). The one row it matches, BLKGO from `PAD`, ignores `PS`, and is placed with `ZERO`. -/
def placedStage (p : Phase) (v : SeqVec) : PadStage :=
  if p = .pad ∧ PadStage.ofCode (svPs v) = .none then .zero else PadStage.ofCode (svPs v)

/-- The sequencer cells hold the vector's fields, and the cells that hold values in its phase (10_state.md R37) but held
none here hold zero. Reset is not asserted and the host is silent in the coming step. A vector whose `PHASE` code is unused
places nothing. -/
def State.placeMicroOp (v : SeqVec) (s : State) : State :=
  match Phase.ofCode (svPhase v) with
  | none => s
  | some p =>
    { s with
      phase := p
      ps := some (placedStage p v)
      cnt := some (svCnt v)
      t := some (svT v)
      h := if p = .uninit then s.h else s.h.fill
      len := if p = .uninit then s.len else some (s.len.getD 0)
      buf := if p = .uninit then s.buf else Store.fillTo 0 (bufHeld p (svCnt v)) s.buf
      w := Store.fillTo 0 (wHeld p (svT v)) s.w
      v := if p = .round ∨ p = .fold then s.v.fill else s.v
      host := .silent :: s.host
      resetPin := false :: s.resetPin }

/-- The instruction of a word of the opcode table is the next one run. -/
def State.place (tw : TableWord) (s : State) : State :=
  match tw with
  | .cmd w => s.placeCommand w
  | .sv v => s.placeMicroOp v

end Sys2Proof.Machine
end

