-- ==== Sys2Proof/Machine/Step.lean ====
section
/-! DEFINITION. One step of the core (00_scope.md R18, 45_engine.md R163): reset first (70_reset_and_hazards.md R211), then
the enabled micro-operation, then, in a ready core, the command port. -/

namespace Sys2Proof.Machine

/-- One step. -/
def step (s : State) : Host.Outcome State Fault Refusal :=
  if s.resetAsserted then .next s.takeReset
  else
    match s.enabled with
    | some i => exec i s.elapse
    | none => if s.ready then portStep s else .fault .stuck

/-- `s` with the instruction of an opcode-table word placed so that the very next step runs it (log entry 13). -/
def State.withFetchWord (s : State) (nbits w : Nat) : State :=
  match tableWordOf nbits w with
  | some tw => s.place tw
  | none => s

end Sys2Proof.Machine
end

