-- ==== Sys2Proof/Machine/Script.lean ====
section
/-! DEFINITION. The host's side of the port: command scripts and the pseudo-commands HASH, UPDATES, DIGEST and HEX
(40_commands.md R96 to R99), their textual form (30_encoding.md R85) and trace lines (R86). The core takes no part in
any of it. -/

namespace Sys2Proof.Machine

/-- A line of a command script (30_encoding.md R85). -/
inductive ScriptLine where
  | reset
  | init
  | update (b : Byte)
  | finalize
  | rddigest (j : BitVec 5)
  | hash (m : List Byte)
  | updates (m : List Byte)
  | digest
  | hex
deriving DecidableEq, Repr

/-- The word of a command as the host writes it (30_encoding.md R77). A micro-operation has none: "the host cannot issue
them" (30_encoding.md R86). -/
def commandWord (i : Instr) : Option CmdWord :=
  match encode i with
  | .cmd w => some w
  | .sv _ => none

/-- The word of INIT. -/
def initWord : CmdWord := 0x100

/-- The word of `UPDATE b`. -/
def updateWord (b : Byte) : CmdWord := 0x200 ||| b.setWidth 12

/-- The word of FINALIZE. -/
def finalizeWord : CmdWord := 0x300

/-- The word of `RDDIGEST j`. -/
def rddigestWord (j : BitVec 5) : CmdWord := 0x400 ||| j.setWidth 12

/-- The expansion of DIGEST: `RDDIGEST 0; ...; RDDIGEST 31` (40_commands.md R98). -/
def digestWords : List CmdWord := (List.range 32).map (fun j => rddigestWord (BitVec.ofNat 5 j))

/-- The expansion of HASH for an admitted message: INIT, the UPDATEs in order, FINALIZE, DIGEST (40_commands.md R96). -/
def hashWords (m : List Byte) : List CmdWord :=
  initWord :: (m.map updateWord ++ [finalizeWord] ++ digestWords)

/-- The words of one expansion as a move of the host; an expansion without words issues nothing (40_commands.md R97). -/
def issueAll : List CmdWord → List HostMove
  | [] => []
  | w :: ws => [.issue w ws]

/-- The moves of a script line. HASH of a message of `2^61` bytes or more reports `LengthOverflow` and issues nothing
(40_commands.md R96). -/
def ScriptLine.moves : ScriptLine → Except HashError (List HostMove)
  | .reset => .ok [.reset]
  | .init => .ok (issueAll [initWord])
  | .update b => .ok (issueAll [updateWord b])
  | .finalize => .ok (issueAll [finalizeWord])
  | .rddigest j => .ok (issueAll [rddigestWord j])
  | .hash m => if m.length < 2 ^ 61 then .ok (issueAll (hashWords m)) else .error .lengthOverflow
  | .updates m => .ok (issueAll (m.map updateWord))
  | .digest => .ok (issueAll digestWords)
  | .hex => .ok (issueAll digestWords)

/-- The moves a script line issues: none where the host itself refuses it (40_commands.md R96). -/
def ScriptLine.issued (l : ScriptLine) : List HostMove :=
  match l.moves with
  | .ok ms => ms
  | .error _ => []

/-- The moves of a script. A HASH that the host refuses issues nothing and takes nothing from the other lines: those before
it have issued theirs, and those after it follow, as they do after a line that the core answers with an error. 40_commands.md
R96 says only that the HASH "issues no command at all"; that the script goes on is DESIGN CHOICE (log entry 17). -/
def scriptMoves (ls : List ScriptLine) : List HostMove := ls.flatMap ScriptLine.issued

/-! ### What a pseudo-command reports (40_commands.md R96 to R99, 60_exceptions.md R200) -/

/-- The report of a pseudo-command to its caller. -/
inductive Report (α : Type) where
  /-- Not every command of the expansion has been answered yet. -/
  | pending
  /-- The host itself refused the line and issued no command (40_commands.md R96). -/
  | refused (e : HashError)
  /-- The expansion stopped at its first error, the response `r`, and reports it (40_commands.md R97, R98, 60_exceptions.md
  R200). -/
  | stopped (r : RspWord)
  /-- Every command was answered `OK`: the result. -/
  | result (x : α)
deriving DecidableEq, Repr

/-- The same report with its result rendered. -/
def Report.map {α β : Type} (f : α → β) : Report α → Report β
  | .pending => .pending
  | .refused e => .refused e
  | .stopped r => .stopped r
  | .result x => .result (f x)

/-- The report of an expansion of `n` commands from the responses to them so far, newest first: its first error, or the data
bytes of the `n` responses in the order given. -/
def expansionReport (n : Nat) (given : List RspWord) : Report (List Byte) :=
  match given.reverse.find? isErrorRsp with
  | some r => .stopped r
  | none => if given.length < n then .pending else .result (given.reverse.map rspData)

/-- The report of UPDATES (40_commands.md R97): it has no result but that every byte was accepted. -/
def updatesResult (m : List Byte) (given : List RspWord) : Report Unit :=
  (expansionReport m.length given).map (fun _ => ())

/-- The report of DIGEST (40_commands.md R98): the 32 data bytes in order, or the error that stopped it. -/
def digestResult (given : List RspWord) : Report (List Byte) := expansionReport Config.digestBytes given

/-- The report of HEX (40_commands.md R99): that of DIGEST, its bytes rendered by the host. -/
def hexResult (given : List RspWord) : Report (List Char) := (digestResult given).map hex

/-- The report of HASH (40_commands.md R96): `LengthOverflow` before any command, or "the 32 bytes DIGEST returns", which
follow the answers to INIT, the UPDATEs and FINALIZE. -/
def hashResult (m : List Byte) (given : List RspWord) : Report (List Byte) :=
  if m.length < 2 ^ 61 then (expansionReport (hashWords m).length given).map (List.drop (m.length + 2))
  else .refused .lengthOverflow

/-- The responses given between two states of a run, newest first. Over one expansion they are the responses to its
commands, because the host issues nothing else meanwhile. -/
def answersSince (before after : State) : List RspWord :=
  after.responses.take (after.responses.length - before.responses.length)

/-- A trace line of a micro-operation, `<mnemonic>` or `<mnemonic> t=<T>` (30_encoding.md R86): the index is written for
those that use it. -/
def traceText (i : Instr) (c : Cells) : String :=
  match i, c.t with
  | .wload, some t => i.mnemonic ++ " t=" ++ toString t.toNat
  | .wexp, some t => i.mnemonic ++ " t=" ++ toString t.toNat
  | .round, some t => i.mnemonic ++ " t=" ++ toString t.toNat
  | _, _ => i.mnemonic

/-! ### The text of a script line (30_encoding.md R85)

Where R85 leaves the form of a line open, only the forms it lists are read (DESIGN CHOICE, log entry 17): a space, and nothing
else, separates a mnemonic and its operands, quoted ones too; a hexadecimal byte has two lowercase digits; a decimal number has
no leading zero; and HASH and UPDATES have an operand, of which `""` is the empty one. Spaces may be repeated, and may stand at
either end of a line. A comment needs no space before it. -/

/-- A token of a script line. -/
inductive Token where
  /-- A run of characters without spaces, quotes or comment signs. -/
  | bare (cs : List Char)
  /-- A quoted ASCII character, `'a'`. -/
  | char (c : Char)
  /-- A double-quoted ASCII string. -/
  | text (cs : List Char)
deriving DecidableEq, Repr

/-- A bare token that is being read, ended. -/
def endBare (cur : List Char) (ts : List Token) : List Token :=
  if cur = [] then ts else .bare cur.reverse :: ts

/-- The state of reading a line: between or inside bare tokens, inside a string, inside a quoted character, or just after a
quoted token. -/
inductive Lexing where
  | bare (cur : List Char)
  | text (cur : List Char)
  | quote
  | quoted (c : Char)
  | closed
deriving DecidableEq, Repr

/-- The tokens of a line; `#` to the end of the line is a comment, outside quotes. Nothing for an open quote, and nothing for a
quoted token that no space separates from its neighbours, such as `UPDATE'a'` or `'a''b'` (log entry 17). -/
def tokens : Lexing → List Char → Option (List Token)
  | .bare cur, [] => some (endBare cur [])
  | .closed, [] => some []
  | .text _, [] => none
  | .quote, [] => none
  | .quoted _, [] => none
  | .bare cur, c :: cs =>
    if c = '#' then some (endBare cur [])
    else if c = ' ' then (tokens (.bare []) cs).map (endBare cur)
    else if c = '"' then (if cur = [] then tokens (.text []) cs else none)
    else if c = '\'' then (if cur = [] then tokens .quote cs else none)
    else tokens (.bare (c :: cur)) cs
  | .closed, c :: cs =>
    if c = '#' then some []
    else if c = ' ' then tokens (.bare []) cs
    else none
  | .text cur, c :: cs =>
    if c = '"' then (tokens .closed cs).map (.text cur.reverse :: ·) else tokens (.text (c :: cur)) cs
  | .quote, c :: cs => tokens (.quoted c) cs
  | .quoted q, c :: cs => if c = '\'' then (tokens .closed cs).map (.char q :: ·) else none

/-- A decimal digit's value. -/
def decDigit (c : Char) : Option Nat :=
  if '0'.toNat ≤ c.toNat ∧ c.toNat ≤ '9'.toNat then some (c.toNat - '0'.toNat) else none

/-- A lowercase hexadecimal digit's value. -/
def hexDigitValue (c : Char) : Option Nat :=
  if 'a'.toNat ≤ c.toNat ∧ c.toNat ≤ 'f'.toNat then some (c.toNat - 'a'.toNat + 10) else decDigit c

/-- The number that decimal digits stand for, after those read already. -/
def decDigits : Nat → List Char → Option Nat
  | acc, [] => some acc
  | acc, c :: cs => (decDigit c).bind (fun d => decDigits (acc * 10 + d) cs)

/-- A decimal number without a leading zero: `007` is none (log entry 17). -/
def decimalOf : List Char → Option Nat
  | [] => none
  | ['0'] => some 0
  | '0' :: _ => none
  | c :: cs => decDigits 0 (c :: cs)

/-- A number: `0x` and two hexadecimal digits, as in "`0x00`..`0xff`", or a decimal number; `0x1` and `0x00ff` are none (log
entry 17). -/
def numberOf : List Char → Option Nat
  | ['0', 'x', a, b] =>
    match hexDigitValue a, hexDigitValue b with
    | some x, some y => some (x * 16 + y)
    | _, _ => none
  | cs => decimalOf cs

/-- A number as a byte; nothing above 255. -/
def byteOfNat (n : Nat) : Option Byte := if n < 256 then some (BitVec.ofNat 8 n) else none

/-- The code of an ASCII character. -/
def asciiByte (c : Char) : Option Byte := if c.toNat < 128 then some (BitVec.ofNat 8 c.toNat) else none

/-- `<byte>`: a number from 0 to 255, or a quoted ASCII character. -/
def Token.byte : Token → Option Byte
  | .bare cs => (numberOf cs).bind byteOfNat
  | .char c => asciiByte c
  | .text _ => none

/-- All of a list, or nothing. -/
def allSome {α : Type} : List (Option α) → Option (List α)
  | [] => some []
  | some x :: xs => (allSome xs).map (x :: ·)
  | none :: _ => none

/-- `<bytes>`: one double-quoted ASCII string, or a list of at least one `<byte>` item. A missing operand is no empty
sequence: that is written `""` (log entry 17). -/
def bytesOf : List Token → Option (List Byte)
  | [] => none
  | [.text cs] => allSome (cs.map asciiByte)
  | ts => allSome (ts.map Token.byte)

/-- The line of a mnemonic and its operands. -/
def lineOf (name : List Char) (args : List Token) : Option ScriptLine :=
  if name = ['R', 'E', 'S', 'E', 'T'] then (if args = [] then some .reset else none)
  else if name = ['I', 'N', 'I', 'T'] then (if args = [] then some .init else none)
  else if name = ['U', 'P', 'D', 'A', 'T', 'E'] then
    match args with
    | [a] => a.byte.map .update
    | _ => none
  else if name = ['F', 'I', 'N', 'A', 'L', 'I', 'Z', 'E'] then (if args = [] then some .finalize else none)
  else if name = ['R', 'D', 'D', 'I', 'G', 'E', 'S', 'T'] then
    match args with
    | [.bare cs] =>
      (decimalOf cs).bind (fun n => if n < 32 then some (.rddigest (BitVec.ofNat 5 n)) else none)
    | _ => none
  else if name = ['H', 'A', 'S', 'H'] then (bytesOf args).map .hash
  else if name = ['U', 'P', 'D', 'A', 'T', 'E', 'S'] then (bytesOf args).map .updates
  else if name = ['D', 'I', 'G', 'E', 'S', 'T'] then (if args = [] then some .digest else none)
  else if name = ['H', 'E', 'X'] then (if args = [] then some .hex else none)
  else none

/-- What a line of text says: `some none` for a line without a command (empty, or a comment only), `none` for a line that
is no line of a script. -/
def parseLine (cs : List Char) : Option (Option ScriptLine) :=
  match tokens (.bare []) cs with
  | none => none
  | some [] => some none
  | some (.bare name :: args) => (lineOf name args).map some
  | some (.char _ :: _) => none
  | some (.text _ :: _) => none

end Sys2Proof.Machine
end

