-- ==== Sys2Proof/Machine/System.lean ====
section
/-! DEFINITION. Several cores side by side (00_scope.md R8, 20_memory.md R61, 60_exceptions.md R203): identical, told apart by
their ports only, with no shared mutable cell. Each has its own inputs; whose step comes next is the list of turns. -/

namespace Sys2Proof.Machine

/-- A system of `N_INSTANCES` cores: the number is the list's length. -/
structure System where
  /-- The cores, each with its own host and reset input. -/
  cores : List State
deriving DecidableEq, Repr

/-- `n` cores after reset; by default one (00_scope.md R8). -/
def System.reset (n : Nat := Config.nInstances) : System := ⟨List.replicate n State.reset⟩

/-- A step of core `k`; no other core changes. For a `k` beyond the list there is no core and nothing happens (DESIGN
CHOICE, log entry 14). -/
def System.stepCore (k : Nat) (sys : System) : Host.Outcome System Fault Refusal :=
  match sys.cores[k]? with
  | none => .next sys
  | some s =>
    match step s with
    | .next t => .next ⟨sys.cores.set k t⟩
    | .fault f => .fault f
    | .refused r => .refused r

/-- The steps of the cores in the order of their turns; any order is a run of the system (20_memory.md R61). -/
def System.run : List Nat → System → Host.Outcome System Fault Refusal
  | [], sys => .next sys
  | k :: ks, sys =>
    match sys.stepCore k with
    | .next t => System.run ks t
    | .fault f => .fault f
    | .refused r => .refused r

end Sys2Proof.Machine
end

