-- ==== Sys2Proof/Safety.lean ====
section
/-! DEFINITION. The invariants of reachable states (10_state.md R37) and what a safe step is (10_state.md R38). -/

namespace Sys2Proof

open Machine

/-- All eight cells of a register file hold values. -/
abbrev AllHeld (r : Oct (Option Word)) : Prop := r.values.isSome = true

/-- The first row of 10_state.md R37: `H`, `LEN` hold values and `CNT`, `PS`, `T` hold these values; `BUF` holds values in
exactly the places below `CNT <= 64`; `PS != MARK` unless `PHASE = PAD`. -/
def OpenInv (c : Cells) (n : BitVec 7) (l : BitVec 61) (p : PadStage) (t : BitVec 6) : Prop :=
  c.cnt = some n ∧ c.len = some l ∧ c.ps = some p ∧ c.t = some t ∧
  AllHeld c.h ∧ n.toNat ≤ 64 ∧ Store.filledTo n.toNat c.buf ∧ (p = .mark → c.phase = .pad)

/-- `V` and `W` all `NOVAL`. -/
abbrev Idle (c : Cells) : Prop := c.v = Oct.noValue ∧ c.w = Store.invalid

/-- What a block of message bytes says of the length: in the four phases that process a block, `PS = NONE` means that the
block ended at a multiple of 64 message bytes. 10_state.md R37 does not list it; it is what carries its row `ABSORB` over
FOLD (DEDUCED, log entry 20). -/
abbrev WholeBlocks (l : BitVec 61) (p : PadStage) : Prop := p = .none → l.toNat % 64 = 0 ∧ 0 < l.toNat

/-- The rows of 10_state.md R37 for the phases other than `UNINIT`. -/
def PhaseInv (c : Cells) (n : BitVec 7) (l : BitVec 61) (p : PadStage) (t : BitVec 6) : Prop :=
  match c.phase with
  | .uninit => False
  | .absorb => p = .none ∧ t = 0 ∧ Idle c ∧
      (n.toNat < 64 → n.toNat = l.toNat % 64) ∧ (n.toNat = 64 → l.toNat % 64 = 0 ∧ 0 < l.toNat)
  | .pad => p ≠ .none ∧ t = 0 ∧ Idle c ∧
      (p = .mark → n.toNat = l.toNat % 64) ∧ (p = .len → 57 ≤ n.toNat)
  | .sched => n = 64 ∧ p ≠ .mark ∧ Store.filledTo t.toNat c.w ∧ c.v = Oct.noValue ∧ WholeBlocks l p
  | .vinit => n = 64 ∧ t = 0 ∧ Store.filledTo 64 c.w ∧ c.v = Oct.noValue ∧ WholeBlocks l p
  | .round => n = 64 ∧ Store.filledTo 64 c.w ∧ AllHeld c.v ∧ WholeBlocks l p
  | .fold => n = 64 ∧ t = 0 ∧ Store.filledTo 64 c.w ∧ AllHeld c.v ∧ WholeBlocks l p
  | .done => p = .len ∧ n = 0 ∧ t = 0 ∧ Idle c
  | .failed => p = .none ∧ t = 0 ∧ l = Config.maxLen ∧ n = 63 ∧ Idle c

/-- The invariants of 10_state.md R37, but for the value of `H` in `DONE`, which 45_engine.md R166 gives. -/
def Inv (c : Cells) : Prop :=
  c = Cells.reset ∨ ∃ n l p t, OpenInv c n l p t ∧ PhaseInv c n l p t

/-- A step is safe when it answers a next state: it reads no cell without a value, and it is not stuck (10_state.md R38,
45_engine.md R163). -/
def SafeStep (s : State) : Prop := ∃ s', step s = .next s'

/-- `n` steps, stopping at the first fault or refusal. -/
def run : Nat → State → Outcome
  | 0, s => .next s
  | n + 1, s =>
    match step s with
    | .next t => run n t
    | .fault f => .fault f
    | .refused r => .refused r

/-- Reset occurs nowhere in the coming run: "proofs about a run ... assume no reset inside the run"
(70_reset_and_hazards.md R211). -/
def NoReset (s : State) : Prop := (∀ b ∈ s.resetPin, b = false) ∧ HostMove.reset ∉ s.host

/-- The block in a full buffer, `BUF[0 .. 64)` (42_block_splitter.md R122). -/
def bufBlock (m : Memory) : List Byte := (List.range 64).map (fun i => (Store.read m i).getD 0)

/-- A state the model reaches from reset with some inputs (70_reset_and_hazards.md R212: "The initial state of a model is the
state after reset"). -/
def Reachable (s : State) : Prop :=
  ∃ host pin n, run n { State.reset with host := host, resetPin := pin } = .next s

/-- The inputs of the model are as before. -/
def SameInputs (s t : State) : Prop := t.host = s.host ∧ t.resetPin = s.resetPin

/-- Every place but one reads as before. -/
def ReadsSameBut {α : Type} (m m' : Store α) (a : Nat) : Prop := ∀ i, i ≠ a → Store.read m' i = Store.read m i

/-- Every place reads as before. -/
def ReadsSame {α : Type} (m m' : Store α) : Prop := ∀ i, Store.read m' i = Store.read m i

end Sys2Proof
end

