-- ==== Sys2Proof/Certificates/Slice0/Obligations.lean ====
section
/-! DEFINITION. The statements for the provers. Each docstring says what is stated and which rules of spec/ it comes from. -/

open Sys2Proof Sys2Proof.Machine

/-- The sum of any list of words by add32 is the sum of their values modulo 2^32; two lists that are permutations of
each other have the same sum; add32 of two words is their sum modulo 2^32 and is associative and commutative; and
the rule's corner cases hold: 0xffffffff + 1 = 0, 0x80000000 + 0x80000000 = 0, x + 0 = x. States R10. -/
def Obligations.ModularAdditionWraps : Prop :=
  (∀ x y : Word, (add32 x y).toNat = (x.toNat + y.toNat) % 2 ^ 32) ∧
  (∀ xs : List Word, (xs.foldl add32 0).toNat = (xs.map BitVec.toNat).sum % 2 ^ 32) ∧
  (∀ xs ys : List Word, xs.Perm ys → xs.foldl add32 0 = ys.foldl add32 0) ∧
  (∀ x y z : Word, add32 (add32 x y) z = add32 x (add32 y z)) ∧ (∀ x y : Word, add32 x y = add32 y x) ∧
  add32 0xffffffff 0x00000001 = 0 ∧ add32 0x80000000 0x80000000 = 0 ∧ (∀ x : Word, add32 x 0 = x)

/-- For every word x and 1 <= n <= 31: rotr x n is ((x >> n) or (x << (32 - n))) mod 2^32, and bit i of it is bit (i +
n) mod 32 of x; shr x n is floor(x / 2^n), and its top n bits are zero. The corner cases of the two rules hold.
(Which amounts the core uses, the other sentence of the two rules, is not stated.) Derived from 00_scope.md section
4, R11 and R12. -/
def Obligations.RotateIsCircularAndShiftZeroFills : Prop :=
  (∀ (x : Word) (n : Nat), 1 ≤ n → n ≤ 31 →
    (rotr x n).toNat = ((x.toNat >>> n) ||| (x.toNat <<< (32 - n))) % 2 ^ 32 ∧
    (∀ i < 32, (rotr x n).getLsbD i = x.getLsbD ((i + n) % 32)) ∧
    (shr x n).toNat = x.toNat / 2 ^ n ∧ (∀ i, 32 - n ≤ i → (shr x n).getLsbD i = false)) ∧
  rotr 0x00000001 1 = 0x80000000 ∧ rotr 0x80000000 31 = 0x00000001 ∧
  (∀ n, 1 ≤ n → n ≤ 31 → rotr 0x00000000 n = 0x00000000 ∧ rotr 0xffffffff n = 0xffffffff) ∧
  shr 0xffffffff 3 = 0x1fffffff ∧ shr 0x80000000 10 = 0x00200000 ∧ shr 0x00000007 3 = 0x00000000

/-- be32(b0, b1, b2, b3) = b0 * 2^24 + b1 * 2^16 + b2 * 2^8 + b3; byte_k(x), k in 0..3, is bits 31-8k to 24-8k of x;
be32 of the four bytes of x is x; be64_k(v), k in 0..7, is bits 63-8k to 56-8k of v; the 8-byte encoding of v is
be64_0(v) to be64_7(v). The rule's two examples hold. States R14. -/
def Obligations.BytesAndWordsAreBigEndian : Prop :=
  (∀ b0 b1 b2 b3 : Byte,
    (be32 b0 b1 b2 b3).toNat = b0.toNat * 2 ^ 24 + b1.toNat * 2 ^ 16 + b2.toNat * 2 ^ 8 + b3.toNat) ∧
  (∀ (x : Word) (k : Nat), k < 4 → (byteOf k x).toNat = x.toNat / 2 ^ (24 - 8 * k) % 2 ^ 8) ∧
  (∀ x : Word, be32 (byteOf 0 x) (byteOf 1 x) (byteOf 2 x) (byteOf 3 x) = x) ∧
  (∀ (v : DWord) (k : Nat), k < 8 → (be64 k v).toNat = v.toNat / 2 ^ (56 - 8 * k) % 2 ^ 8) ∧
  (∀ v : DWord, be64Bytes v = [be64 0 v, be64 1 v, be64 2 v, be64 3 v, be64 4 v, be64 5 v, be64 6 v, be64 7 v]) ∧
  be32 0x61 0x62 0x63 0x80 = 0x61626380 ∧ be64Bytes 24 = [0, 0, 0, 0, 0, 0, 0, 0x18]

/-- ssig0(x) = rotr(x, 7) xor rotr(x, 18) xor shr(x, 3) and ssig1(x) = rotr(x, 17) xor rotr(x, 19) xor shr(x, 10). Said
of the bits: bit i of each is the xor of the two rotated bits and of the shifted bit, which is 0 for the top 3 (10)
bits. The corner cases of the rule hold. States R130. -/
def Obligations.ScheduleMixingBits : Prop :=
  (∀ x : Word, ssig0 x = rotr x 7 ^^^ rotr x 18 ^^^ shr x 3 ∧ ssig1 x = rotr x 17 ^^^ rotr x 19 ^^^ shr x 10) ∧
  (∀ (x : Word) (i : Nat), i < 32 →
    (ssig0 x).getLsbD i =
      ((x.getLsbD ((i + 7) % 32) ^^ x.getLsbD ((i + 18) % 32)) ^^ (decide (i + 3 < 32) && x.getLsbD (i + 3))) ∧
    (ssig1 x).getLsbD i =
      ((x.getLsbD ((i + 17) % 32) ^^ x.getLsbD ((i + 19) % 32)) ^^ (decide (i + 10 < 32) && x.getLsbD (i + 10)))) ∧
  ssig0 0 = 0 ∧ ssig1 0 = 0 ∧ ssig0 0xffffffff = 0x1fffffff ∧ ssig1 0xffffffff = 0x003fffff ∧
  ssig0 0x00000001 = 0x02004000 ∧ ssig1 0x00000001 = 0x0000a000 ∧
  ssig0 0x80000000 = 0x11002000 ∧ ssig1 0x80000000 = 0x00205000

/-- bsig0 and bsig1 are the xor of three rotations; ch takes the bit of f where e has 1 and the bit of g where e has 0;
maj is 1 exactly where at least two of the three bits are 1. The corner cases of the rule hold. States R140. -/
def Obligations.RoundMixingBits : Prop :=
  (∀ x : Word, bsig1 x = rotr x 6 ^^^ rotr x 11 ^^^ rotr x 25 ∧ bsig0 x = rotr x 2 ^^^ rotr x 13 ^^^ rotr x 22) ∧
  (∀ e f g : Word, ch e f g = (e &&& f) ^^^ (~~~e &&& g)) ∧
  (∀ a b c : Word, maj a b c = (a &&& b) ^^^ (a &&& c) ^^^ (b &&& c)) ∧
  (∀ (e f g : Word) (i : Nat), i < 32 →
    (ch e f g).getLsbD i = if e.getLsbD i then f.getLsbD i else g.getLsbD i) ∧
  (∀ (a b c : Word) (i : Nat), i < 32 →
    ((maj a b c).getLsbD i = true ↔
      2 ≤ (a.getLsbD i).toNat + (b.getLsbD i).toNat + (c.getLsbD i).toNat)) ∧
  (∀ f g : Word, ch 0xffffffff f g = f ∧ ch 0 f g = g) ∧ (∀ e x : Word, ch e x x = x) ∧
  (∀ x y : Word, maj x x y = x) ∧ (∀ c : Word, maj 0 0xffffffff c = c) ∧
  bsig0 0 = 0 ∧ bsig1 0 = 0 ∧ bsig0 0xffffffff = 0xffffffff ∧ bsig1 0xffffffff = 0xffffffff ∧
  bsig0 0x00000001 = 0x40080400 ∧ bsig1 0x00000001 = 0x04200080 ∧
  bsig0 0x80000000 = 0x20040200 ∧ bsig1 0x80000000 = 0x02100040

/-- round(v, k, w): the new a is the sum modulo 2^32 of h, bsig1(e), ch(e, f, g), k, w, bsig0(a) and maj(a, b, c), the
new e is the sum modulo 2^32 of d and the first five of these, and b, c, d, f, g, h take the old a, b, c, e, f, g.
The eight assignments "h=g; g=f; f=e; e=d+t1; d=c; c=b; b=a; a=t1+t2", made one after another with t1 and t2
computed before, give the same registers. States R141. -/
def Obligations.RoundMovesRegistersFromOldValues : Prop :=
  (∀ (v : Oct Word) (k w : Word),
    (round v k w).a.toNat =
      (v.h.toNat + (bsig1 v.e).toNat + (ch v.e v.f v.g).toNat + k.toNat + w.toNat +
        (bsig0 v.a).toNat + (maj v.a v.b v.c).toNat) % 2 ^ 32 ∧
    (round v k w).e.toNat =
      (v.d.toNat + v.h.toNat + (bsig1 v.e).toNat + (ch v.e v.f v.g).toNat + k.toNat + w.toNat) % 2 ^ 32 ∧
    (round v k w).b = v.a ∧ (round v k w).c = v.b ∧ (round v k w).d = v.c ∧
    (round v k w).f = v.e ∧ (round v k w).g = v.f ∧ (round v k w).h = v.g) ∧
  (∀ (v : Oct Word) (k w : Word),
    let t1 := add32 (add32 (add32 (add32 v.h (bsig1 v.e)) (ch v.e v.f v.g)) k) w
    let t2 := add32 (bsig0 v.a) (maj v.a v.b v.c)
    let v1 := { v with h := v.g }
    let v2 := { v1 with g := v1.f }
    let v3 := { v2 with f := v2.e }
    let v4 := { v3 with e := add32 v3.d t1 }
    let v5 := { v4 with d := v4.c }
    let v6 := { v5 with c := v5.b }
    let v7 := { v6 with b := v6.a }
    let v8 := { v7 with a := add32 t1 t2 }
    v8 = round v k w)

/-- For every length L: padZeros L is the mathematical (55 - L) mod 64, (L + 1 + padZeros L) mod 64 = 56, no smaller
count satisfies this, padZeros L <= 63, it is 55 - r for r = L mod 64 <= 55 and 119 - r for r >= 56, and the nine
values of the rule's table hold for every L with that remainder. States R111. -/
def Obligations.PadZeroCountIsLeast : Prop :=
  (∀ L : Nat, (padZeros L : Int) = (55 - (L : Int)) % 64 ∧ (L + 1 + padZeros L) % 64 = 56 ∧
    (∀ P, (L + 1 + P) % 64 = 56 → padZeros L ≤ P) ∧ padZeros L ≤ 63 ∧
    (L % 64 ≤ 55 → padZeros L = 55 - L % 64) ∧ (56 ≤ L % 64 → padZeros L = 119 - L % 64)) ∧
  (∀ L : Nat, (L % 64 = 0 → padZeros L = 55) ∧ (L % 64 = 1 → padZeros L = 54) ∧ (L % 64 = 3 → padZeros L = 52) ∧
    (L % 64 = 54 → padZeros L = 1) ∧ (L % 64 = 55 → padZeros L = 0) ∧ (L % 64 = 56 → padZeros L = 63) ∧
    (L % 64 = 57 → padZeros L = 62) ∧ (L % 64 = 62 → padZeros L = 57) ∧ (L % 64 = 63 → padZeros L = 56))

/-- For every admitted message of L bytes: pad succeeds with a sequence of L + 9 + P = 64 * ((L + 8) / 64 + 1) bytes, a
positive multiple of 64, at least L + 9, and at most every multiple of 64 that is at least L + 9; its number of
blocks is (L + 8) / 64 + 1; padding adds 9 to 72 bytes, 9 exactly when L mod 64 = 55 and 72 exactly when L mod 64 =
56; and the lengths of the rule's table hold. States R112. -/
def Obligations.PaddedLengthIsNextMultipleOf64 : Prop :=
  ∀ m : List Byte, m.length < 2 ^ 61 → ∃ pm, pad m = .ok pm ∧
    pm.length = m.length + 9 + padZeros m.length ∧ pm.length = 64 * ((m.length + 8) / 64 + 1) ∧
    pm.length % 64 = 0 ∧ 0 < pm.length ∧ m.length + 9 ≤ pm.length ∧
    (∀ n, n % 64 = 0 → m.length + 9 ≤ n → pm.length ≤ n) ∧
    (blocks pm).length = (m.length + 8) / 64 + 1 ∧
    9 ≤ pm.length - m.length ∧ pm.length - m.length ≤ 72 ∧
    (pm.length - m.length = 9 ↔ m.length % 64 = 55) ∧ (pm.length - m.length = 72 ↔ m.length % 64 = 56) ∧
    (m.length ∈ [0, 1, 3, 55] → pm.length = 64) ∧ (m.length ∈ [56, 63, 64, 119] → pm.length = 128) ∧
    (m.length = 120 → pm.length = 192)

/-- For every admitted message m of L bytes with P = padZeros L: byte i of pad(m) is m[i] for i < L, 0x80 for i = L, 0
for L < i <= L + P, and be64_k(L * 8) for i = L + P + 1 + k, k in 0..7; its length is L + P + 9, a multiple of 64
that is at least L + 9 and at most every such multiple, so the length field is the last 8 bytes of the last block.
States R71. -/
def Obligations.PaddedMessageLayout : Prop :=
  ∀ m : List Byte, m.length < 2 ^ 61 → ∃ pm, pad m = .ok pm ∧ pm.length = m.length + padZeros m.length + 9 ∧
    pm.length % 64 = 0 ∧ m.length + 9 ≤ pm.length ∧ (∀ n, n % 64 = 0 → m.length + 9 ≤ n → pm.length ≤ n) ∧
    (padZeros m.length : Int) = (55 - (m.length : Int)) % 64 ∧
    (∀ i < m.length, pm[i]? = m[i]?) ∧ pm[m.length]? = some 0x80 ∧
    (∀ i, m.length < i → i ≤ m.length + padZeros m.length → pm[i]? = some 0) ∧
    (∀ k < 8, pm[m.length + padZeros m.length + 1 + k]? = some (be64 k (BitVec.ofNat 64 (m.length * 8)))) ∧
    (BitVec.ofNat 64 (m.length * 8)).toNat = m.length * 8 ∧
    (∀ k < 8, m.length + padZeros m.length + 1 + k = 64 * (pm.length / 64 - 1) + 56 + k)

/-- For every message: sha256 is LengthOverflow exactly when the message has 2^61 bytes or more, and pad is too;
otherwise it is a digest of exactly 32 bytes. The pseudo-command HASH reports LengthOverflow and issues no move in
the first case, in whatever script it stands; in the second it issues INIT, one UPDATE a byte in order, FINALIZE and
RDDIGEST 0 to 31, all legal words. Derived from 45_engine.md section 1, R160, R161; 41_padder.md R113;
40_commands.md R96. -/
def Obligations.DigestExistsUnlessLengthOverflows : Prop :=
  ∀ m : List Byte,
    (2 ^ 61 ≤ m.length → pad m = .error .lengthOverflow ∧ sha256 m = .error .lengthOverflow ∧
      (ScriptLine.hash m).moves = .error .lengthOverflow ∧ (ScriptLine.hash m).issued = [] ∧
      ∀ given, hashResult m given = .refused .lengthOverflow) ∧
    (m.length < 2 ^ 61 → (∃ d, sha256 m = .ok d ∧ d.length = 32) ∧
      ∃ ws, (ScriptLine.hash m).moves = .ok [.issue 0x100 ws] ∧
        ws.map decodeCmd = (m.map (fun b => .ok (.update b))) ++ [.ok .finalize] ++
          ((List.range 32).map (fun j => .ok (.rddigest (BitVec.ofNat 8 j)))))

/-- For a byte sequence whose length is a positive multiple of 64: there are len / 64 blocks, block j is bytes 64j to
64j + 63, every block has 64 bytes, and the blocks joined in order are the sequence. States R120. -/
def Obligations.BlocksPartitionThePaddedMessage : Prop :=
  ∀ pm : List Byte, pm.length % 64 = 0 → 0 < pm.length →
    (blocks pm).length = pm.length / 64 ∧ (∀ b ∈ blocks pm, b.length = 64) ∧ (blocks pm).flatten = pm ∧
    ∀ j < pm.length / 64, ∃ b, (blocks pm)[j]? = some b ∧ ∀ i < 64, b[i]? = pm[64 * j + i]?

/-- For every block of 64 bytes: the schedule has 64 words; word i below 16 is be32 of bytes 4i to 4i + 3; word i from
16 on is the sum modulo 2^32 of w[i-16], ssig0(w[i-15]), w[i-7] and ssig1(w[i-2]). The all-zero block gives 64 zero
words. States R131. -/
def Obligations.ScheduleFollowsRecurrence : Prop :=
  (∀ b : List Byte, b.length = 64 → (schedule b).length = 64 ∧
    (∀ i < 16, ∃ b0 b1 b2 b3, b[4 * i]? = some b0 ∧ b[4 * i + 1]? = some b1 ∧ b[4 * i + 2]? = some b2 ∧
      b[4 * i + 3]? = some b3 ∧ (schedule b)[i]? = some (be32 b0 b1 b2 b3)) ∧
    (∀ i, 16 ≤ i → i < 64 → ∃ x w16 w15 w7 w2, (schedule b)[i]? = some x ∧ (schedule b)[i - 16]? = some w16 ∧
      (schedule b)[i - 15]? = some w15 ∧ (schedule b)[i - 7]? = some w7 ∧ (schedule b)[i - 2]? = some w2 ∧
      x.toNat = (w16.toNat + (ssig0 w15).toNat + w7.toNat + (ssig1 w2).toNat) % 2 ^ 32)) ∧
  schedule (List.replicate 64 0) = List.replicate 64 0

/-- For every hash state: the digest has 32 bytes; digest_byte(H, j) is element j of it for every j in 0..31 and is bits
31 - 8 (j mod 4) to 24 - 8 (j mod 4) of H[j div 4]; be32 of bytes 4k to 4k + 3 is H[k], so two states with the same
digest are equal. j = 0 is bits 31:24 of H[0], j = 3 bits 7:0 of H[0], j = 4 bits 31:24 of H[1], j = 31 bits 7:0 of
H[7]. States R181. -/
def Obligations.DigestBytesAreTheStateBigEndian : Prop :=
  (∀ hs : Oct Word, (digestBytes hs).length = 32 ∧ hashOfDigest (digestBytes hs) = hs) ∧
  (∀ hs hs' : Oct Word, digestBytes hs = digestBytes hs' → hs = hs') ∧
  (∀ (hs : Oct Word) (j : BitVec 5), (digestBytes hs)[j.toNat]? = some (digestByte hs j) ∧
    ∃ x, hs.toList[j.toNat / 4]? = some x ∧
      (digestByte hs j).toNat = x.toNat / 2 ^ (24 - 8 * (j.toNat % 4)) % 2 ^ 8) ∧
  (∀ hs : Oct Word, digestByte hs 0 = hs.a.extractLsb' 24 8 ∧ digestByte hs 3 = hs.a.extractLsb' 0 8 ∧
    digestByte hs 4 = hs.b.extractLsb' 24 8 ∧ digestByte hs 31 = hs.h.extractLsb' 0 8)

/-- For every byte sequence D of n bytes hex(D) has 2n characters; character 2j is the digit of bits 7:4 of D[j] and
character 2j + 1 that of bits 3:0; the digit of n is the character '0' + n for n <= 9 and 'a' + (n - 10) for n from
10 on. ba 78 16 bf renders as ba7816bf and 0a as 0a. States R182. -/
def Obligations.HexIsTwoLowercaseDigitsPerByte : Prop :=
  (∀ d : List Byte, (hex d).length = 2 * d.length ∧
    ∀ j < d.length, ∃ b hi lo, d[j]? = some b ∧ (hex d)[2 * j]? = some hi ∧ (hex d)[2 * j + 1]? = some lo ∧
      hi = hexDigit (b.extractLsb' 4 4) ∧ lo = hexDigit (b.extractLsb' 0 4)) ∧
  (∀ n : BitVec 4, (n.toNat ≤ 9 → (hexDigit n).toNat = '0'.toNat + n.toNat) ∧
    (10 ≤ n.toNat → (hexDigit n).toNat = 'a'.toNat + (n.toNat - 10))) ∧
  hex [0xba, 0x78, 0x16, 0xbf] = ['b', 'a', '7', '8', '1', '6', 'b', 'f'] ∧ hex [0x0a] = ['0', 'a']

/-- Decoding the word of a well-formed instruction gives that instruction, for all fifteen rows and every operand value
(for a micro-operation the one vector that encode gives, the model's choice, log entry 21); whatever decodes is well
formed; a command word that decodes is the word of what it decodes to, so no two words mean the same command; a
command word never decodes to a micro-operation and a sequencer vector never to a command. Derived from
30_encoding.md section 2, R77, R78; 30_encoding.md section 3, R83, R86. -/
def Obligations.DecodeUndoesEncode : Prop :=
  (∀ i : Instr, i.wellFormed = true → decode (encode i) = .ok i) ∧
  (∀ (tw : TableWord) (i : Instr), decode tw = .ok i → i.wellFormed = true) ∧
  (∀ (w : CmdWord) (i : Instr), decodeCmd w = .ok i → encode i = .cmd w ∧ i.isCommand = true) ∧
  (∀ (v : SeqVec) (i : Instr), decodeSV v = .ok i → i.isCommand = false)

/-- For every 12-bit word: it decodes to INIT exactly when it is 0x100, to UPDATE b exactly when op = 2 and arg = b
(word 0x200 + b), to FINALIZE exactly when it is 0x300, to RDDIGEST j exactly when it is 0x400 + j with j below 32.
Each of these is the word's match with the row's mask, and no word matches two rows. States R77. -/
def Obligations.CommandWordsDecodeByTable : Prop :=
  ∀ w : CmdWord,
    (decodeCmd w = .ok .init ↔ w = 0x100) ∧ (w &&& 0xfff = 0x100 ↔ w = 0x100) ∧
    (∀ b : Byte, decodeCmd w = .ok (.update b) ↔ w.toNat = 0x200 + b.toNat) ∧
    (w &&& 0xf00 = 0x200 ↔ ∃ b : Byte, w.toNat = 0x200 + b.toNat) ∧
    (decodeCmd w = .ok .finalize ↔ w = 0x300) ∧ (w &&& 0xfff = 0x300 ↔ w = 0x300) ∧
    (∀ j : Byte, decodeCmd w = .ok (.rddigest j) ↔ j.toNat < 32 ∧ w.toNat = 0x400 + j.toNat) ∧
    (w &&& 0xfe0 = 0x400 ↔ ∃ j : Byte, j.toNat < 32 ∧ w.toNat = 0x400 + j.toNat) ∧
    [w &&& 0xfff == 0x100, w &&& 0xf00 == 0x200, w &&& 0xfff == 0x300, w &&& 0xfe0 == 0x400].countP id ≤ 1

/-- A command word is illegal exactly when op is 0 or 5 to 15, or op is INIT or FINALIZE and arg is not 0, or op is
RDDIGEST and arg is 32 or more; 290 of the 4096 words are legal. In every state an illegal word is answered with the
response word 0x300 and changes no cell and no input, so also no phase and no STATUS. 0x000 and 0xfff are illegal.
States R79, R193. -/
def Obligations.IllegalWordsAreRefusedUnchanged : Prop :=
  (∀ w : CmdWord, (∃ e, decodeCmd w = .error e) ↔
    (cmdOp w = 0 ∨ 5 ≤ (cmdOp w).toNat) ∨ ((cmdOp w = 1 ∨ cmdOp w = 3) ∧ cmdArg w ≠ 0) ∨
      (cmdOp w = 4 ∧ 32 ≤ (cmdArg w).toNat)) ∧
  ((List.range 4096).countP (fun n => match decodeCmd (BitVec.ofNat 12 n) with | .ok _ => true | .error _ => false)) = 290 ∧
  (∀ (w : CmdWord) (e : DecodeError) (s : State), decodeCmd w = .error e →
    ∃ t, acceptWord w s = .next t ∧ t.toCells = s.toCells ∧ t.responses = 0x300 :: s.responses ∧ SameInputs s t ∧
      t.status = s.status) ∧
  (∃ e, decodeCmd 0x000 = .error e) ∧ (∃ e, decodeCmd 0xfff = .error e)

/-- In every state whose sequencer cells PS, CNT and T hold values, each of the eleven rows is enabled exactly when
PHASE and the row's condition say so, nothing else is ever enabled, and where no row's condition holds none is
enabled: in UNINIT, DONE and FAILED, in ABSORB with CNT < 64, and in PAD with PS = NONE. States R82. -/
def Obligations.SelectionFollowsPhaseTable : Prop :=
  ∀ (c : Cells) (ps : PadStage) (n : BitVec 7) (t : BitVec 6),
    c.ps = some ps → c.cnt = some n → c.t = some t →
    (c.enabled = some .blkgoAbsorb ↔ c.phase = .absorb ∧ n = 64) ∧
    (c.enabled = some .blkgoPad ↔ c.phase = .pad ∧ n = 64 ∧ ps ≠ .none) ∧
    (c.enabled = some .padmark ↔ c.phase = .pad ∧ n.toNat < 64 ∧ ps = .mark) ∧
    (c.enabled = some .padzero ↔ c.phase = .pad ∧ n.toNat < 64 ∧ ps = .zero ∧ n ≠ 56) ∧
    (c.enabled = some .padlenFirst ↔ c.phase = .pad ∧ ps = .zero ∧ n = 56) ∧
    (c.enabled = some .padlenNext ↔ c.phase = .pad ∧ n.toNat < 64 ∧ ps = .len) ∧
    (c.enabled = some .wload ↔ c.phase = .sched ∧ t.toNat < 16) ∧
    (c.enabled = some .wexp ↔ c.phase = .sched ∧ 16 ≤ t.toNat) ∧
    (c.enabled = some .vload ↔ c.phase = .vinit) ∧
    (c.enabled = some .round ↔ c.phase = .round) ∧
    (c.enabled = some .fold ↔ c.phase = .fold) ∧
    (∀ i, c.enabled = some i → i.isCommand = false) ∧
    (c.phase = .uninit ∨ c.phase = .done ∨ c.phase = .failed ∨ (c.phase = .absorb ∧ n.toNat < 64) ∨
      (c.phase = .pad ∧ ps = .none) → c.enabled = none)

/-- For every 19-bit vector at most one of the eleven match-and-mask rows applies, and the vector decodes to a micro-
operation exactly when one does. The vector of the four sequencer fields has PHASE in bits 18:15, PS in 14:13, CNT
in 12:6 and T in 5:0. (The masks are 30_encoding.md R83's; that an enabled micro-operation is the selected one is
another statement.) Derived from 30_encoding.md section 3, R82 and R83. -/
def Obligations.SelectionRowsAreDisjoint : Prop :=
  (∀ v : SeqVec, uopRows.countP (fun r => r.applies v) ≤ 1 ∧
    (∀ i, decodeSV v = .ok i ↔ ∃ r ∈ uopRows, r.applies v = true ∧ r.instr = i)) ∧
  (∀ (p : Phase) (ps : PadStage) (n : BitVec 7) (t : BitVec 6),
    svPhase (packSV p ps n t) = p.code ∧ svPs (packSV p ps n t) = ps.code ∧ svCnt (packSV p ps n t) = n ∧
      svT (packSV p ps n t) = t ∧
      (packSV p ps n t).toNat = p.code.toNat * 2 ^ 15 + ps.code.toNat * 2 ^ 13 + n.toNat * 2 ^ 6 + t.toNat)

/-- One command word of each command, one sequencer vector of each row of the selection table, and illegal words, decode
as the spec's examples say. Derived from 95_test_vectors.md V60, V61, V70; 30_encoding.md R77, R83. -/
def Obligations.SpecWordsDecodeAsWritten : Prop :=
  decodeCmd 0b000100000000#12 = .ok .init ∧ decodeCmd 0b001011111111#12 = .ok (.update 0xff) ∧
  decodeCmd 0b001100000000#12 = .ok .finalize ∧ decodeCmd 0b010000011111#12 = .ok (.rddigest 31) ∧
  decodeCmd 0x420#12 = .error (.indexOutOfRange 0x20) ∧ decodeCmd 0x180#12 = .error (.reservedArg 0x80) ∧
  decodeCmd 0x500#12 = .error (.reservedOp 5) ∧
  decodeSV 0x09000#19 = .ok .blkgoAbsorb ∧ decodeSV 0x17000#19 = .ok .blkgoPad ∧ decodeSV 0x120c0#19 = .ok .padmark ∧
  decodeSV 0x14100#19 = .ok .padzero ∧ decodeSV 0x14e00#19 = .ok .padlenFirst ∧ decodeSV 0x16e40#19 = .ok .padlenNext ∧
  decodeSV 0x1f00f#19 = .ok .wload ∧ decodeSV 0x1f010#19 = .ok .wexp ∧ decodeSV 0x27000#19 = .ok .vload ∧
  decodeSV 0x2f03f#19 = .ok .round ∧ decodeSV 0x35000#19 = .ok .fold ∧
  decodeSV 0x08fc0#19 = .error (.noMicroOp 0x08fc0)

/-- For every state: READY is 1 exactly in UNINIT, DONE, FAILED and in ABSORB with CNT < 64; DVALID is 1 exactly in
DONE; LOVF is 1 exactly in FAILED; STATUS has READY in bit 0, DVALID in bit 1, LOVF in bit 2, 0 in bit 3 and the
phase code in bits 7:4; and it has the value the rule lists in each phase. States R33. -/
def Obligations.StatusWordFields : Prop :=
  ∀ c : Cells,
    (c.ready = true ↔ c.phase = .uninit ∨ c.phase = .done ∨ c.phase = .failed ∨
      (c.phase = .absorb ∧ ∃ n, c.cnt = some n ∧ n.toNat < 64)) ∧
    (c.dvalid = true ↔ c.phase = .done) ∧ (c.lovf = true ↔ c.phase = .failed) ∧
    c.status.getLsbD 0 = c.ready ∧ c.status.getLsbD 1 = c.dvalid ∧ c.status.getLsbD 2 = c.lovf ∧
    c.status.getLsbD 3 = false ∧ c.status.extractLsb' 4 4 = c.phase.code ∧
    (c.phase = .uninit → c.status = 0x01) ∧
    (c.phase = .absorb → ∀ n, c.cnt = some n → (n.toNat < 64 → c.status = 0x11) ∧ (n = 64 → c.status = 0x10)) ∧
    (c.phase = .pad → c.status = 0x20) ∧ (c.phase = .sched → c.status = 0x30) ∧ (c.phase = .vinit → c.status = 0x40) ∧
    (c.phase = .round → c.status = 0x50) ∧ (c.phase = .fold → c.status = 0x60) ∧
    (c.phase = .done → c.status = 0x73) ∧ (c.phase = .failed → c.status = 0x85)

/-- In every state that meets the invariants (of R37, with log entry 20's clause), no micro-operation is enabled exactly
when READY is 1, so each such state has either one enabled micro-operation or a core that accepts a command, never
both and never neither. Derived from 40_commands.md R90; 45_engine.md R163; 10_state.md R37. -/
def Obligations.ReadyExactlyWhenNothingIsEnabled : Prop :=
  ∀ c : Cells, Inv c → (c.enabled = none ↔ c.ready = true)

/-- In State.reset PHASE is UNINIT (code 0), each of H[0..7], V[0..7], W[0..63], BUF[0..63], CNT, LEN, PS and T holds no
value, and STATUS is 0x01 with READY 1, DVALID 0, LOVF 0. (The tables K and IV are constants and no part of the
state; that the model's own input and output lists are empty is the model's choice, log entries 2 to 4, and not
stated.) Derived from 10_state.md section 7, R35. -/
def Obligations.ResetLeavesNoValueButThePhase : Prop :=
  State.reset.phase = .uninit ∧ State.reset.phase.code = 0 ∧
  (∀ k : Fin 8, State.reset.h.get k = none ∧ State.reset.v.get k = none) ∧
  (∀ t, Store.read State.reset.w t = none) ∧ (∀ i, Store.read State.reset.buf i = none) ∧
  State.reset.cnt = none ∧ State.reset.len = none ∧ State.reset.ps = none ∧ State.reset.t = none ∧
  State.reset.status = 0x01 ∧ State.reset.ready = true ∧ State.reset.dvalid = false ∧ State.reset.lovf = false

/-- In every state, also in the middle of a block and with a command presented or waiting: when reset is asserted in a
step, that step leaves every cell as after reset (STATUS = 0x01), produces no response, keeps the responses already
given, and uses up the host's move of that step, so a presented or waiting command word never gets a response. Of
this, the model's choices are: that the responses given stay recorded (log entry 4), that reset is also the host's
line RESET and that the host's move of that step is used up whatever it is, a silent one or the rest of an expansion
too, and the input list by one level (log entry 3). R211 says that a presented or waiting command is discarded
without a response. Derived from 70_reset_and_hazards.md R210, R211; 30_encoding.md R85; log entry 3 (the host and
the reset input); log entry 4 (the record of responses). -/
def Obligations.ResetClearsEverythingAndWins : Prop :=
  ∀ s : State, (s.resetPin.head? = some true ∨ s.host.head? = some .reset) →
    ∃ t, step s = .next t ∧ t.toCells = State.reset.toCells ∧ t.phase = .uninit ∧ t.h = Oct.noValue ∧ t.v = Oct.noValue ∧
      (∀ i, Store.read t.w i = none ∧ Store.read t.buf i = none) ∧ t.cnt = none ∧ t.len = none ∧ t.ps = none ∧ t.t = none ∧
      t.status = 0x01 ∧ t.responses = s.responses ∧
      t.resetPin = s.resetPin.tail ∧ t.host = s.host.tail ∧ (∀ w rest ms, s.host = .issue w rest :: ms → t.host = ms)

/-- In every ready state INIT completes: H[k] = IV[k], LEN = CNT = T = 0, PS = NONE, every V[k], W[t] and BUF[i] holds
no value, PHASE = ABSORB, the response is 0x000, STATUS is 0x11, and the inputs are as before. Its cells depend on
nothing that was there, so two INITs give the cells of one. An INIT word with a non-zero argument is illegal. (The
eight values of IV are those R32 lists, which the spec marks as general knowledge: log entry 15.) Derived from
40_commands.md R92; 10_state.md R32; log entry 15 (the values of IV). -/
def Obligations.InitOpensMessage : Prop :=
  (∀ s : State, s.ready = true → ∃ t, exec .init s = .next t ∧
    t.h = (⟨0x6a09e667, 0xbb67ae85, 0x3c6ef372, 0xa54ff53a, 0x510e527f, 0x9b05688c, 0x1f83d9ab, 0x5be0cd19⟩ : Oct Word).held ∧
    t.len = some 0 ∧ t.cnt = some 0 ∧ t.ps = some .none ∧ t.t = some 0 ∧
    t.v = Oct.noValue ∧ (∀ i, Store.read t.w i = none) ∧ (∀ i, Store.read t.buf i = none) ∧
    t.phase = .absorb ∧ t.responses = 0x000 :: s.responses ∧ t.status = 0x11 ∧ SameInputs s t ∧
    (∀ u, exec .init t = .next u → u.toCells = t.toCells)) ∧
  (∀ s t s' t' : State, s.ready = true → s'.ready = true → exec .init s = .next t → exec .init s' = .next t' →
    t.toCells = t'.toCells) ∧
  (∀ w : CmdWord, cmdOp w = 1 → cmdArg w ≠ 0 → ∃ e, decodeCmd w = .error e)

/-- In ABSORB with CNT = n < 64 and LEN = l below 2^61 - 1, UPDATE b completes: BUF[n] = b and every other place of BUF
reads as before, CNT and LEN are one more (neither wraps), PHASE, PS, T, H, V, W and the inputs are as before, the
response is 0x000, and STATUS is 0x11 while the buffer is not full and 0x10 when the byte was the 64th; then BLKGO
is enabled if PS and T hold values. The byte value plays no part. Derived from 40_commands.md R93; 10_state.md R24,
R25, R26. -/
def Obligations.UpdateStoresAndCountsItsByte : Prop :=
  ∀ (s : State) (b : Byte) (n : BitVec 7) (l : BitVec 61),
    s.phase = .absorb → s.cnt = some n → n.toNat < 64 → s.len = some l → l ≠ 0x1fffffffffffffff →
    ∃ t, exec (.update b) s = .next t ∧ Store.read t.buf n.toNat = some b ∧ ReadsSameBut s.buf t.buf n.toNat ∧
      (∃ n', t.cnt = some n' ∧ n'.toNat = n.toNat + 1) ∧ (∃ l', t.len = some l' ∧ l'.toNat = l.toNat + 1) ∧
      t.phase = .absorb ∧ t.ps = s.ps ∧ t.t = s.t ∧ t.h = s.h ∧ t.v = s.v ∧ t.w = s.w ∧
      t.responses = 0x000 :: s.responses ∧ SameInputs s t ∧
      (n.toNat < 63 → t.status = 0x11) ∧
      (n.toNat = 63 → t.status = 0x10 ∧ (s.ps.isSome → s.t.isSome → t.enabled = some .blkgoAbsorb))

/-- In ABSORB with CNT < 64 and LEN = 2^61 - 1, UPDATE b completes with the response 0x100 and PHASE = FAILED; the byte
is not stored, every other cell and the inputs are as before, and STATUS goes from 0x11 to 0x85. No other command
and no micro-operation answers LENGTH_OVERFLOW, in any state. Derived from 60_exceptions.md R191, R197;
40_commands.md R93. -/
def Obligations.UpdateBeyondBoundFails : Prop :=
  (∀ (s : State) (b : Byte) (n : BitVec 7),
    s.phase = .absorb → s.cnt = some n → n.toNat < 64 → s.len = some 0x1fffffffffffffff →
    s.status = 0x11 ∧ ∃ t, exec (.update b) s = .next t ∧ t.toCells = { s.toCells with phase := .failed } ∧
      t.responses = 0x100 :: s.responses ∧ SameInputs s t ∧ t.status = 0x85) ∧
  (∀ (i : Instr) (s t : State) (r : RspWord), exec i s = .next t → t.responses = r :: s.responses → rspCode r = 1 →
    (∃ b, i = .update b) ∧ s.phase = .absorb ∧ s.len = some 0x1fffffffffffffff ∧ t.phase = .failed)

/-- In ABSORB with CNT < 64 FINALIZE completes: PS = MARK, PHASE = PAD, the response is 0x000, STATUS is 0x20, every
other cell and the inputs are as before, and if T holds a value PADMARK is the enabled micro-operation then. A
FINALIZE word with a non-zero argument is illegal. Derived from 40_commands.md R94; 41_padder.md R114. -/
def Obligations.FinalizeStartsPadding : Prop :=
  (∀ (s : State) (n : BitVec 7), s.phase = .absorb → s.cnt = some n → n.toNat < 64 →
    ∃ t, exec .finalize s = .next t ∧ t.toCells = { s.toCells with ps := some .mark, phase := .pad } ∧
      t.responses = 0x000 :: s.responses ∧ SameInputs s t ∧ t.status = 0x20 ∧
      (s.t.isSome → t.enabled = some .padmark)) ∧
  (∀ w : CmdWord, cmdOp w = 3 → cmdArg w ≠ 0 → ∃ e, decodeCmd w = .error e)

/-- In DONE with H holding the eight words hs, RDDIGEST j for j below 32 completes with the response OK and element j of
digest_bytes(hs) as its data; no cell and no input changes, so it can be repeated with the same answer; and, the
model's choice (log entry 12), exec of the ill-formed term with j of 32 or more, to which no word decodes, answers
ERR(ILLEGAL) in every ready state, as R79 says of the word. Derived from 40_commands.md R95; 46_digest_codec.md
R181, R184; 30_encoding.md R79; log entry 12 (ill-formed terms). -/
def Obligations.RddigestAnswersDigestByte : Prop :=
  (∀ (s : State) (j : Byte) (hs : Oct Word), s.phase = .done → s.h = hs.held → j.toNat < 32 →
    ∃ t d, exec (.rddigest j) s = .next t ∧ (digestBytes hs)[j.toNat]? = some d ∧ t.toCells = s.toCells ∧ SameInputs s t ∧
      t.responses = rspWord .ok d :: s.responses ∧
      ∃ u, exec (.rddigest j) t = .next u ∧ u.responses = rspWord .ok d :: t.responses) ∧
  (∀ (s : State) (j : Byte), s.ready = true → 32 ≤ j.toNat →
    ∃ t, exec (.rddigest j) s = .next t ∧ t.toCells = s.toCells ∧ t.responses = 0x300 :: s.responses ∧ SameInputs s t)

/-- In every ready state in which ABSORB has a LEN and DONE has a hash state, every word is accepted with exactly one
response, whose code is the table's: ILLEGAL for an illegal word; OK for INIT; for UPDATE SEQUENCE outside ABSORB,
LENGTH_OVERFLOW in ABSORB when LEN = 2^61 - 1, else OK; for FINALIZE OK in ABSORB, else SEQUENCE; for RDDIGEST OK in
DONE, else SEQUENCE. An answer SEQUENCE changes no cell and no input and carries the data 0x00. Read from R90 by
inference, and the model's (log entry 6): exec of a command in a core that is not ready answers the same state, so
nothing changes and nothing is answered. Derived from 40_commands.md R101, R90; 60_exceptions.md R192; log entry 6
(a command of a busy core). -/
def Obligations.LegalityByPhase : Prop :=
  (∀ (s : State) (w : CmdWord), s.ready = true → (s.phase = .absorb → s.len.isSome) → (s.phase = .done → AllHeld s.h) →
    ∃ t r, acceptWord w s = .next t ∧ t.responses = r :: s.responses ∧
      (∀ e, decodeCmd w = .error e → r = 0x300) ∧
      (decodeCmd w = .ok .init → r = 0x000) ∧
      (∀ b, decodeCmd w = .ok (.update b) →
        (s.phase ≠ .absorb → r = 0x200) ∧
        (s.phase = .absorb → s.len = some 0x1fffffffffffffff → r = 0x100) ∧
        (s.phase = .absorb → s.len ≠ some 0x1fffffffffffffff → r = 0x000)) ∧
      (decodeCmd w = .ok .finalize → (s.phase = .absorb → r = 0x000) ∧ (s.phase ≠ .absorb → r = 0x200)) ∧
      (∀ j, decodeCmd w = .ok (.rddigest j) → (s.phase = .done → rspCode r = 0) ∧ (s.phase ≠ .done → r = 0x200)) ∧
      (rspCode r = 2 → r = 0x200 ∧ t.toCells = s.toCells ∧ SameInputs s t ∧ t.status = s.status)) ∧
  (∀ (i : Instr) (s : State), i.isCommand = true → s.ready = false → exec i s = .next s)

/-- The response word has its code in bits 9:8 and its data in bits 7:0, with the codes 0 OK, 1 LENGTH_OVERFLOW, 2
SEQUENCE, 3 ILLEGAL and the rule's examples. Whenever a ready core accepts a word and goes on, exactly one response
is added, and its data is 0x00 unless the word is an RDDIGEST answered OK, whose data is the digest byte. States
R81. -/
def Obligations.EveryAnswerIsOneResponseWord : Prop :=
  (∀ (c : RspCode) (d : Byte), (rspWord c d).toNat = c.bits.toNat * 2 ^ 8 + d.toNat ∧
    rspCode (rspWord c d) = c.bits ∧ rspData (rspWord c d) = d) ∧
  RspCode.ok.bits = 0 ∧ RspCode.lengthOverflow.bits = 1 ∧ RspCode.sequence.bits = 2 ∧ RspCode.illegal.bits = 3 ∧
  rspWord .ok 0 = 0x000 ∧ rspWord .ok 0xba = 0x0ba ∧ rspWord .lengthOverflow 0 = 0x100 ∧
  rspWord .sequence 0 = 0x200 ∧ rspWord .illegal 0 = 0x300 ∧
  (∀ (s t : State) (w : CmdWord), s.ready = true → acceptWord w s = .next t →
    ∃ r, t.responses = r :: s.responses ∧
      (∀ j, decodeCmd w = .ok (.rddigest j) → rspCode r = 0 →
        s.phase = .done ∧ digestCell s.h (j.setWidth 5) = some (rspData r)) ∧
      ((∀ j, decodeCmd w ≠ .ok (.rddigest j)) ∨ rspCode r ≠ 0 → rspData r = 0))

/-- When a command goes on to a next state: the inputs are as before; V, W, T and H change only by INIT; LEN only by
INIT and UPDATE; PS only by INIT and FINALIZE; CNT only by INIT and UPDATE; RDDIGEST changes no cell; and every
place of BUF reads as before, except that UPDATE stores its byte at BUF[CNT] when it answers OK and INIT empties
BUF. A command of a core that is not ready changes nothing at all and is not answered (DEDUCED from R90, log entry
6). Derived from 40_commands.md R90, R92 to R95; 20_memory.md R55; 60_exceptions.md R197, R199; log entry 6 (a
command of a busy core). -/
def Obligations.CommandsLeaveTheRestAlone : Prop :=
  (∀ (i : Instr) (s t : State), i.isCommand = true → exec i s = .next t →
    SameInputs s t ∧ (s.ready = false → t = s) ∧
    (i ≠ .init → t.v = s.v ∧ t.w = s.w ∧ t.t = s.t ∧ t.h = s.h) ∧
    (i ≠ .init → i ≠ .finalize → t.ps = s.ps) ∧
    (i ≠ .init → (∀ b, i ≠ .update b) → t.len = s.len ∧ t.cnt = s.cnt ∧ ReadsSame s.buf t.buf) ∧
    (∀ j, i = .rddigest j → t.toCells = s.toCells)) ∧
  (∀ (b : Byte) (s t : State), exec (.update b) s = .next t →
    (∀ a, (∀ n, s.cnt = some n → a ≠ n.toNat) → Store.read t.buf a = Store.read s.buf a) ∧
    (∀ n, s.cnt = some n → s.ready = true → t.responses = 0x000 :: s.responses → Store.read t.buf n.toNat = some b) ∧
    (t.responses ≠ 0x000 :: s.responses → ReadsSame s.buf t.buf))

/-- In PAD with PS = MARK, CNT = n < 64 and a value in T, PADMARK is enabled and completes: BUF[n] = 0x80 and every
other place reads as before, CNT is one more, PS = ZERO, every other cell, the inputs and the responses are as
before. When n was 63 BLKGO is enabled next. After FINALIZE in ABSORB with CNT < 64 and a value in T, PADMARK is the
enabled micro-operation. States R114. -/
def Obligations.PadmarkWritesMark : Prop :=
  (∀ (s : State) (n : BitVec 7) (tt : BitVec 6),
    s.phase = .pad → s.ps = some .mark → s.cnt = some n → n.toNat < 64 → s.t = some tt →
    s.enabled = some .padmark ∧ ∃ t, exec .padmark s = .next t ∧
      Store.read t.buf n.toNat = some 0x80 ∧ ReadsSameBut s.buf t.buf n.toNat ∧
      (∃ n', t.cnt = some n' ∧ n'.toNat = n.toNat + 1) ∧ t.ps = some .zero ∧
      t.phase = .pad ∧ t.t = s.t ∧ t.len = s.len ∧ t.h = s.h ∧ t.v = s.v ∧ t.w = s.w ∧
      t.responses = s.responses ∧ SameInputs s t ∧ (n.toNat = 63 → t.enabled = some .blkgoPad)) ∧
  (∀ (s t : State) (n : BitVec 7) (tt : BitVec 6), s.phase = .absorb → s.cnt = some n → n.toNat < 64 → s.t = some tt →
    exec .finalize s = .next t → t.enabled = some .padmark)

/-- In PAD with PS = ZERO, CNT = n < 64, n not 56, and a value in T, PADZERO is enabled and completes: BUF[n] = 0 and
every other place reads as before, CNT is one more, every other cell, the inputs and the responses are as before.
Next, PADLEN is enabled if n was 55, BLKGO if n was 63, and PADZERO again otherwise. Derived from 41_padder.md R115. -/
def Obligations.PadzeroWritesZero : Prop :=
  ∀ (s : State) (n : BitVec 7) (tt : BitVec 6),
    s.phase = .pad → s.ps = some .zero → s.cnt = some n → n.toNat < 64 → n ≠ 56 → s.t = some tt →
    s.enabled = some .padzero ∧ ∃ t, exec .padzero s = .next t ∧
      Store.read t.buf n.toNat = some 0 ∧ ReadsSameBut s.buf t.buf n.toNat ∧
      (∃ n', t.cnt = some n' ∧ n'.toNat = n.toNat + 1) ∧ t.ps = some .zero ∧
      t.phase = .pad ∧ t.t = s.t ∧ t.len = s.len ∧ t.h = s.h ∧ t.v = s.v ∧ t.w = s.w ∧
      t.responses = s.responses ∧ SameInputs s t ∧
      t.enabled = some (if n.toNat = 55 then .padlenFirst else if n.toNat = 63 then .blkgoPad else .padzero)

/-- In PAD with a value l in LEN and one in T: with PS = ZERO and CNT = 56 the first row of PADLEN, and with PS = LEN
and CNT = n < 64 the second, is enabled and completes: BUF[n] is written and every other place reads as before, CNT
is one more, PS = LEN, every other cell, the inputs and the responses are as before. For n >= 56 the byte written is
byte n - 56 of the 64-bit big-endian encoding of l * 8, which does not overflow. (For n < 56, which no reachable
state has, nothing is said of the byte: log entry 9.) At n = 63 BLKGO is enabled next. Derived from 41_padder.md
R116; 30_encoding.md R72. -/
def Obligations.PadlenWritesLengthByte : Prop :=
  ∀ (s : State) (n : BitVec 7) (l : BitVec 61) (tt : BitVec 6) (i : Instr),
    s.phase = .pad → s.cnt = some n → s.len = some l → s.t = some tt →
    (i = .padlenFirst ∧ s.ps = some .zero ∧ n = 56 ∨ i = .padlenNext ∧ s.ps = some .len ∧ n.toNat < 64) →
    s.enabled = some i ∧ ∃ t b, exec i s = .next t ∧
      Store.read t.buf n.toNat = some b ∧ ReadsSameBut s.buf t.buf n.toNat ∧
      (56 ≤ n.toNat → b.toNat = l.toNat * 8 / 2 ^ (56 - 8 * (n.toNat - 56)) % 2 ^ 8) ∧ l.toNat * 8 < 2 ^ 64 ∧
      (∃ n', t.cnt = some n' ∧ n'.toNat = n.toNat + 1) ∧ t.ps = some .len ∧
      t.phase = .pad ∧ t.t = s.t ∧ t.len = s.len ∧ t.h = s.h ∧ t.v = s.v ∧ t.w = s.w ∧
      t.responses = s.responses ∧ SameInputs s t ∧ (n.toNat = 63 → t.enabled = some .blkgoPad)

/-- With CNT = 64 and a value in T: in ABSORB with a value in PS the first row, and in PAD with PS not NONE the second
row, is enabled and completes: PHASE = SCHED, T = 0, and every other cell, the inputs and the responses are as
before; WLOAD is enabled next. States R123. -/
def Obligations.BlkgoStartsTheSchedule : Prop :=
  ∀ (s : State) (p : PadStage) (tt : BitVec 6) (i : Instr), s.cnt = some 64 → s.ps = some p → s.t = some tt →
    (i = .blkgoAbsorb ∧ s.phase = .absorb ∨ i = .blkgoPad ∧ s.phase = .pad ∧ p ≠ .none) →
    s.enabled = some i ∧
      ∃ t, exec i s = .next t ∧ t = { s with phase := .sched, t := some 0 } ∧ t.enabled = some .wload

/-- In SCHED with T = k < 16, values in PS and CNT and values b0 to b3 in BUF[4k..4k+3], WLOAD is enabled and completes:
W[k] = be32(b0, b1, b2, b3) and every other W reads as before, T = k + 1, every other cell (BUF and PHASE among
them), the inputs and the responses are as before. At k = 15 WEXP is enabled next. States R132. -/
def Obligations.WloadCopiesBlockWord : Prop :=
  ∀ (s : State) (k : BitVec 6) (n : BitVec 7) (p : PadStage) (b0 b1 b2 b3 : Byte),
    s.phase = .sched → s.t = some k → k.toNat < 16 → s.cnt = some n → s.ps = some p →
    Store.read s.buf (4 * k.toNat) = some b0 → Store.read s.buf (4 * k.toNat + 1) = some b1 →
    Store.read s.buf (4 * k.toNat + 2) = some b2 → Store.read s.buf (4 * k.toNat + 3) = some b3 →
    s.enabled = some .wload ∧ ∃ t, exec .wload s = .next t ∧
      Store.read t.w k.toNat = some (be32 b0 b1 b2 b3) ∧ ReadsSameBut s.w t.w k.toNat ∧
      (∃ k', t.t = some k' ∧ k'.toNat = k.toNat + 1) ∧ t.phase = .sched ∧
      t.buf = s.buf ∧ t.cnt = s.cnt ∧ t.len = s.len ∧ t.ps = s.ps ∧ t.h = s.h ∧ t.v = s.v ∧
      t.responses = s.responses ∧ SameInputs s t ∧ (k.toNat = 15 → t.enabled = some .wexp)

/-- In SCHED with T = k >= 16, values in PS and CNT and values in W[k-16], W[k-15], W[k-7], W[k-2], WEXP is enabled and
completes: W[k] is the sum modulo 2^32 of W[k-16], ssig0(W[k-15]), W[k-7] and ssig1(W[k-2]), every other W reads as
before; below 63 T = k + 1 and PHASE stays, at 63 T = 0 and PHASE = VINIT; every other cell, the inputs and the
responses are as before. States R133. -/
def Obligations.WexpDerivesScheduleWord : Prop :=
  ∀ (s : State) (k : BitVec 6) (n : BitVec 7) (p : PadStage) (w16 w15 w7 w2 : Word),
    s.phase = .sched → s.t = some k → 16 ≤ k.toNat → s.cnt = some n → s.ps = some p →
    Store.read s.w (k.toNat - 16) = some w16 → Store.read s.w (k.toNat - 15) = some w15 →
    Store.read s.w (k.toNat - 7) = some w7 → Store.read s.w (k.toNat - 2) = some w2 →
    s.enabled = some .wexp ∧ ∃ t x, exec .wexp s = .next t ∧ Store.read t.w k.toNat = some x ∧
      x.toNat = (w16.toNat + (ssig0 w15).toNat + w7.toNat + (ssig1 w2).toNat) % 2 ^ 32 ∧
      ReadsSameBut s.w t.w k.toNat ∧
      (k.toNat < 63 → (∃ k', t.t = some k' ∧ k'.toNat = k.toNat + 1) ∧ t.phase = .sched) ∧
      (k.toNat = 63 → t.t = some 0 ∧ t.phase = .vinit) ∧
      t.buf = s.buf ∧ t.cnt = s.cnt ∧ t.len = s.len ∧ t.ps = s.ps ∧ t.h = s.h ∧ t.v = s.v ∧
      t.responses = s.responses ∧ SameInputs s t

/-- In VINIT with values hs in H and values in PS, CNT and T, VLOAD is enabled and completes: V[k] = H[k] for all eight
k, T = 0, PHASE = ROUND; H and every other cell, the inputs and the responses are as before; ROUND is enabled next.
States R149. -/
def Obligations.VloadCopiesHashState : Prop :=
  ∀ (s : State) (hs : Oct Word) (n : BitVec 7) (p : PadStage) (tt : BitVec 6),
    s.phase = .vinit → s.h = hs.held → s.cnt = some n → s.ps = some p → s.t = some tt →
    s.enabled = some .vload ∧ ∃ t, exec .vload s = .next t ∧ (∀ k : Fin 8, t.v.get k = some (hs.get k)) ∧
      t = { s with v := t.v, t := some 0, phase := .round } ∧ t.enabled = some .round

/-- In ROUND with T = k, values vs in V, a value x in W[k] and values in PS and CNT, ROUND is enabled and completes: all
eight V are round(vs, K[k], x) with K[k] entry k of the 64-entry table, whose values are named line by line (t, K[t]
to K[t+3]) as R31 lists them (which the spec marks as general knowledge: log entry 15); below 63 T = k + 1 and PHASE
stays, at 63 T = 0 and PHASE = FOLD; W, H and every other cell, the inputs and the responses are as before. Derived
from 44_compressor.md R150; 10_state.md R31; log entry 15 (the values of K). -/
def Obligations.RoundUpdatesWorkingRegisters : Prop :=
  roundConstants.length = 64 ∧
  (∀ e ∈ ([
      (0, 0x428a2f98, 0x71374491, 0xb5c0fbcf, 0xe9b5dba5),
      (4, 0x3956c25b, 0x59f111f1, 0x923f82a4, 0xab1c5ed5),
      (8, 0xd807aa98, 0x12835b01, 0x243185be, 0x550c7dc3),
      (12, 0x72be5d74, 0x80deb1fe, 0x9bdc06a7, 0xc19bf174),
      (16, 0xe49b69c1, 0xefbe4786, 0x0fc19dc6, 0x240ca1cc),
      (20, 0x2de92c6f, 0x4a7484aa, 0x5cb0a9dc, 0x76f988da),
      (24, 0x983e5152, 0xa831c66d, 0xb00327c8, 0xbf597fc7),
      (28, 0xc6e00bf3, 0xd5a79147, 0x06ca6351, 0x14292967),
      (32, 0x27b70a85, 0x2e1b2138, 0x4d2c6dfc, 0x53380d13),
      (36, 0x650a7354, 0x766a0abb, 0x81c2c92e, 0x92722c85),
      (40, 0xa2bfe8a1, 0xa81a664b, 0xc24b8b70, 0xc76c51a3),
      (44, 0xd192e819, 0xd6990624, 0xf40e3585, 0x106aa070),
      (48, 0x19a4c116, 0x1e376c08, 0x2748774c, 0x34b0bcb5),
      (52, 0x391c0cb3, 0x4ed8aa4a, 0x5b9cca4f, 0x682e6ff3),
      (56, 0x748f82ee, 0x78a5636f, 0x84c87814, 0x8cc70208),
      (60, 0x90befffa, 0xa4506ceb, 0xbef9a3f7, 0xc67178f2)] :
        List (Nat × Word × Word × Word × Word)),
    roundConstants[e.1]? = some e.2.1 ∧ roundConstants[e.1 + 1]? = some e.2.2.1 ∧
    roundConstants[e.1 + 2]? = some e.2.2.2.1 ∧ roundConstants[e.1 + 3]? = some e.2.2.2.2) ∧
  ∀ (s : State) (k : BitVec 6) (vs : Oct Word) (x : Word) (n : BitVec 7) (p : PadStage),
    s.phase = .round → s.t = some k → s.v = vs.held → Store.read s.w k.toNat = some x → s.cnt = some n → s.ps = some p →
    s.enabled = some .round ∧ ∃ t kt, exec .round s = .next t ∧ roundConstants[k.toNat]? = some kt ∧
      t.v = (round vs kt x).held ∧
      (k.toNat < 63 → (∃ k', t.t = some k' ∧ k'.toNat = k.toNat + 1) ∧ t.phase = .round) ∧
      (k.toNat = 63 → t.t = some 0 ∧ t.phase = .fold) ∧
      t.w = s.w ∧ t.h = s.h ∧ t.buf = s.buf ∧ t.cnt = s.cnt ∧ t.len = s.len ∧ t.ps = s.ps ∧
      t.responses = s.responses ∧ SameInputs s t

/-- In FOLD with values hs in H and vs in V and values in CNT and T, with PS = NONE, ZERO or LEN, FOLD is enabled and
completes: H[k] is hs[k] + vs[k] modulo 2^32 for all eight k; every V, W and BUF holds no value; CNT = T = 0; PHASE
= ABSORB, PAD or DONE by PS; PS, LEN, the inputs and the responses are as before. With PS = MARK, of which R151 says
only that it cannot occur, FOLD stops as stuck: read from I15 by inference, and the model's (log entry 8). Derived
from 44_compressor.md R151; 10_state.md R37; 93_implementation_defined.md I15; log entry 8 (states without a step). -/
def Obligations.FoldAddsAndEndsTheBlock : Prop :=
  (∀ (s : State) (hs vs : Oct Word) (n : BitVec 7) (p : PadStage) (tt : BitVec 6),
    s.phase = .fold → s.h = hs.held → s.v = vs.held → s.cnt = some n → s.ps = some p → s.t = some tt → p ≠ .mark →
    s.enabled = some .fold ∧ ∃ (t : State) (hs' : Oct Word), exec .fold s = .next t ∧ t.h = hs'.held ∧
      (∀ k : Fin 8, (hs'.get k).toNat = ((hs.get k).toNat + (vs.get k).toNat) % 2 ^ 32) ∧
      t.v = Oct.noValue ∧ (∀ i, Store.read t.w i = none) ∧ (∀ i, Store.read t.buf i = none) ∧
      t.cnt = some 0 ∧ t.t = some 0 ∧
      (p = .none → t.phase = .absorb) ∧ (p = .zero → t.phase = .pad) ∧ (p = .len → t.phase = .done) ∧
      t.ps = s.ps ∧ t.len = s.len ∧ t.responses = s.responses ∧ SameInputs s t) ∧
  (∀ (s : State) (hs vs : Oct Word), s.enabled = some .fold → s.h = hs.held → s.v = vs.held → s.ps = some .mark →
    exec .fold s = .fault .stuck)

/-- When exec of a micro-operation goes on to a next state, it was the enabled one (DEDUCED from R82, log entry 7), and:
the responses, the inputs and LEN are as before; H changes only by FOLD; V only by VLOAD, ROUND and FOLD; W only by
WLOAD and WEXP, each at W[T] only, and FOLD; BUF only by the padding micro-operations, each at BUF[CNT] only, and
FOLD; CNT and BUF only together; PS only by PADMARK and PADLEN; T only by BLKGO, WLOAD, WEXP, VLOAD, ROUND and FOLD;
PHASE only by BLKGO, WEXP, VLOAD, ROUND and FOLD. Derived from 20_memory.md R50, R55; 10_state.md R21 to R29;
60_exceptions.md R190; 45_engine.md R162; 30_encoding.md R82; log entry 7 (a micro-operation that is not selected). -/
def Obligations.MicroOpsLeaveTheRestAlone : Prop :=
  ∀ (i : Instr) (s t : State), i.isCommand = false → exec i s = .next t →
    s.enabled = some i ∧ t.responses = s.responses ∧ SameInputs s t ∧ t.len = s.len ∧
    (i ≠ .fold → t.h = s.h) ∧
    (i ≠ .vload → i ≠ .round → i ≠ .fold → t.v = s.v) ∧
    (i ≠ .wload → i ≠ .wexp → i ≠ .fold → t.w = s.w) ∧
    (i = .wload ∨ i = .wexp → ∀ k, s.t = some k → ReadsSameBut s.w t.w k.toNat) ∧
    (i = .padmark ∨ i = .padzero ∨ i = .padlenFirst ∨ i = .padlenNext →
      ∀ n, s.cnt = some n → ReadsSameBut s.buf t.buf n.toNat) ∧
    (i ≠ .padmark → i ≠ .padzero → i ≠ .padlenFirst → i ≠ .padlenNext → i ≠ .fold →
      t.buf = s.buf ∧ t.cnt = s.cnt) ∧
    (i ≠ .padmark → i ≠ .padlenFirst → i ≠ .padlenNext → t.ps = s.ps) ∧
    (i = .padmark ∨ i = .padzero ∨ i = .padlenFirst ∨ i = .padlenNext → t.t = s.t) ∧
    (i = .padmark ∨ i = .padzero ∨ i = .padlenFirst ∨ i = .padlenNext ∨ i = .wload → t.phase = s.phase)

/-- Where reset is not asserted: if i is enabled, the sequencer vector decodes to i and the step is exec of i at the
state with one step passed at the inputs. If none is enabled and the core is ready, every presented word w is taken
from the port and evaluated there: the step stops where the evaluation stops, and goes on where it goes on, the host
then resuming its expansion; for a word that decodes to i the evaluation is exec of i; for an illegal word the step
goes on, answers 0x300, changes no cell and drops the rest of the expansion. A silent host, or none, leaves every
cell and response as it is. The model's choices in this: that the host goes on in the step of the response (log
entry 5), and that a silent ready core takes a step at all (log entry 10), where R163 says that it stays as it is.
Derived from 45_engine.md R163; 40_commands.md R90, R91; 30_encoding.md R82, R79; 60_exceptions.md R193; log entry 5
(the host after a response); log entry 10 (a silent ready core). -/
def Obligations.StepRunsTheDecodedInstruction : Prop :=
  (∀ (s : State) (i : Instr), s.resetAsserted = false → s.enabled = some i →
    step s = exec i s.elapse ∧ s.elapse.toCells = s.toCells ∧ s.elapse.responses = s.responses ∧
      ∃ v, s.seqVec = some v ∧ decodeSV v = .ok i) ∧
  (∀ (s p : State) (w : CmdWord) (rest : List CmdWord) (ms : List HostMove),
    s.resetAsserted = false → s.enabled = none → s.ready = true → s.host = .issue w rest :: ms →
    p = { s with host := ms, resetPin := s.resetPin.tail } →
    (∀ t, acceptWord w p = .next t → step s = .next (t.resumeExpansion rest)) ∧
    (∀ f, acceptWord w p = .fault f → step s = .fault f) ∧ (∀ r, acceptWord w p = .refused r → step s = .refused r) ∧
    (∀ i, decodeCmd w = .ok i → acceptWord w p = exec i p) ∧
    (∀ e, decodeCmd w = .error e →
      ∃ t, step s = .next t ∧ t.toCells = s.toCells ∧ t.responses = 0x300 :: s.responses ∧ t.host = ms)) ∧
  (∀ s : State, s.resetAsserted = false → s.enabled = none → s.ready = true →
    (s.host = [] ∨ ∃ ms, s.host = .silent :: ms) →
    ∃ t, step s = .next t ∧ t.toCells = s.toCells ∧ t.responses = s.responses ∧ t.host = s.host.tail)

/-- In every state in which a micro-operation is enabled and reset is not asserted, a command word presented by the host
is still presented, with the rest of its expansion, after the step, no response is given, and the cells after the
step are those of the same step without the presented command. Derived from 40_commands.md R90; 20_memory.md R58;
93_implementation_defined.md I19. -/
def Obligations.WaitingCommandIsKept : Prop :=
  ∀ (s t : State) (w : CmdWord) (rest : List CmdWord) (ms : List HostMove) (i : Instr),
    s.enabled = some i → s.resetAsserted = false → s.host = .issue w rest :: ms → step s = .next t →
    t.host = s.host ∧ t.responses = s.responses ∧
    ∃ u, step { s with host := [] } = .next u ∧ u.toCells = t.toCells

/-- For every step without reset that goes on: the phase stays (and was neither VINIT nor FOLD), or it changes by a row
of the table: to ABSORB by an accepted INIT word; ABSORB to FAILED by an UPDATE word with LEN = 2^61 - 1; ABSORB to
PAD by FINALIZE; ABSORB or PAD to SCHED with CNT = 64; SCHED to VINIT with T = 63; VINIT to ROUND; ROUND to FOLD
with T = 63; FOLD to ABSORB, PAD or DONE with PS = NONE, ZERO or LEN. (The table's column of other cells written is
stated instruction by instruction.) Derived from 45_engine.md section 2, R162. -/
def Obligations.PhaseChangesOnlyAsTabled : Prop :=
  ∀ s t : State, s.resetAsserted = false → step s = .next t →
    (t.phase = s.phase ∧ s.phase ≠ .vinit ∧ s.phase ≠ .fold) ∨
    (s.ready = true ∧ t.phase = .absorb ∧ ∃ rest ms, s.host = .issue 0x100 rest :: ms) ∨
    (s.phase = .absorb ∧ t.phase = .failed ∧ s.len = some 0x1fffffffffffffff ∧
      ∃ w b rest ms, s.host = .issue w rest :: ms ∧ decodeCmd w = .ok (.update b)) ∨
    (s.phase = .absorb ∧ t.phase = .pad ∧ s.ready = true ∧ ∃ rest ms, s.host = .issue 0x300 rest :: ms) ∨
    ((s.phase = .absorb ∨ s.phase = .pad) ∧ t.phase = .sched ∧ s.cnt = some 64) ∨
    (s.phase = .sched ∧ t.phase = .vinit ∧ s.t = some 63) ∨
    (s.phase = .vinit ∧ t.phase = .round) ∨
    (s.phase = .round ∧ t.phase = .fold ∧ s.t = some 63) ∨
    (s.phase = .fold ∧ t.phase = .absorb ∧ s.ps = some .none) ∨
    (s.phase = .fold ∧ t.phase = .pad ∧ s.ps = some .zero) ∨
    (s.phase = .fold ∧ t.phase = .done ∧ s.ps = some .len)

/-- In FAILED: INIT opens a new message and answers OK; every other word is answered, UPDATE, FINALIZE and RDDIGEST with
ERR(SEQUENCE) and illegal words with ERR(ILLEGAL), and no cell changes; so a step that leaves FAILED has reset
asserted or accepts the word 0x100. The abandoned message cannot be continued. Derived from 60_exceptions.md R198,
R197; 40_commands.md R101. -/
def Obligations.FailedIsLeftOnlyByInitOrReset : Prop :=
  (∀ (s : State) (w : CmdWord), s.phase = .failed →
    (w = 0x100 → ∃ t, acceptWord w s = .next t ∧ t.phase = .absorb ∧ t.len = some 0 ∧ t.cnt = some 0 ∧
      t.h = initialHash.held ∧ t.responses = 0x000 :: s.responses) ∧
    (w ≠ 0x100 → ∃ t r, acceptWord w s = .next t ∧ t.toCells = s.toCells ∧ t.responses = r :: s.responses ∧
      ((∃ i, decodeCmd w = .ok i) → r = 0x200) ∧ ((∃ e, decodeCmd w = .error e) → r = 0x300))) ∧
  (∀ s t : State, s.phase = .failed → step s = .next t → t.toCells ≠ s.toCells →
    s.resetAsserted = true ∨ ∃ rest ms, s.host = .issue 0x100 rest :: ms)

/-- In DONE, a step that goes on leaves every cell as it is, H and PHASE among them, unless reset is asserted or the
accepted word is INIT. Intermediate hash states are never answered: in every state a response with a non-zero data
byte is given only in DONE. Derived from 46_digest_codec.md R184; 10_state.md R34; 40_commands.md R95. -/
def Obligations.DigestStaysUntilInitOrReset : Prop :=
  (∀ s t : State, s.phase = .done → step s = .next t → s.resetAsserted = false →
    (∀ rest ms, s.host ≠ .issue 0x100 rest :: ms) → t.toCells = s.toCells) ∧
  (∀ (s t : State) (r : RspWord), step s = .next t → t.responses = r :: s.responses → rspData r ≠ 0 →
    s.phase = .done ∧ t.toCells = s.toCells)

/-- In a ready state without reset, an accepted word of an expansion that is answered OK is followed by the next word of
the same expansion, or by the host's next move if it was the last; if it is answered with an error the rest of the
expansion is dropped and the host's next move follows. That this happens in the very step of the response is the
model's choice (log entry 5): the rules do not say in which step. An expansion whose answers were OK up to an error
reports that error; one whose n answers were all OK reports their data bytes in order. DIGEST presented to a ready
core that is not in DONE is stopped by its first word: 0x200 is answered, no cell changes, the rest is dropped, and
DIGEST, HEX and an UPDATES so answered report that error and no data. Derived from 40_commands.md R97, R98, R99;
60_exceptions.md R200; log entry 5 (the host after a response). -/
def Obligations.ExpansionStopsAtFirstError : Prop :=
  (∀ (s t : State) (w : CmdWord) (rest : List CmdWord) (ms : List HostMove),
    s.resetAsserted = false → s.ready = true → s.host = .issue w rest :: ms → step s = .next t →
    ∃ r, t.responses = r :: s.responses ∧
      (rspCode r ≠ 0 → t.host = ms) ∧
      (rspCode r = 0 → t.host = (match rest with | [] => ms | w' :: ws => .issue w' ws :: ms))) ∧
  (∀ (n : Nat) (given : List RspWord) (r : RspWord), (∀ x ∈ given, rspCode x = 0) → rspCode r ≠ 0 →
    expansionReport n (r :: given) = .stopped r) ∧
  (∀ given : List RspWord, (∀ x ∈ given, rspCode x = 0) →
    expansionReport given.length given = .result (given.reverse.map rspData)) ∧
  (∀ (s : State) (ms : List HostMove), s.resetAsserted = false → s.ready = true → s.phase ≠ .done →
    ScriptLine.digest.moves = .ok [.issue 0x400 digestWords.tail] ∧
    (s.host = ScriptLine.digest.issued ++ ms →
      ∃ t, step s = .next t ∧ t.host = ms ∧ t.toCells = s.toCells ∧ answersSince s t = [0x200] ∧
        digestResult (answersSince s t) = .stopped 0x200 ∧ hexResult (answersSince s t) = .stopped 0x200 ∧
        ∀ m, updatesResult m (answersSince s t) = .stopped 0x200))

/-- The state after reset meets the invariants (of R37, with log entry 20's clause), whatever the host's moves and the
reset input will be. Derived from 10_state.md section 9, R37; 70_reset_and_hazards.md R212. -/
def Obligations.InvariantHoldsAtReset : Prop :=
  ∀ (host : List HostMove) (pin : List Bool),
    Inv ({ State.reset with host := host, resetPin := pin } : State).toCells

/-- For every state that meets the invariants of the rule (with the one clause that the model adds, log entry 20) and
every input: if the step goes on, the next state meets them too. (What the rule says of the value of H in DONE is
stated by the equivalence statements.) Derived from 10_state.md section 9, R37. -/
def Obligations.InvariantIsKeptByEveryStep : Prop :=
  ∀ s t : State, Inv s.toCells → step s = .next t → Inv t.toCells

/-- In every state that meets the invariants the step answers a next state, whatever the inputs; so every state reached
from reset with any inputs meets the invariants and steps safely. The invariants have a clause that R37 does not
list (log entry 20); and that a ready core to which no word is presented takes a step, one that changes no cell, is
the model's choice (log entry 10), where R163 says that it takes no step by itself. Derived from 10_state.md R38;
45_engine.md R163; 60_exceptions.md R190; log entry 10 (a silent ready core); log entry 20 (the added clause). -/
def Obligations.InvariantStatesNeverFault : Prop :=
  (∀ s : State, Inv s.toCells → SafeStep s) ∧ (∀ s : State, Reachable s → Inv s.toCells ∧ SafeStep s)

/-- In every state, reachable or not: if BUF and W are in canonical form (indices strictly rising, each below 64) and
the step goes on, they are in canonical form after it; so no step ever writes outside the 64 places of either space.
Derived from 20_memory.md R50, R54, R56; 10_state.md R25, R29. -/
def Obligations.StorageStaysCanonical : Prop :=
  ∀ s t : State, Memory.wf s.buf = true → Store.wf 64 s.w = true → step s = .next t →
    Memory.wf t.buf = true ∧ Store.wf 64 t.w = true

/-- In states no run reaches: an enabled WLOAD with one of its four bytes missing, an enabled WEXP with one of its four
words missing, an enabled VLOAD with a word of H missing, an enabled ROUND with a word of V or W[T] missing, an
enabled FOLD with a word of H or V missing, an enabled PADLEN without LEN, an UPDATE in a ready ABSORB without LEN,
and an RDDIGEST in DONE of a word of H that is missing, each stop with the fault that names a cell that holds no
value, never with a next state. Derived from 00_scope.md R17; 10_state.md R38; 93_implementation_defined.md I13. -/
def Obligations.ReadOfNoValueFaults : Prop :=
  (∀ (s : State) (k : BitVec 6) (j : Nat), s.enabled = some .wload → s.t = some k → j < 4 →
    Store.read s.buf (4 * k.toNat + j) = none → exec .wload s = .fault (.readNoValue .buf)) ∧
  (∀ (s : State) (k : BitVec 6) (j : Nat), s.enabled = some .wexp → s.t = some k → j ∈ [16, 15, 7, 2] →
    Store.read s.w (k.toNat - j) = none → exec .wexp s = .fault (.readNoValue .w)) ∧
  (∀ (s : State) (k : Fin 8), s.h.get k = none →
    (s.enabled = some .vload → exec .vload s = .fault (.readNoValue .h)) ∧
    (s.enabled = some .fold → exec .fold s = .fault (.readNoValue .h))) ∧
  (∀ (s : State) (k : Fin 8), s.v.get k = none → s.enabled = some .round → exec .round s = .fault (.readNoValue .v)) ∧
  (∀ (s : State) (k : Fin 8), s.v.get k = none → s.enabled = some .fold → AllHeld s.h →
    exec .fold s = .fault (.readNoValue .v)) ∧
  (∀ (s : State) (k : BitVec 6), s.enabled = some .round → AllHeld s.v → s.t = some k → Store.read s.w k.toNat = none →
    exec .round s = .fault (.readNoValue .w)) ∧
  (∀ s : State, s.len = none →
    (s.enabled = some .padlenFirst → exec .padlenFirst s = .fault (.readNoValue .len)) ∧
    (s.enabled = some .padlenNext → exec .padlenNext s = .fault (.readNoValue .len)) ∧
    (∀ b, s.phase = .absorb → s.ready = true → exec (.update b) s = .fault (.readNoValue .len))) ∧
  (∀ (s : State) (j : Byte), s.phase = .done → j.toNat < 32 → s.h.toList[j.toNat / 4]? = some none →
    exec (.rddigest j) s = .fault (.readNoValue .h))

/-- From every state in which a BLKGO is enabled (PS not MARK), H holds hs, BUF holds 64 bytes and no reset comes: 131
steps go on, H is then compress(hs, schedule(BUF)), V, W and BUF hold no value, CNT = T = 0, PHASE is ABSORB, PAD or
DONE by PS, LEN, PS and the responses are as before, and a command presented at the start is still presented. (The
model takes an enabled micro-operation in every step, log entry 16; the rules count steps, not time.) Derived from
45_engine.md R164; 44_compressor.md R152; 43_scheduler.md R134; 42_block_splitter.md R123. -/
def Obligations.BlockIsCompressedInto131Steps : Prop :=
  ∀ (s : State) (hs : Oct Word) (p : PadStage),
    (s.enabled = some .blkgoAbsorb ∨ s.enabled = some .blkgoPad) → s.h = hs.held → s.ps = some p → p ≠ .mark →
    (∀ i < 64, (Store.read s.buf i).isSome = true) → NoReset s →
    ∃ t, run 131 s = .next t ∧ t.h = (compress hs (schedule (bufBlock s.buf))).held ∧
      phaseAfterFold p = some t.phase ∧ t.v = Oct.noValue ∧ (∀ i, Store.read t.w i = none ∧ Store.read t.buf i = none) ∧
      t.cnt = some 0 ∧ t.t = some 0 ∧ t.ps = s.ps ∧ t.len = s.len ∧ t.responses = s.responses ∧
      (∀ w rest ms, s.host = .issue w rest :: ms → t.host = s.host)

/-- From every state just after an accepted FINALIZE (PAD, PS = MARK, CNT = r = LEN mod 64, T = 0, H and the r bytes of
BUF held) with no reset to come: the core is in DONE after exactly 195 - r steps for r <= 55, 390 - r for 56 <= r <=
62, and 327 for r = 63, with no response given, LEN as before and PS = LEN, and it is not in DONE after any smaller
number of steps. Derived from 45_engine.md R165; 41_padder.md R111, R115. -/
def Obligations.FinalizationTakesTheStatedSteps : Prop :=
  ∀ (s : State) (r : BitVec 7) (l : BitVec 61),
    s.phase = .pad → s.ps = some .mark → s.cnt = some r → s.len = some l → r.toNat = l.toNat % 64 → s.t = some 0 →
    AllHeld s.h → Store.filledTo r.toNat s.buf → NoReset s →
    ∃ t k, k = (if r.toNat ≤ 55 then 64 - r.toNat + 131 else if r.toNat ≤ 62 then 128 - r.toNat + 262 else 65 + 262) ∧
      run k s = .next t ∧ t.phase = .done ∧ t.ps = some .len ∧ t.len = some l ∧ t.responses = s.responses ∧
      ∀ j < k, ∃ u, run j s = .next u ∧ u.phase ≠ .done

/-- From every state that meets the invariants (of R37, with log entry 20's clause) and is not ready, with no reset to
come, at most 334 steps lead to a ready state, and all of them go on. Derived from 45_engine.md R168; 40_commands.md
R90. -/
def Obligations.BusyCoreBecomesReady : Prop :=
  ∀ s : State, Inv s.toCells → s.ready = false → NoReset s →
    ∃ k t, k ≤ 334 ∧ run k s = .next t ∧ t.ready = true

/-- For every message m of at most 2^61 - 1 bytes and every ready state in which no reset comes and the host issues the
expansion of HASH m and nothing else: after some number of steps, all of which go on, the host has no more to do,
PHASE = DONE, H is the final hash state of sha256(m), every response given is OK, there are L + 34 of them, and what
HASH reports from these responses is the 32 bytes of sha256(m), as DIGEST does from the last 32. (Idle steps of a
silent core, log entry 10, do not occur: the host goes on in the step of each response, log entry 5.) Derived from
45_engine.md R166; 40_commands.md R96; 00_scope.md R4; log entry 5 (the host after a response). -/
def Obligations.HashComputesSha256 : Prop :=
  ∀ (m : List Byte) (s : State), m.length < 2 ^ 61 → s.ready = true → (∀ b ∈ s.resetPin, b = false) →
    (ScriptLine.hash m).moves = .ok s.host →
    ∃ k t new d hs, run k s = .next t ∧ t.host = [] ∧ t.phase = .done ∧ hashState m = .ok hs ∧ t.h = hs.held ∧
      t.responses = new ++ s.responses ∧ new.length = m.length + 34 ∧ (∀ r ∈ new, rspCode r = 0) ∧
      sha256 m = .ok d ∧ answersSince s t = new ∧ hashResult m new = .result d ∧ digestResult (new.take 32) = .result d

/-- For every list of chunks, empty ones among them, of together at most 2^61 - 1 bytes: from reset, with the host's
script INIT, UPDATES of each chunk in order, FINALIZE, DIGEST and no reset, after some number of steps, all of which
go on, the host has no more to do, PHASE = DONE, every answer was OK and DIGEST reports sha256 of the joined chunks.
Derived from 45_engine.md R166, R167; 40_commands.md R97, R98. -/
def Obligations.ChunkBoundariesDoNotMatter : Prop :=
  ∀ chunks : List (List Byte), chunks.flatten.length < 2 ^ 61 →
    ∃ k t d, run k { State.reset with
        host := scriptMoves ([.init] ++ chunks.map .updates ++ [.finalize, .digest]) } = .next t ∧
      t.host = [] ∧ t.phase = .done ∧ (∀ r ∈ t.responses, rspCode r = 0) ∧
      sha256 chunks.flatten = .ok d ∧ digestResult (t.responses.take 32) = .result d

/-- In a system of any number of cores: a step of core k is the step of the state at place k, whose next state stands at
place k after it and whose stop is the system's; where there is no core k nothing happens (the model's choice, log
entry 14); a step of core k leaves every other core, and the number of cores, as it is; and if a step of core j and
then one of core k (j not k) go on, the two steps in the other order go on as well and lead to the same system.
Derived from 20_memory.md R61; 60_exceptions.md R203; 00_scope.md R8; log entry 14 (no core beyond the list). -/
def Obligations.CoresAreIndependent : Prop :=
  (∀ (k : Nat) (a : System) (s : State), a.cores[k]? = some s →
    (∀ t, step s = .next t → ∃ b, a.stepCore k = .next b ∧ b.cores[k]? = some t) ∧
    (∀ f, step s = .fault f → a.stepCore k = .fault f) ∧ (∀ r, step s = .refused r → a.stepCore k = .refused r)) ∧
  (∀ (k : Nat) (a : System), a.cores[k]? = none → a.stepCore k = .next a) ∧
  (∀ (k : Nat) (a b : System), a.stepCore k = .next b →
    b.cores.length = a.cores.length ∧ ∀ j, j ≠ k → b.cores[j]? = a.cores[j]?) ∧
  (∀ (j k : Nat) (a b c : System), j ≠ k → a.stepCore j = .next b → b.stepCore k = .next c →
    ∃ b', a.stepCore k = .next b' ∧ b'.stepCore j = .next c)

/-- Two ready states that agree on PHASE, on whether LEN = 2^61 - 1, and in DONE on H, but may differ in every other
cell (BUF, W, V, CNT, PS, T, and H elsewhere), give the same response to every command word, if both go on. Derived
from 10_state.md R34; 40_commands.md R101. -/
def Obligations.ResponsesShowOnlyPhaseAndDigest : Prop :=
  ∀ (s s' t t' : State) (w : CmdWord), s.ready = true → s'.ready = true → s.phase = s'.phase →
    (s.len = some 0x1fffffffffffffff ↔ s'.len = some 0x1fffffffffffffff) → (s.phase = .done → s.h = s'.h) →
    acceptWord w s = .next t → acceptWord w s' = .next t' →
    ∃ r, t.responses = r :: s.responses ∧ t'.responses = r :: s'.responses
end

