-- ==== Sys2Proof/Laws/State.lean ====
section
/-! SUPPORT. One lemma per field per update of `State`: what each named update writes and what it leaves. An update that
changes no cell has one lemma for all nine cells (`toCells`). -/

namespace Sys2Proof.Machine

section answerData

@[simp] theorem State.answerData_toCells (d : Byte) (s : State) : (s.answerData d).toCells = s.toCells := rfl

@[simp] theorem State.answerData_host (d : Byte) (s : State) : (s.answerData d).host = s.host := rfl

@[simp] theorem State.answerData_resetPin (d : Byte) (s : State) : (s.answerData d).resetPin = s.resetPin := rfl

@[simp] theorem State.answerData_responses (d : Byte) (s : State) : (s.answerData d).responses = rspWord .ok d :: s.responses := rfl

end answerData

section answerOk

@[simp] theorem State.answerOk_toCells (s : State) : (s.answerOk).toCells = s.toCells := rfl

@[simp] theorem State.answerOk_host (s : State) : (s.answerOk).host = s.host := rfl

@[simp] theorem State.answerOk_resetPin (s : State) : (s.answerOk).resetPin = s.resetPin := rfl

@[simp] theorem State.answerOk_responses (s : State) : (s.answerOk).responses = rspWord .ok 0 :: s.responses := rfl

end answerOk

section answerError

@[simp] theorem State.answerError_toCells (c : RspCode) (s : State) : (s.answerError c).toCells = s.toCells := rfl

@[simp] theorem State.answerError_host (c : RspCode) (s : State) : (s.answerError c).host = s.host := rfl

@[simp] theorem State.answerError_resetPin (c : RspCode) (s : State) : (s.answerError c).resetPin = s.resetPin := rfl

@[simp] theorem State.answerError_responses (c : RspCode) (s : State) : (s.answerError c).responses = rspWord c 0 :: s.responses := rfl

end answerError

section resetCells

@[simp] theorem State.resetCells_toCells (s : State) : (s.resetCells).toCells = Cells.reset := rfl

@[simp] theorem State.resetCells_host (s : State) : (s.resetCells).host = s.host := rfl

@[simp] theorem State.resetCells_resetPin (s : State) : (s.resetCells).resetPin = s.resetPin := rfl

@[simp] theorem State.resetCells_responses (s : State) : (s.resetCells).responses = s.responses := rfl

end resetCells

section takeReset

@[simp] theorem State.takeReset_toCells (s : State) : (s.takeReset).toCells = Cells.reset := rfl

@[simp] theorem State.takeReset_host (s : State) : (s.takeReset).host = s.host.tail := rfl

@[simp] theorem State.takeReset_resetPin (s : State) : (s.takeReset).resetPin = s.resetPin.tail := rfl

@[simp] theorem State.takeReset_responses (s : State) : (s.takeReset).responses = s.responses := rfl

end takeReset

section elapse

@[simp] theorem State.elapse_toCells (s : State) : (s.elapse).toCells = s.toCells := rfl

@[simp] theorem State.elapse_resetPin (s : State) : (s.elapse).resetPin = s.resetPin.tail := rfl

@[simp] theorem State.elapse_responses (s : State) : (s.elapse).responses = s.responses := rfl

end elapse

section openMessage

@[simp] theorem State.openMessage_h (hs : Oct Word) (s : State) : (s.openMessage hs).h = hs.held := rfl

@[simp] theorem State.openMessage_v (hs : Oct Word) (s : State) : (s.openMessage hs).v = Oct.noValue := rfl

@[simp] theorem State.openMessage_w (hs : Oct Word) (s : State) : (s.openMessage hs).w = Store.invalid := rfl

@[simp] theorem State.openMessage_buf (hs : Oct Word) (s : State) : (s.openMessage hs).buf = Store.invalid := rfl

@[simp] theorem State.openMessage_cnt (hs : Oct Word) (s : State) : (s.openMessage hs).cnt = some 0 := rfl

@[simp] theorem State.openMessage_len (hs : Oct Word) (s : State) : (s.openMessage hs).len = some 0 := rfl

@[simp] theorem State.openMessage_phase (hs : Oct Word) (s : State) : (s.openMessage hs).phase = .absorb := rfl

@[simp] theorem State.openMessage_ps (hs : Oct Word) (s : State) : (s.openMessage hs).ps = some .none := rfl

@[simp] theorem State.openMessage_t (hs : Oct Word) (s : State) : (s.openMessage hs).t = some 0 := rfl

@[simp] theorem State.openMessage_host (hs : Oct Word) (s : State) : (s.openMessage hs).host = s.host := rfl

@[simp] theorem State.openMessage_resetPin (hs : Oct Word) (s : State) : (s.openMessage hs).resetPin = s.resetPin := rfl

@[simp] theorem State.openMessage_responses (hs : Oct Word) (s : State) : (s.openMessage hs).responses = s.responses := rfl

end openMessage

section bufWrite

@[simp] theorem State.bufWrite_h (n : BitVec 7) (b : Byte) (s : State) : (s.bufWrite n b).h = s.h := rfl

@[simp] theorem State.bufWrite_v (n : BitVec 7) (b : Byte) (s : State) : (s.bufWrite n b).v = s.v := rfl

@[simp] theorem State.bufWrite_w (n : BitVec 7) (b : Byte) (s : State) : (s.bufWrite n b).w = s.w := rfl

@[simp] theorem State.bufWrite_buf (n : BitVec 7) (b : Byte) (s : State) : (s.bufWrite n b).buf = Store.write s.buf n.toNat b := rfl

@[simp] theorem State.bufWrite_cnt (n : BitVec 7) (b : Byte) (s : State) : (s.bufWrite n b).cnt = some (n + 1) := rfl

@[simp] theorem State.bufWrite_len (n : BitVec 7) (b : Byte) (s : State) : (s.bufWrite n b).len = s.len := rfl

@[simp] theorem State.bufWrite_phase (n : BitVec 7) (b : Byte) (s : State) : (s.bufWrite n b).phase = s.phase := rfl

@[simp] theorem State.bufWrite_ps (n : BitVec 7) (b : Byte) (s : State) : (s.bufWrite n b).ps = s.ps := rfl

@[simp] theorem State.bufWrite_t (n : BitVec 7) (b : Byte) (s : State) : (s.bufWrite n b).t = s.t := rfl

@[simp] theorem State.bufWrite_host (n : BitVec 7) (b : Byte) (s : State) : (s.bufWrite n b).host = s.host := rfl

@[simp] theorem State.bufWrite_resetPin (n : BitVec 7) (b : Byte) (s : State) : (s.bufWrite n b).resetPin = s.resetPin := rfl

@[simp] theorem State.bufWrite_responses (n : BitVec 7) (b : Byte) (s : State) : (s.bufWrite n b).responses = s.responses := rfl

end bufWrite

section startBlock

@[simp] theorem State.startBlock_h (s : State) : (s.startBlock).h = s.h := rfl

@[simp] theorem State.startBlock_v (s : State) : (s.startBlock).v = s.v := rfl

@[simp] theorem State.startBlock_w (s : State) : (s.startBlock).w = s.w := rfl

@[simp] theorem State.startBlock_buf (s : State) : (s.startBlock).buf = s.buf := rfl

@[simp] theorem State.startBlock_cnt (s : State) : (s.startBlock).cnt = s.cnt := rfl

@[simp] theorem State.startBlock_len (s : State) : (s.startBlock).len = s.len := rfl

@[simp] theorem State.startBlock_phase (s : State) : (s.startBlock).phase = .sched := rfl

@[simp] theorem State.startBlock_ps (s : State) : (s.startBlock).ps = s.ps := rfl

@[simp] theorem State.startBlock_t (s : State) : (s.startBlock).t = some 0 := rfl

@[simp] theorem State.startBlock_host (s : State) : (s.startBlock).host = s.host := rfl

@[simp] theorem State.startBlock_resetPin (s : State) : (s.startBlock).resetPin = s.resetPin := rfl

@[simp] theorem State.startBlock_responses (s : State) : (s.startBlock).responses = s.responses := rfl

end startBlock

section endBlock

@[simp] theorem State.endBlock_h (hs : Oct Word) (p : Phase) (s : State) : (s.endBlock hs p).h = hs.held := rfl

@[simp] theorem State.endBlock_v (hs : Oct Word) (p : Phase) (s : State) : (s.endBlock hs p).v = Oct.noValue := rfl

@[simp] theorem State.endBlock_w (hs : Oct Word) (p : Phase) (s : State) : (s.endBlock hs p).w = Store.invalid := rfl

@[simp] theorem State.endBlock_buf (hs : Oct Word) (p : Phase) (s : State) : (s.endBlock hs p).buf = Store.invalid := rfl

@[simp] theorem State.endBlock_cnt (hs : Oct Word) (p : Phase) (s : State) : (s.endBlock hs p).cnt = some 0 := rfl

@[simp] theorem State.endBlock_len (hs : Oct Word) (p : Phase) (s : State) : (s.endBlock hs p).len = s.len := rfl

@[simp] theorem State.endBlock_phase (hs : Oct Word) (p : Phase) (s : State) : (s.endBlock hs p).phase = p := rfl

@[simp] theorem State.endBlock_ps (hs : Oct Word) (p : Phase) (s : State) : (s.endBlock hs p).ps = s.ps := rfl

@[simp] theorem State.endBlock_t (hs : Oct Word) (p : Phase) (s : State) : (s.endBlock hs p).t = some 0 := rfl

@[simp] theorem State.endBlock_host (hs : Oct Word) (p : Phase) (s : State) : (s.endBlock hs p).host = s.host := rfl

@[simp] theorem State.endBlock_resetPin (hs : Oct Word) (p : Phase) (s : State) : (s.endBlock hs p).resetPin = s.resetPin := rfl

@[simp] theorem State.endBlock_responses (hs : Oct Word) (p : Phase) (s : State) : (s.endBlock hs p).responses = s.responses := rfl

end endBlock

section advance

@[simp] theorem State.advance_h (t : BitVec 6) (p : Phase) (s : State) : (s.advance t p).h = s.h := by
  unfold State.advance; split <;> rfl

@[simp] theorem State.advance_v (t : BitVec 6) (p : Phase) (s : State) : (s.advance t p).v = s.v := by
  unfold State.advance; split <;> rfl

@[simp] theorem State.advance_w (t : BitVec 6) (p : Phase) (s : State) : (s.advance t p).w = s.w := by
  unfold State.advance; split <;> rfl

@[simp] theorem State.advance_buf (t : BitVec 6) (p : Phase) (s : State) : (s.advance t p).buf = s.buf := by
  unfold State.advance; split <;> rfl

@[simp] theorem State.advance_cnt (t : BitVec 6) (p : Phase) (s : State) : (s.advance t p).cnt = s.cnt := by
  unfold State.advance; split <;> rfl

@[simp] theorem State.advance_len (t : BitVec 6) (p : Phase) (s : State) : (s.advance t p).len = s.len := by
  unfold State.advance; split <;> rfl

@[simp] theorem State.advance_ps (t : BitVec 6) (p : Phase) (s : State) : (s.advance t p).ps = s.ps := by
  unfold State.advance; split <;> rfl

@[simp] theorem State.advance_phase (t : BitVec 6) (p : Phase) (s : State) :
    (s.advance t p).phase = if t < 63 then s.phase else p := by
  unfold State.advance; split <;> rfl

@[simp] theorem State.advance_t (t : BitVec 6) (p : Phase) (s : State) :
    (s.advance t p).t = some (if t < 63 then t + 1 else 0) := by
  unfold State.advance; split <;> rfl

@[simp] theorem State.advance_host (t : BitVec 6) (p : Phase) (s : State) : (s.advance t p).host = s.host := by
  unfold State.advance; split <;> rfl

@[simp] theorem State.advance_resetPin (t : BitVec 6) (p : Phase) (s : State) :
    (s.advance t p).resetPin = s.resetPin := by
  unfold State.advance; split <;> rfl

@[simp] theorem State.advance_responses (t : BitVec 6) (p : Phase) (s : State) :
    (s.advance t p).responses = s.responses := by
  unfold State.advance; split <;> rfl

end advance

section resumeExpansion

@[simp] theorem State.resumeExpansion_toCells (rest : List CmdWord) (s : State) :
    (s.resumeExpansion rest).toCells = s.toCells := by
  unfold State.resumeExpansion; split <;> [rfl; (split <;> rfl)]

@[simp] theorem State.resumeExpansion_resetPin (rest : List CmdWord) (s : State) :
    (s.resumeExpansion rest).resetPin = s.resetPin := by
  unfold State.resumeExpansion; split <;> [rfl; (split <;> rfl)]

@[simp] theorem State.resumeExpansion_responses (rest : List CmdWord) (s : State) :
    (s.resumeExpansion rest).responses = s.responses := by
  unfold State.resumeExpansion; split <;> [rfl; (split <;> rfl)]

end resumeExpansion

end Sys2Proof.Machine
end

