-- ==== Sys2Proof/Laws/Ops.lean ====
section
/-! SUPPORT. What the shared operations can do when they answer a next state, and what reading eight cells gives. A proof
about a meaning peels it with these instead of unfolding it case by case. -/

namespace Sys2Proof.Machine

@[simp] theorem need_some {α : Type} (c : CellName) (x : α) (k : α → Outcome) : need c (some x) k = k x := rfl

@[simp] theorem need_none {α : Type} (c : CellName) (k : α → Outcome) : need c none k = .fault (.readNoValue c) := rfl

/-- A read goes on exactly where the cell holds a value. -/
theorem need_eq_next {α : Type} {c : CellName} {v : Option α} {k : α → Outcome} {s' : State} :
    need c v k = .next s' ↔ ∃ x, v = some x ∧ k x = .next s' := by
  cases v <;> simp

/-- A rule under `whenEnabled` is applied exactly where its micro-operation is selected. -/
theorem whenEnabled_eq_next {i : Instr} {s s' : State} {k : Outcome} :
    whenEnabled i s k = .next s' ↔ s.enabled = some i ∧ k = .next s' := by
  unfold whenEnabled; split <;> simp_all

theorem whenEnabled_of {i : Instr} {s : State} {k : Outcome} (h : s.enabled = some i) : whenEnabled i s k = k := if_pos h

theorem whenReady_of {s : State} {k : Outcome} (h : s.ready = true) : whenReady s k = k := if_pos h

/-- A command of a core that is not ready waits. -/
theorem whenReady_of_busy {s : State} {k : Outcome} (h : s.ready = false) : whenReady s k = .next s := by
  simp [whenReady, h]

theorem whenReady_eq_next {s s' : State} {k : Outcome} :
    whenReady s k = .next s' ↔ (s.ready = true ∧ k = .next s') ∨ (s.ready = false ∧ s' = s) := by
  unfold whenReady
  cases s.ready <;> simp [eq_comm]

theorem inPhase_of {p : Phase} {s : State} {k : Outcome} (h : s.phase = p) : inPhase p s k = k := if_pos h

/-- Outside its phase a command is answered `ERR(SEQUENCE)`. -/
theorem inPhase_of_ne {p : Phase} {s : State} {k : Outcome} (h : s.phase ≠ p) :
    inPhase p s k = .next (s.answerError .sequence) := if_neg h

theorem inPhase_eq_next {p : Phase} {s s' : State} {k : Outcome} :
    inPhase p s k = .next s' ↔ (s.phase = p ∧ k = .next s') ∨ (s.phase ≠ p ∧ s' = s.answerError .sequence) := by
  unfold inPhase; split <;> simp_all [eq_comm]

@[simp] theorem Oct.values_held {α : Type} (r : Oct α) : r.held.values = some r := rfl

@[simp] theorem Oct.values_noValue {α : Type} : (Oct.noValue : Oct (Option α)).values = none := rfl

/-- Eight cells have the eight values `r` exactly when they hold them. -/
theorem Oct.values_eq_some {α : Type} {x : Oct (Option α)} {r : Oct α} : x.values = some r ↔ x = r.held := by
  constructor
  · intro h
    obtain ⟨a, b, c, d, e, f, g, i⟩ := x
    unfold Oct.values at h
    split at h
    · cases h
      rename_i heq
      simpa [Oct.held, Oct.map] using heq
    · cases h
  · rintro rfl; rfl

@[simp] theorem rspCode_rspWord (c : RspCode) (d : Byte) : rspCode (rspWord c d) = c.bits := by
  cases c <;> revert d <;> decide

@[simp] theorem rspData_rspWord (c : RspCode) (d : Byte) : rspData (rspWord c d) = d := by
  cases c <;> revert d <;> decide

/-- A response is an error exactly where its code is not OK. -/
@[simp] theorem isErrorRsp_rspWord (c : RspCode) (d : Byte) : isErrorRsp (rspWord c d) = decide (c ≠ .ok) := by
  cases c <;> revert d <;> decide

@[simp] theorem Oct.get_held {α : Type} (r : Oct α) (k : Fin 8) : r.held.get k = some (r.get k) := by
  fin_cases k <;> rfl

/-- The digest view of cells that hold values (46_digest_codec.md R181). -/
@[simp] theorem digestCell_held (hs : Oct Word) (j : BitVec 5) : digestCell hs.held j = some (digestByte hs j) := by
  simp [digestCell, digestByte]

end Sys2Proof.Machine
end

