-- ==== Sys2Proof/Laws/Store.lean ====
section
/-! SUPPORT. The laws of the storage spaces: a read after a write, the canonical form, and the shape "exactly the places below
`n` hold values" of 10_state.md R37. -/

namespace Sys2Proof.Machine

variable {α : Type}

@[simp] theorem Store.read_invalid (i : Nat) : Store.read (Store.invalid : Store α) i = none := rfl

@[simp] theorem Store.read_nil (i : Nat) : Store.read ([] : Store α) i = none := rfl

/-- A read of the place written gives the value written. -/
@[simp] theorem Store.read_write_same (s : Store α) (i : Nat) (x : α) : Store.read (Store.write s i x) i = some x := by
  induction s with
  | nil => simp [Store.write, Store.read]
  | cons hd tl ih =>
    obtain ⟨k, y⟩ := hd
    unfold Store.write
    split
    · simp [Store.read]
    · split
      · simp [Store.read]
      · have : k ≠ i := by omega
        simp [Store.read, this, ih]

/-- A write leaves every other place alone. -/
theorem Store.read_write_ne (s : Store α) {i j : Nat} (x : α) (h : j ≠ i) :
    Store.read (Store.write s i x) j = Store.read s j := by
  induction s with
  | nil => simp [Store.write, Store.read, h.symm]
  | cons hd tl ih =>
    obtain ⟨k, y⟩ := hd
    unfold Store.write
    split
    · simp [Store.read, h.symm]
    · split
      · rename_i h1 h2
        subst h2
        simp [Store.read, h.symm]
      · simp [Store.read, ih]

theorem Store.read_write (s : Store α) (i j : Nat) (x : α) :
    Store.read (Store.write s i x) j = if j = i then some x else Store.read s j := by
  split
  · rename_i h; rw [h]; exact Store.read_write_same s i x
  · exact Store.read_write_ne s x ‹_›

/-- The canonical form, said with the library's words: indices strictly rising, each below the size. -/
theorem Store.wf_iff (size : Nat) (s : Store α) :
    Store.wf size s = true ↔ (s.map Prod.fst).Pairwise (· < ·) ∧ ∀ k ∈ s.map Prod.fst, k < size := by
  induction s with
  | nil => simp [Store.wf]
  | cons hd tl ih =>
    obtain ⟨k, y⟩ := hd
    cases tl with
    | nil => simp [Store.wf]
    | cons hd' tl' =>
      obtain ⟨k', y'⟩ := hd'
      simp only [Store.wf, Bool.and_eq_true, decide_eq_true_eq, ih, List.map_cons, List.pairwise_cons, List.mem_cons,
        forall_eq_or_imp]
      constructor
      · rintro ⟨hk, ⟨h1, h2⟩, h3, h4⟩
        exact ⟨⟨⟨hk, fun a ha => lt_trans hk (h1 a ha)⟩, h1, h2⟩, lt_trans hk h3, h3, h4⟩
      · rintro ⟨⟨⟨hk, _⟩, h1, h2⟩, _, h3, h4⟩
        exact ⟨hk, ⟨h1, h2⟩, h3, h4⟩

theorem Store.mem_keys_write (s : Store α) (i : Nat) (x : α) (k : Nat) :
    k ∈ (Store.write s i x).map Prod.fst ↔ k = i ∨ k ∈ s.map Prod.fst := by
  induction s with
  | nil => simp [Store.write]
  | cons hd tl ih =>
    obtain ⟨m, y⟩ := hd
    unfold Store.write
    split
    · simp
    · split
      · rename_i h1 h2; subst h2; simp
      · simp only [List.map_cons, List.mem_cons, ih]; tauto

/-- A write inside the space keeps the canonical form. -/
theorem Store.wf_write {size : Nat} {s : Store α} {i : Nat} (x : α) (hs : Store.wf size s = true) (hi : i < size) :
    Store.wf size (Store.write s i x) = true := by
  rw [Store.wf_iff] at hs ⊢
  refine ⟨?_, fun k hk => ?_⟩
  · obtain ⟨hp, -⟩ := hs
    induction s with
    | nil => simp [Store.write]
    | cons hd tl ih =>
      obtain ⟨m, y⟩ := hd
      simp only [List.map_cons, List.pairwise_cons] at hp
      unfold Store.write
      split
      · simp only [List.map_cons, List.pairwise_cons, List.mem_cons, forall_eq_or_imp]
        exact ⟨⟨‹_›, fun a ha => lt_trans ‹_› (hp.1 a ha)⟩, hp⟩
      · split
        · rename_i h1 h2; subst h2; simpa using hp
        · simp only [List.map_cons, List.pairwise_cons]
          refine ⟨fun a ha => ?_, ih hp.2⟩
          rcases (Store.mem_keys_write tl i x a).1 ha with rfl | ha
          · omega
          · exact hp.1 a ha
  · rcases (Store.mem_keys_write s i x k).1 hk with rfl | hk
    · exact hi
    · exact hs.2 k hk

/-- Every operation on the block buffer keeps its canonical form: the only write there is (20_memory.md R63). -/
theorem Memory.wf_write {m : Memory} {i : Nat} (b : Byte) (hm : Memory.wf m = true) (hi : i < 64) :
    Memory.wf (Store.write m i b) = true := Store.wf_write b hm hi

/-- An emptied buffer is in canonical form. -/
theorem Memory.wf_invalid : Memory.wf Store.invalid = true := rfl

/-- The buffer after reset is in canonical form. -/
theorem Memory.wf_reset : Memory.wf State.reset.buf = true := rfl

/-- Filling places below the size keeps the canonical form. -/
theorem Store.wf_fillTo {size n : Nat} {s : Store α} (zero : α) (hs : Store.wf size s = true) (hn : n ≤ size) :
    Store.wf size (Store.fillTo zero n s) = true := by
  unfold Store.fillTo
  induction n with
  | zero => simpa using hs
  | succ n ih =>
    rw [List.range_succ, List.foldl_append]
    simp only [List.foldl_cons, List.foldl_nil]
    split
    · exact ih (by omega)
    · exact Store.wf_write zero (ih (by omega)) (by omega)

/-- A space filled to `n` has the canonical form of every size from `n` on. -/
theorem Store.wf_of_filledTo {n size : Nat} {s : Store α} (h : Store.filledTo n s) (hn : n ≤ size) :
    Store.wf size s = true := by
  rw [Store.wf_iff, h]
  exact ⟨List.pairwise_lt_range, fun k hk => lt_of_lt_of_le (List.mem_range.1 hk) hn⟩

theorem Store.read_isSome_iff (s : Store α) (i : Nat) : (Store.read s i).isSome = true ↔ i ∈ s.map Prod.fst := by
  induction s with
  | nil => simp [Store.read]
  | cons hd tl ih =>
    obtain ⟨k, y⟩ := hd
    unfold Store.read
    split
    · simp_all
    · rename_i h
      simp only [ih, List.map_cons, List.mem_cons]
      exact ⟨.inr, fun h' => h'.resolve_left (fun e => h e.symm)⟩

/-- In a space filled to `n` a place holds a value exactly when it is below `n` (10_state.md R37). -/
theorem Store.filledTo_read {n : Nat} {s : Store α} (h : Store.filledTo n s) (i : Nat) :
    (Store.read s i).isSome = true ↔ i < n := by
  rw [Store.read_isSome_iff, h, List.mem_range]

@[simp] theorem Store.filledTo_invalid : Store.filledTo 0 (Store.invalid : Store α) := rfl

/-- A write at place `n` fills one place more. -/
theorem Store.filledTo_write {n : Nat} {s : Store α} (x : α) (h : Store.filledTo n s) :
    Store.filledTo (n + 1) (Store.write s n x) := by
  have key : ∀ (s : Store α), (∀ k ∈ s.map Prod.fst, k < n) → Store.write s n x = s ++ [(n, x)] := by
    intro s
    induction s with
    | nil => intro _; rfl
    | cons hd tl ih =>
      obtain ⟨k, y⟩ := hd
      intro hk
      have hkn : k < n := hk k (by simp)
      unfold Store.write
      rw [if_neg (by omega), if_neg (by omega), ih (fun a ha => hk a (by simp [ha]))]
      rfl
  have hlt : ∀ k ∈ s.map Prod.fst, k < n := fun k hk => List.mem_range.1 (h ▸ hk)
  rw [key s hlt]
  simp only [Store.filledTo, List.map_append, List.map_cons, List.map_nil, List.range_succ]
  rw [h]

end Sys2Proof.Machine
end

