-- ==== Sys2Proof/Laws/Exec.lean ====
section
/-! SUPPORT. One inversion lemma per meaning: everything the meaning can do when it answers a next state. -/

namespace Sys2Proof.Machine

variable {s s' : State}

/-- INIT answers a next state always: the open message of a ready core, or the wait of a busy one. -/
theorem execInit_cases (h : execInit s = .next s') :
    (s.ready = true ∧ s' = (s.openMessage initialHash).answerOk) ∨ (s.ready = false ∧ s' = s) := by
  rcases whenReady_eq_next.1 h with ⟨hr, h⟩ | ⟨hr, rfl⟩
  · exact .inl ⟨hr, by simpa [eq_comm] using h⟩
  · exact .inr ⟨hr, rfl⟩

/-- UPDATE: waits, is out of sequence, is one byte too many, or stores and counts its byte. -/
theorem execUpdate_cases {b : Byte} (h : execUpdate b s = .next s') :
    (s.ready = false ∧ s' = s) ∨
    (s.ready = true ∧ s.phase ≠ .absorb ∧ s' = s.answerError .sequence) ∨
    (s.ready = true ∧ s.phase = .absorb ∧ s.len = some Config.maxLen ∧
      s' = { s with phase := .failed }.answerError .lengthOverflow) ∨
    (s.ready = true ∧ s.phase = .absorb ∧ ∃ n l, s.cnt = some n ∧ s.len = some l ∧ l ≠ Config.maxLen ∧
      s' = ({ s with len := some (l + 1) }.bufWrite n b).answerOk) := by
  rcases whenReady_eq_next.1 h with ⟨hr, h⟩ | ⟨hr, rfl⟩
  · rcases inPhase_eq_next.1 h with ⟨hp, h⟩ | ⟨hp, rfl⟩
    · obtain ⟨n, hn, h⟩ := need_eq_next.1 h
      obtain ⟨l, hl, h⟩ := need_eq_next.1 h
      split at h
      · rename_i hmax
        subst hmax
        exact .inr (.inr (.inl ⟨hr, hp, hl, by simpa [eq_comm] using h⟩))
      · exact .inr (.inr (.inr ⟨hr, hp, n, l, hn, hl, ‹_›, by simpa [eq_comm] using h⟩))
    · exact .inr (.inl ⟨hr, hp, rfl⟩)
  · exact .inl ⟨hr, rfl⟩

/-- FINALIZE: waits, is out of sequence, or starts the padding. -/
theorem execFinalize_cases (h : execFinalize s = .next s') :
    (s.ready = false ∧ s' = s) ∨
    (s.ready = true ∧ s.phase ≠ .absorb ∧ s' = s.answerError .sequence) ∨
    (s.ready = true ∧ s.phase = .absorb ∧ s' = { s with ps := some .mark, phase := .pad }.answerOk) := by
  rcases whenReady_eq_next.1 h with ⟨hr, h⟩ | ⟨hr, rfl⟩
  · rcases inPhase_eq_next.1 h with ⟨hp, h⟩ | ⟨hp, rfl⟩
    · exact .inr (.inr ⟨hr, hp, by simpa [eq_comm] using h⟩)
    · exact .inr (.inl ⟨hr, hp, rfl⟩)
  · exact .inl ⟨hr, rfl⟩

/-- RDDIGEST: waits, is illegal, is out of sequence, or answers a byte of the digest; it changes no cell. -/
theorem execRddigest_cases {j : Byte} (h : execRddigest j s = .next s') :
    (s.ready = false ∧ s' = s) ∨
    (s.ready = true ∧ 32 ≤ j.toNat ∧ s' = s.answerError .illegal) ∨
    (s.ready = true ∧ j.toNat < 32 ∧ s.phase ≠ .done ∧ s' = s.answerError .sequence) ∨
    (s.ready = true ∧ j.toNat < 32 ∧ s.phase = .done ∧
      ∃ d, digestCell s.h (j.setWidth 5) = some d ∧ s' = s.answerData d) := by
  rcases whenReady_eq_next.1 h with ⟨hr, h⟩ | ⟨hr, rfl⟩
  · split at h
    · exact .inr (.inl ⟨hr, ‹_›, by simpa [eq_comm] using h⟩)
    · rcases inPhase_eq_next.1 h with ⟨hp, h⟩ | ⟨hp, rfl⟩
      · obtain ⟨d, hd, h⟩ := need_eq_next.1 h
        exact .inr (.inr (.inr ⟨hr, by omega, hp, d, hd, by simpa [eq_comm] using h⟩))
      · exact .inr (.inr (.inl ⟨hr, by omega, hp, rfl⟩))
  · exact .inl ⟨hr, rfl⟩

theorem execBlkgoAbsorb_cases (h : execBlkgoAbsorb s = .next s') :
    s.enabled = some .blkgoAbsorb ∧ s' = s.startBlock := by
  obtain ⟨he, h⟩ := whenEnabled_eq_next.1 h
  exact ⟨he, by simpa [eq_comm] using h⟩

theorem execBlkgoPad_cases (h : execBlkgoPad s = .next s') :
    s.enabled = some .blkgoPad ∧ s' = s.startBlock := by
  obtain ⟨he, h⟩ := whenEnabled_eq_next.1 h
  exact ⟨he, by simpa [eq_comm] using h⟩

theorem execPadmark_cases (h : execPadmark s = .next s') :
    s.enabled = some .padmark ∧ ∃ n, s.cnt = some n ∧ s' = { s.bufWrite n Config.padMark with ps := some .zero } := by
  obtain ⟨he, h⟩ := whenEnabled_eq_next.1 h
  obtain ⟨n, hn, h⟩ := need_eq_next.1 h
  exact ⟨he, n, hn, by simpa [eq_comm] using h⟩

theorem execPadzero_cases (h : execPadzero s = .next s') :
    s.enabled = some .padzero ∧ ∃ n, s.cnt = some n ∧ s' = s.bufWrite n 0 := by
  obtain ⟨he, h⟩ := whenEnabled_eq_next.1 h
  obtain ⟨n, hn, h⟩ := need_eq_next.1 h
  exact ⟨he, n, hn, by simpa [eq_comm] using h⟩

theorem padLengthByte_cases (h : padLengthByte s = .next s') :
    ∃ n l, s.cnt = some n ∧ s.len = some l ∧ s' = { s.bufWrite n (lenFieldByte n l) with ps := some .len } := by
  obtain ⟨n, hn, h⟩ := need_eq_next.1 h
  obtain ⟨l, hl, h⟩ := need_eq_next.1 h
  exact ⟨n, l, hn, hl, by simpa [eq_comm] using h⟩

theorem execPadlenFirst_cases (h : execPadlenFirst s = .next s') :
    s.enabled = some .padlenFirst ∧
      ∃ n l, s.cnt = some n ∧ s.len = some l ∧ s' = { s.bufWrite n (lenFieldByte n l) with ps := some .len } :=
  let ⟨he, h⟩ := whenEnabled_eq_next.1 h
  ⟨he, padLengthByte_cases h⟩

theorem execPadlenNext_cases (h : execPadlenNext s = .next s') :
    s.enabled = some .padlenNext ∧
      ∃ n l, s.cnt = some n ∧ s.len = some l ∧ s' = { s.bufWrite n (lenFieldByte n l) with ps := some .len } :=
  let ⟨he, h⟩ := whenEnabled_eq_next.1 h
  ⟨he, padLengthByte_cases h⟩

theorem execWload_cases (h : execWload s = .next s') :
    s.enabled = some .wload ∧ ∃ t x, s.t = some t ∧ bufRead4 s.buf (4 * t.toNat) = some x ∧
      s' = { s with w := Store.write s.w t.toNat x, t := some (t + 1) } := by
  obtain ⟨he, h⟩ := whenEnabled_eq_next.1 h
  obtain ⟨t, ht, h⟩ := need_eq_next.1 h
  obtain ⟨x, hx, h⟩ := need_eq_next.1 h
  exact ⟨he, t, x, ht, hx, by simpa [eq_comm] using h⟩

theorem execWexp_cases (h : execWexp s = .next s') :
    s.enabled = some .wexp ∧ ∃ t w16 w15 w7 w2, s.t = some t ∧
      Store.read s.w (t.toNat - 16) = some w16 ∧ Store.read s.w (t.toNat - 15) = some w15 ∧
      Store.read s.w (t.toNat - 7) = some w7 ∧ Store.read s.w (t.toNat - 2) = some w2 ∧
      s' = { s with w := Store.write s.w t.toNat (expandWord w16 w15 w7 w2) }.advance t .vinit := by
  obtain ⟨he, h⟩ := whenEnabled_eq_next.1 h
  obtain ⟨t, ht, h⟩ := need_eq_next.1 h
  obtain ⟨w16, h16, h⟩ := need_eq_next.1 h
  obtain ⟨w15, h15, h⟩ := need_eq_next.1 h
  obtain ⟨w7, h7, h⟩ := need_eq_next.1 h
  obtain ⟨w2, h2, h⟩ := need_eq_next.1 h
  exact ⟨he, t, w16, w15, w7, w2, ht, h16, h15, h7, h2, by simpa [eq_comm] using h⟩

theorem execVload_cases (h : execVload s = .next s') :
    s.enabled = some .vload ∧ ∃ hs, s.h.values = some hs ∧
      s' = { s with v := hs.held, t := some 0, phase := .round } := by
  obtain ⟨he, h⟩ := whenEnabled_eq_next.1 h
  obtain ⟨hs, hh, h⟩ := need_eq_next.1 h
  exact ⟨he, hs, hh, by simpa [eq_comm] using h⟩

theorem execRound_cases (h : execRound s = .next s') :
    s.enabled = some .round ∧ ∃ t vs x, s.t = some t ∧ s.v.values = some vs ∧ Store.read s.w t.toNat = some x ∧
      s' = { s with v := (round vs (kAt t) x).held }.advance t .fold := by
  obtain ⟨he, h⟩ := whenEnabled_eq_next.1 h
  obtain ⟨t, ht, h⟩ := need_eq_next.1 h
  obtain ⟨vs, hv, h⟩ := need_eq_next.1 h
  obtain ⟨x, hx, h⟩ := need_eq_next.1 h
  exact ⟨he, t, vs, x, ht, hv, hx, by simpa [eq_comm] using h⟩

theorem execFold_cases (h : execFold s = .next s') :
    s.enabled = some .fold ∧ ∃ p hs vs next, s.ps = some p ∧ s.h.values = some hs ∧ s.v.values = some vs ∧
      phaseAfterFold p = some next ∧ s' = s.endBlock (Oct.zip add32 hs vs) next := by
  obtain ⟨he, h⟩ := whenEnabled_eq_next.1 h
  obtain ⟨p, hp, h⟩ := need_eq_next.1 h
  obtain ⟨hs, hh, h⟩ := need_eq_next.1 h
  obtain ⟨vs, hv, h⟩ := need_eq_next.1 h
  split at h
  · exact ⟨he, p, hs, vs, _, hp, hh, hv, ‹_›, by simpa [eq_comm] using h⟩
  · cases h

/-- What a step can be: reset, the enabled micro-operation, or, in a ready core, a step of the port. -/
theorem step_cases (h : step s = .next s') :
    (s.resetAsserted = true ∧ s' = s.takeReset) ∨
    (s.resetAsserted = false ∧ ∃ i, s.enabled = some i ∧ exec i s.elapse = .next s') ∨
    (s.resetAsserted = false ∧ s.enabled = none ∧ s.ready = true ∧ portStep s = .next s') := by
  unfold step at h
  split at h
  · exact .inl ⟨‹_›, by simpa [eq_comm] using h⟩
  · have hr : s.resetAsserted = false := by simpa using ‹¬s.resetAsserted = true›
    split at h
    · exact .inr (.inl ⟨hr, _, ‹_›, h⟩)
    · split at h
      · exact .inr (.inr ⟨hr, ‹_›, ‹_›, h⟩)
      · cases h

/-- What a step of the port can be: an accepted word, a silent host, a reset line, or no host move. -/
theorem portStep_cases (h : portStep s = .next s') :
    (∃ w rest ms t, s.host = .issue w rest :: ms ∧
      acceptWord w { s with host := ms, resetPin := s.resetPin.tail } = .next t ∧ s' = t.resumeExpansion rest) ∨
    (∃ ms, s.host = .silent :: ms ∧ s' = { s with host := ms, resetPin := s.resetPin.tail }) ∨
    (∃ ms, s.host = .reset :: ms ∧ s' = { s.resetCells with host := ms, resetPin := s.resetPin.tail }) ∨
    (s.host = [] ∧ s' = { s with resetPin := s.resetPin.tail }) := by
  unfold portStep at h
  split at h
  · split at h
    · exact .inl ⟨_, _, _, _, ‹_›, ‹_›, by simpa [eq_comm] using h⟩
    · cases h
    · cases h
  · exact .inr (.inl ⟨_, ‹_›, by simpa [eq_comm] using h⟩)
  · exact .inr (.inr (.inl ⟨_, ‹_›, by simpa [eq_comm] using h⟩))
  · exact .inr (.inr (.inr ⟨‹_›, by simpa [eq_comm] using h⟩))

/-- An accepted word is executed, or answered `ERR(ILLEGAL)` without a change of any cell. -/
theorem acceptWord_cases {w : CmdWord} (h : acceptWord w s = .next s') :
    (∃ i, decodeCmd w = .ok i ∧ exec i s = .next s') ∨
    (∃ e, decodeCmd w = .error e ∧ s' = s.answerError .illegal) := by
  unfold acceptWord at h
  split at h
  · exact .inl ⟨_, ‹_›, h⟩
  · exact .inr ⟨_, ‹_›, by simpa [eq_comm] using h⟩

@[simp] theorem State.elapse_enabled (s : State) : s.elapse.enabled = s.enabled := rfl

@[simp] theorem State.elapse_ready (s : State) : s.elapse.ready = s.ready := rfl

end Sys2Proof.Machine
end

