-- ==== Sys2Proof/Laws/PerInstr.lean ====
section
/-! SUPPORT. The family `EncodedWord`: the word of every well-formed instruction agrees with its row of
spec/opcode_table.json, bit by bit under the row's mask. -/

namespace Sys2Proof.Laws.EncodedWord

/-- The word as a number, with the number of bits of its row (30_encoding.md R76, R83). -/
def bits : TableWord → Nat × Nat
  | .cmd w => (12, w.toNat)
  | .sv v => (19, v.toNat)

/-- Width, mask and match of the instruction's row (30_encoding.md R77, R83). -/
def row : Instr → Nat × Nat × Nat
  | .init => (12, 0xfff, 0x100)
  | .update _ => (12, 0xf00, 0x200)
  | .finalize => (12, 0xfff, 0x300)
  | .rddigest _ => (12, 0xfe0, 0x400)
  | .blkgoAbsorb => (19, 0x79fc0, 0x09000)
  | .blkgoPad => (19, 0x79fc0, 0x11000)
  | .padmark => (19, 0x7f000, 0x12000)
  | .padzero => (19, 0x7f000, 0x14000)
  | .padlenFirst => (19, 0x7ffc0, 0x14e00)
  | .padlenNext => (19, 0x7f000, 0x16000)
  | .wload => (19, 0x78030, 0x18000)
  | .wexp => (19, 0x78000, 0x18000)
  | .vload => (19, 0x78000, 0x20000)
  | .round => (19, 0x78000, 0x28000)
  | .fold => (19, 0x78000, 0x30000)

/-- The encoded word has the row's width, and the row's match under its mask. -/
def Statement (i : Instr) : Prop :=
  i.wellFormed = true → (bits (encode i)).1 = (row i).1 ∧ (bits (encode i)).2 &&& (row i).2.1 = (row i).2.2

theorem init : Statement .init := fun _ => by decide

theorem update (b : Byte) : Statement (.update b) := by
  refine fun _ => ⟨rfl, ?_⟩
  revert b
  decide

theorem finalize : Statement .finalize := fun _ => by decide

theorem rddigest (j : Byte) : Statement (.rddigest j) := by
  revert j
  unfold Statement
  decide

theorem blkgoAbsorb : Statement .blkgoAbsorb := fun _ => by decide

theorem blkgoPad : Statement .blkgoPad := fun _ => by decide

theorem padmark : Statement .padmark := fun _ => by decide

theorem padzero : Statement .padzero := fun _ => by decide

theorem padlenFirst : Statement .padlenFirst := fun _ => by decide

theorem padlenNext : Statement .padlenNext := fun _ => by decide

theorem wload : Statement .wload := fun _ => by decide

theorem wexp : Statement .wexp := fun _ => by decide

theorem vload : Statement .vload := fun _ => by decide

theorem round : Statement .round := fun _ => by decide

theorem fold : Statement .fold := fun _ => by decide

end Sys2Proof.Laws.EncodedWord
end

