-- ==== Sys2Proof/Tests/Slice0.lean ====
section
/-! SUPPORT. Tests of the model against the vectors of 95_test_vectors.md, each of one word or one step, and the witnesses:
for every statement with hypotheses a theorem that shows values which meet them together. -/

namespace Sys2Proof.Tests

open Sys2Proof Sys2Proof.Machine

/-! ### Small states -/

/-- A storage space whose places below `n` hold `x`. -/
def filled {α : Type} (n : Nat) (x : α) : Store α := (List.range n).map (fun i => (i, x))

/-- Eight words, all different. -/
def seed : Oct Word := ⟨1, 2, 3, 4, 5, 6, 7, 8⟩

/-- A state with values in `H`, `CNT`, `LEN`, `PS`, `T` and in the first `CNT` bytes of `BUF`. -/
def mk (p : Phase) (ps : PadStage) (n : Nat) (l : Nat) (t : Nat) : State :=
  { State.reset with
    phase := p
    ps := some ps
    cnt := some (BitVec.ofNat 7 n)
    len := some (BitVec.ofNat 61 l)
    t := some (BitVec.ofNat 6 t)
    h := seed.held
    buf := filled n 0x61 }

/-- The same with values in `V` and in all of `W`. -/
def mkFull (p : Phase) (ps : PadStage) (n : Nat) (l : Nat) (t : Nat) : State :=
  { mk p ps n l t with v := seed.held, w := filled 64 0xffffffff }

/-- The hash state of "abc" (V2). -/
def abcDigest : Oct Word :=
  ⟨0xba7816bf, 0x8f01cfea, 0x414140de, 0x5dae2223, 0xb00361a3, 0x96177a9c, 0xb410ff61, 0xf20015ad⟩

/-- Whether an outcome is a next state of which `f` holds. -/
def shows (o : Outcome) (f : State → Bool) : Bool :=
  match o with
  | .next t => f t
  | .fault _ => false
  | .refused _ => false

/-- Whether an outcome is the fault `f`. -/
def stopsWith (o : Outcome) (f : Fault) : Bool :=
  match o with
  | .next _ => false
  | .fault g => g = f
  | .refused _ => false

/-! ### Well-formedness -/

theorem test_illformed_rddigest_is_refused : (Instr.rddigest 32).wellFormed = false ∧ (Instr.rddigest 0xff).wellFormed = false := by
  decide

theorem test_last_index_is_well_formed : (Instr.rddigest 31).wellFormed = true := by decide

/-! ### Decoding: words written out from 30_encoding.md R77 and R83 (V61, V70) -/

theorem test_decode_init : decodeCmd 0b0001_00000000#12 = .ok .init := by decide

theorem test_decode_update : decodeCmd 0b0010_10100101#12 = .ok (.update 0xa5) := by decide

theorem test_decode_finalize : decodeCmd 0b0011_00000000#12 = .ok .finalize := by decide

theorem test_decode_rddigest : decodeCmd 0b0100_000_11111#12 = .ok (.rddigest 31) := by decide

theorem test_decode_illegal :
    decodeCmd 0b0100_001_00000#12 = .error (.indexOutOfRange 0x20) ∧ decodeCmd 0b0011_11111111#12 = .error (.reservedArg 0xff) ∧
    decodeCmd 0b0101_00000000#12 = .error (.reservedOp 5) := by decide

theorem test_decode_blkgoAbsorb : decodeSV 0b0001_00_1000000_000000#19 = .ok .blkgoAbsorb := by decide

theorem test_decode_blkgoPad : decodeSV 0b0010_11_1000000_000000#19 = .ok .blkgoPad := by decide

theorem test_decode_padmark : decodeSV 0b0010_01_0000011_000000#19 = .ok .padmark := by decide

theorem test_decode_padzero : decodeSV 0b0010_10_0000100_000000#19 = .ok .padzero := by decide

theorem test_decode_padlenFirst : decodeSV 0b0010_10_0111000_000000#19 = .ok .padlenFirst := by decide

theorem test_decode_padlenNext : decodeSV 0b0010_11_0111001_000000#19 = .ok .padlenNext := by decide

theorem test_decode_wload : decodeSV 0b0011_11_1000000_001111#19 = .ok .wload := by decide

theorem test_decode_wexp :
    decodeSV 0b0011_11_1000000_010000#19 = .ok .wexp ∧ decodeSV 0b0011_00_1000000_111111#19 = .ok .wexp := by decide

theorem test_decode_vload : decodeSV 0b0100_11_1000000_000000#19 = .ok .vload := by decide

theorem test_decode_round : decodeSV 0b0101_11_1000000_111111#19 = .ok .round := by decide

theorem test_decode_fold : decodeSV 0b0110_10_1000000_000000#19 = .ok .fold := by decide

theorem test_decode_nothing :
    decodeSV 0b0001_00_0111111_000000#19 = .error (.noMicroOp 0x08fc0) ∧ decodeSV 0b0111_11_0000000_000000#19 = .error (.noMicroOp 0x3e000) ∧
    decodeSV 0b1000_00_0111111_000000#19 = .error (.noMicroOp 0x40fc0) := by decide

theorem test_decodeTableWord :
    decodeTableWord 16 0x2ff = some (.update 0xff) ∧ decodeTableWord 16 0x420 = none ∧ decodeTableWord 24 0x35000 = some .fold := by
  decide

/-! ### The constant tables, from their definition (10_state.md R31, R32; log entry 15) -/

/-- The primes whose roots the tables hold. -/
def primes : List Nat := (List.range 312).filter (fun p => 2 ≤ p ∧ ∀ d ∈ List.range 18, 2 ≤ d → d < p → p % d ≠ 0)

/-- Whether `x` is the first 32 bits after the point of the square root of `p`: with `n` the root's integer part and `x`
together, `n^2 <= p * 2^64 < (n + 1)^2`. -/
def isSqrtFraction (p : Nat) (x : Word) : Bool :=
  (List.range 5).any (fun i =>
    let n := i * 2 ^ 32 + x.toNat
    decide (n ^ 2 ≤ p * 2 ^ 64 ∧ p * 2 ^ 64 < (n + 1) ^ 2))

/-- The same of the cube root. -/
def isCbrtFraction (p : Nat) (x : Word) : Bool :=
  (List.range 7).any (fun i =>
    let n := i * 2 ^ 32 + x.toNat
    decide (n ^ 3 ≤ p * 2 ^ 96 ∧ p * 2 ^ 96 < (n + 1) ^ 3))

theorem test_round_constants_are_cube_roots :
    roundConstants.length = 64 ∧ (primes.zip roundConstants).length = 64 ∧
    (primes.zip roundConstants).all (fun e => isCbrtFraction e.1 e.2) = true := by decide

theorem test_initial_hash_is_square_roots :
    (primes.zip initialHash.toList).length = 8 ∧ (primes.zip initialHash.toList).all (fun e => isSqrtFraction e.1 e.2) = true := by
  decide

/-! ### Commands (V60, P6) -/

theorem test_init :
    shows (exec .init State.reset) (fun t => t.phase = .absorb ∧ t.cnt = some 0 ∧ t.len = some 0 ∧ t.responses = [0x000]) = true := by
  decide

theorem test_update :
    shows (exec (.update 0xa5) (mk .absorb .none 5 5 0)) (fun t =>
      Store.read t.buf 5 = some 0xa5 ∧ t.cnt = some 6 ∧ t.len = some 6 ∧ t.responses = [0x000]) = true := by decide

theorem test_update_one_byte_too_many :
    shows (exec (.update 0xaa) (mk .absorb .none 63 (2 ^ 61 - 1) 0)) (fun t =>
      t.phase = .failed ∧ t.status = 0x85 ∧ Store.read t.buf 63 = none ∧ t.responses = [0x100]) = true := by decide

theorem test_finalize :
    shows (exec .finalize (mk .absorb .none 5 5 0)) (fun t => t.phase = .pad ∧ t.ps = some .mark ∧ t.responses = [0x000]) = true := by
  decide

theorem test_finalize_out_of_sequence :
    shows (exec .finalize State.reset) (fun t => t.toCells = Cells.reset ∧ t.responses = [0x200]) = true := by decide

theorem test_rddigest :
    shows (exec (.rddigest 31) { mk .done .len 0 3 0 with h := abcDigest.held }) (fun t => t.responses = [0x0ad]) = true := by decide

theorem test_rddigest_illegal_before_sequence :
    shows (acceptWord 0x420 State.reset) (fun t => t.responses = [0x300]) = true := by decide

/-! ### Micro-operations (V18 to V34) -/

theorem test_blkgoAbsorb :
    shows (exec .blkgoAbsorb (mk .absorb .none 64 64 0)) (fun t => t.phase = .sched ∧ t.t = some 0 ∧ t.cnt = some 64) = true := by
  decide

theorem test_blkgoPad :
    shows (exec .blkgoPad (mk .pad .len 64 3 0)) (fun t => t.phase = .sched ∧ t.ps = some .len) = true := by decide

theorem test_padmark :
    shows (exec .padmark (mk .pad .mark 3 3 0)) (fun t => Store.read t.buf 3 = some 0x80 ∧ t.cnt = some 4 ∧ t.ps = some .zero) = true := by
  decide

theorem test_padzero :
    shows (exec .padzero (mk .pad .zero 55 3 0)) (fun t => Store.read t.buf 55 = some 0 ∧ t.cnt = some 56 ∧ t.ps = some .zero) = true := by
  decide

/-- The first byte of the length field of `2^61 - 1` bytes is `ff` (V16). -/
theorem test_padlenFirst :
    shows (exec .padlenFirst (mk .pad .zero 56 (2 ^ 61 - 1) 0)) (fun t =>
      Store.read t.buf 56 = some 0xff ∧ t.cnt = some 57 ∧ t.ps = some .len) = true := by decide

/-- The last two bytes of the length field of 56 bytes are `01 c0` (V19). -/
theorem test_padlenNext :
    shows (exec .padlenNext (mk .pad .len 62 56 0)) (fun t => Store.read t.buf 62 = some 0x01) = true ∧
    shows (exec .padlenNext (mk .pad .len 63 56 0)) (fun t => Store.read t.buf 63 = some 0xc0 ∧ t.cnt = some 64) = true := by decide

/-- The first word of the block of "abc" (V18, V23). -/
theorem test_wload :
    shows (exec .wload { mk .sched .len 64 3 0 with buf := [(0, 0x61), (1, 0x62), (2, 0x63), (3, 0x80)] })
      (fun t => Store.read t.w 0 = some 0x61626380 ∧ t.t = some 1) = true := by decide

/-- Sixteen words `ffffffff` (V22). -/
theorem test_wexp_wraps :
    shows (exec .wexp { mk .sched .none 64 64 16 with w := filled 16 0xffffffff })
      (fun t => Store.read t.w 16 = some 0x203ffffc ∧ t.t = some 17 ∧ t.phase = .sched) = true := by decide

/-- The last word of the schedule of "abc" (V23). -/
theorem test_wexp_last :
    shows (exec .wexp { mk .sched .len 64 3 63 with
        w := [(47, 0x065c43da), (48, 0xfb3e89cb), (56, 0xef57b9cd), (61, 0x668b2ff8)] })
      (fun t => Store.read t.w 63 = some 0x12b1edeb ∧ t.t = some 0 ∧ t.phase = .vinit) = true := by decide

theorem test_vload :
    shows (exec .vload { mk .vinit .len 64 3 0 with h := initialHash.held })
      (fun t => t.v = initialHash.held ∧ t.t = some 0 ∧ t.phase = .round) = true := by decide

/-- Round 0 of "abc" (V31). -/
theorem test_round_first :
    shows (exec .round { mk .round .len 64 3 0 with v := initialHash.held, w := [(0, 0x61626380)] }) (fun t =>
      t.v = (⟨0x5d6aebcd, 0x6a09e667, 0xbb67ae85, 0x3c6ef372, 0xfa2a4622, 0x510e527f, 0x9b05688c, 0x1f83d9ab⟩ : Oct Word).held ∧
        t.t = some 1) = true := by decide

/-- Round 63 of "abc" (V31). -/
theorem test_round_last :
    shows (exec .round { mk .round .len 64 3 63 with
        v := (⟨0xd39a2165, 0x04d24d6c, 0xb85e2ce9, 0xb6ae8fff, 0xfb121210, 0x948d25b6, 0x961f4894, 0xb21bad3d⟩ : Oct Word).held
        w := [(63, 0x12b1edeb)] }) (fun t =>
      t.v = (⟨0x506e3058, 0xd39a2165, 0x04d24d6c, 0xb85e2ce9, 0x5ef50f24, 0xfb121210, 0x948d25b6, 0x961f4894⟩ : Oct Word).held ∧
        t.t = some 0 ∧ t.phase = .fold) = true := by decide

/-- FOLD of "abc" (V31). -/
theorem test_fold :
    shows (exec .fold { mk .fold .len 64 3 0 with
        h := initialHash.held
        v := (⟨0x506e3058, 0xd39a2165, 0x04d24d6c, 0xb85e2ce9, 0x5ef50f24, 0xfb121210, 0x948d25b6, 0x961f4894⟩ : Oct Word).held })
      (fun t => t.h = abcDigest.held ∧ t.phase = .done ∧ t.v = Oct.noValue ∧ t.buf = []) = true := by decide

/-- FOLD drops the carry (V34); with `PS = ZERO` the padding goes on (V70). -/
theorem test_fold_wraps :
    shows (exec .fold { mk .fold .zero 64 56 0 with
        h := (⟨0xffffffff, 0x80000000, 0, 0, 0, 0, 0, 0⟩ : Oct Word).held
        v := (⟨0x00000001, 0x80000000, 0, 0, 0, 0, 0, 0⟩ : Oct Word).held })
      (fun t => t.h = (⟨0, 0, 0, 0, 0, 0, 0, 0⟩ : Oct Word).held ∧ t.phase = .pad) = true := by decide

/-! ### Faults, and the step around an instruction -/

/-- A read of a cell without a value is a fault, never a zero (00_scope.md R17). -/
theorem test_read_of_no_value :
    exec .vload { mk .vinit .len 64 3 0 with h := Oct.noValue } = .fault (.readNoValue .h) := rfl

/-- The one combination that no rule gives a step (93_implementation_defined.md I15). -/
theorem test_stuck : step (mk .pad .none 64 64 0) = .fault .stuck := rfl

/-- A micro-operation is run only where it is selected. -/
theorem test_not_selected : exec .fold (mk .absorb .none 64 64 0) = .fault .notSelected := rfl

/-- Reset in the middle of a block, with a command waiting (P7). -/
theorem test_reset_mid_block :
    shows (step { mk .sched .none 64 64 5 with w := filled 5 0x61616161, host := [.issue 0x400 []], resetPin := [true] })
      (fun t => t.toCells = Cells.reset ∧ t.responses = [] ∧ t.host = []) = true := by decide

/-- A command waits while the core is busy (40_commands.md R90). -/
theorem test_command_waits :
    shows (step { mk .absorb .none 64 64 0 with host := [.issue 0x300 []] })
      (fun t => t.phase = .sched ∧ t.host = [.issue 0x300 []] ∧ t.responses = []) = true := by decide

/-- The first error ends an expansion (40_commands.md R97). -/
theorem test_expansion_stops :
    shows (step { State.reset with host := [.issue 0x261 [0x262, 0x263], .silent] })
      (fun t => t.responses = [0x200] ∧ t.host = [.silent]) = true := by decide

/-- A DIGEST stopped by ERR(SEQUENCE) reports that error and no data (40_commands.md R98, 60_exceptions.md R200). -/
theorem test_digest_reports_its_error :
    digestResult [0x200] = .stopped 0x200 ∧ digestResult [0x0ad] = .pending ∧ hexResult [0x200] = .stopped 0x200 := by decide

/-- The lines before and after a HASH that the host refuses issue their commands (log entry 17). -/
theorem test_refused_hash_issues_nothing (m : List Byte) (h : 2 ^ 61 ≤ m.length) :
    scriptMoves [.init, .hash m, .finalize] = [.issue 0x100 [], .issue 0x300 []] := by
  simp only [scriptMoves, List.flatMap_cons, ScriptLine.issued, ScriptLine.moves, if_neg (Nat.not_lt.mpr h)]; rfl

/-- Lines as 30_encoding.md R85 lists them. -/
theorem test_script_lines :
    parseLine ['U', 'P', 'D', 'A', 'T', 'E', ' ', '\'', 'a', '\''] = some (some (.update 0x61)) ∧
    parseLine ['H', 'A', 'S', 'H', ' ', '"', '"', ' ', '#'] = some (some (.hash [])) ∧
    parseLine ['U', 'P', 'D', 'A', 'T', 'E', 'S', ' ', '0', 'x', 'f', 'f', ' ', '7'] = some (some (.updates [0xff, 7])) ∧
    parseLine ['R', 'D', 'D', 'I', 'G', 'E', 'S', 'T', ' ', '3', '2'] = none := by decide

/-- What the model does not read as a line (log entry 17). -/
theorem test_script_lines_read_narrowly :
    parseLine ['U', 'P', 'D', 'A', 'T', 'E', '\'', 'a', '\''] = none ∧ parseLine ['H', 'A', 'S', 'H'] = none ∧
    parseLine ['U', 'P', 'D', 'A', 'T', 'E', ' ', '0', 'x', '1'] = none ∧
    parseLine ['U', 'P', 'D', 'A', 'T', 'E', ' ', '0', '0', '7'] = none := by decide

/-- An instruction placed with `withFetchWord` is the next one run (log entry 13). -/
theorem test_withFetchWord :
    shows (step (State.reset.withFetchWord 16 0x100)) (fun t => t.phase = .absorb ∧ t.responses = [0x000]) = true ∧
    shows (step (State.reset.withFetchWord 24 0x120c0)) (fun t => Store.read t.buf 3 = some 0x80) = true := by decide

/-! ### Witnesses: the hypotheses of each statement, met together, clause by clause -/

theorem test_witness_ModularAdditionWraps : ([1, 2] : List Word).Perm [2, 1] := List.Perm.swap 2 1 []

theorem test_witness_RotateIsCircularAndShiftZeroFills :
    (1 ≤ 1 ∧ 1 ≤ 31 ∧ 0 < 32 ∧ 32 - 1 ≤ 31) ∧ (1 ≤ 31 ∧ 31 ≤ 31 ∧ 31 < 32 ∧ 32 - 31 ≤ 1) := by decide

theorem test_witness_BytesAndWordsAreBigEndian : 0 < 4 ∧ 3 < 4 ∧ 0 < 8 ∧ 7 < 8 := by decide

theorem test_witness_ScheduleMixingBits : 0 < 32 ∧ 31 < 32 := by decide

theorem test_witness_RoundMixingBits : 0 < 32 ∧ 31 < 32 := by decide

theorem test_witness_PadZeroCountIsLeast :
    (0 + 1 + 55) % 64 = 56 ∧ 55 % 64 ≤ 55 ∧ 56 ≤ 56 % 64 ∧ 0 % 64 = 0 ∧ 65 % 64 = 1 ∧ 127 % 64 = 63 := by decide

theorem test_witness_PaddedLengthIsNextMultipleOf64 :
    ([0x61] : List Byte).length < 2 ^ 61 ∧ 64 % 64 = 0 ∧ ([0x61] : List Byte).length + 9 ≤ 64 ∧
    ([0x61] : List Byte).length ∈ [0, 1, 3, 55] ∧ (List.replicate 56 (0 : Byte)).length ∈ [56, 63, 64, 119] ∧
    (List.replicate 120 (0 : Byte)).length = 120 := by
  simp only [List.length_replicate]; decide

theorem test_witness_PaddedMessageLayout :
    ([0x61] : List Byte).length < 2 ^ 61 ∧ 64 % 64 = 0 ∧ ([0x61] : List Byte).length + 9 ≤ 64 ∧
    0 < ([0x61] : List Byte).length ∧ ([0x61] : List Byte).length < 2 ∧ 2 ≤ ([0x61] : List Byte).length + padZeros 1 ∧
    7 < 8 := by decide

theorem test_witness_DigestExistsUnlessLengthOverflows :
    2 ^ 61 ≤ (List.replicate (2 ^ 61) (0 : Byte)).length ∧ (List.replicate (2 ^ 61 - 1) (0 : Byte)).length < 2 ^ 61 := by
  simp only [List.length_replicate]; decide

theorem test_witness_BlocksPartitionThePaddedMessage :
    (List.replicate 128 (0 : Byte)).length % 64 = 0 ∧ 0 < (List.replicate 128 (0 : Byte)).length ∧
    1 < (List.replicate 128 (0 : Byte)).length / 64 ∧ 63 < 64 := by
  simp only [List.length_replicate]; decide

theorem test_witness_ScheduleFollowsRecurrence :
    (List.replicate 64 (0 : Byte)).length = 64 ∧ 15 < 16 ∧ 16 ≤ 16 ∧ 16 < 64 ∧ 16 ≤ 63 ∧ 63 < 64 := by decide

theorem test_witness_DigestBytesAreTheStateBigEndian : digestBytes seed = digestBytes seed := rfl

theorem test_witness_HexIsTwoLowercaseDigitsPerByte :
    0 < ([0x0a] : List Byte).length ∧ (9 : BitVec 4).toNat ≤ 9 ∧ 10 ≤ (10 : BitVec 4).toNat := by decide

theorem test_witness_DecodeUndoesEncode :
    (Instr.rddigest 31).wellFormed = true ∧ decode (.cmd 0x41f) = .ok (.rddigest 31) ∧ decodeCmd 0x2ff = .ok (.update 0xff) ∧
    decodeSV 0x09000 = .ok .blkgoAbsorb := by decide

theorem test_witness_IllegalWordsAreRefusedUnchanged : decodeCmd 0x420 = .error (.indexOutOfRange 0x20) := by decide

/-- One state for each clause, the counts at the ends of their ranges. -/
theorem test_witness_SelectionFollowsPhaseTable :
    (mk .absorb .none 64 64 0).enabled = some .blkgoAbsorb ∧ (mk .absorb .none 63 63 0).enabled = none ∧
    (mk .pad .len 64 3 0).enabled = some .blkgoPad ∧ (mk .pad .none 64 3 0).enabled = none ∧
    (mk .pad .mark 63 63 0).enabled = some .padmark ∧ (mk .pad .zero 55 3 0).enabled = some .padzero ∧
    (mk .pad .zero 56 3 0).enabled = some .padlenFirst ∧ (mk .pad .len 63 3 0).enabled = some .padlenNext ∧
    (mk .sched .len 64 3 15).enabled = some .wload ∧ (mk .sched .len 64 3 16).enabled = some .wexp ∧
    (mk .vinit .len 64 3 0).enabled = some .vload ∧ (mk .round .len 64 3 63).enabled = some .round ∧
    (mk .fold .len 64 3 0).enabled = some .fold ∧ (mk .done .len 0 3 0).enabled = none := by decide

theorem test_witness_SelectionRowsAreDisjoint : decodeSV 0x18010 = .ok .wexp := by decide

theorem test_witness_StatusWordFields :
    State.reset.phase = .uninit ∧ ((mk .absorb .none 63 63 0).cnt = some 63 ∧ (63 : BitVec 7).toNat < 64) ∧
    (mk .absorb .none 64 64 0).cnt = some 64 ∧ (mk .pad .mark 3 3 0).phase = .pad ∧ (mk .sched .len 64 3 0).phase = .sched ∧
    (mk .vinit .len 64 3 0).phase = .vinit ∧ (mk .round .len 64 3 0).phase = .round ∧ (mk .fold .len 64 3 0).phase = .fold ∧
    (mk .done .len 0 3 0).phase = .done ∧ (mk .failed .none 63 3 0).phase = .failed := by decide

/-- An open message with 63 bytes in the buffer meets the invariants. -/
theorem mk_absorb_inv : Inv (mk .absorb .none 63 63 0).toCells :=
  .inr ⟨63, 63, .none, 0, ⟨rfl, rfl, rfl, rfl, rfl, by decide, rfl, by decide⟩,
    ⟨rfl, rfl, ⟨rfl, rfl⟩, fun _ => rfl, by decide⟩⟩

/-- A full buffer meets the invariants, and BLKGO is enabled. -/
theorem mk_full_inv : Inv (mk .absorb .none 64 64 0).toCells :=
  .inr ⟨64, 64, .none, 0, ⟨rfl, rfl, rfl, rfl, rfl, by decide, rfl, by decide⟩,
    ⟨rfl, rfl, ⟨rfl, rfl⟩, by decide, fun _ => by decide⟩⟩

/-- A message with the mark still to be written meets the invariants, and the core is busy. -/
theorem mk_pad_inv : Inv (mk .pad .mark 56 56 0).toCells :=
  .inr ⟨56, 56, .mark, 0, ⟨rfl, rfl, rfl, rfl, rfl, by decide, rfl, by decide⟩,
    ⟨by decide, rfl, ⟨rfl, rfl⟩, fun _ => rfl, by decide⟩⟩

theorem test_witness_ReadyExactlyWhenNothingIsEnabled :
    (Inv (mk .absorb .none 63 63 0).toCells ∧ (mk .absorb .none 63 63 0).ready = true) ∧
    (Inv (mk .absorb .none 64 64 0).toCells ∧ (mk .absorb .none 64 64 0).ready = false) :=
  ⟨⟨mk_absorb_inv, by decide⟩, mk_full_inv, by decide⟩

theorem test_witness_ResetClearsEverythingAndWins :
    ({ mk .sched .none 64 64 5 with resetPin := [true], host := [.issue 0x400 []] } : State).resetPin.head? = some true ∧
    ({ mk .sched .none 64 64 5 with host := [.reset] } : State).host.head? = some .reset := by decide

theorem test_witness_InitOpensMessage :
    State.reset.ready = true ∧ (mk .done .len 0 3 0).ready = true ∧
    shows (exec .init State.reset) (fun _ => true) = true ∧ shows (exec .init (mk .done .len 0 3 0)) (fun _ => true) = true ∧
    (cmdOp 0x101 = 1 ∧ cmdArg 0x101 ≠ 0) := by decide

theorem test_witness_UpdateStoresAndCountsItsByte :
    ((mk .absorb .none 0 0 0).phase = .absorb ∧ (mk .absorb .none 0 0 0).cnt = some 0 ∧ (0 : BitVec 7).toNat < 63 ∧
      (mk .absorb .none 0 0 0).len = some 0 ∧ (0 : BitVec 61) ≠ 0x1fffffffffffffff) ∧
    ((mk .absorb .none 63 63 0).phase = .absorb ∧ (mk .absorb .none 63 63 0).cnt = some 63 ∧ (63 : BitVec 7).toNat = 63 ∧
      (mk .absorb .none 63 63 0).len = some 63 ∧ (mk .absorb .none 63 63 0).ps.isSome ∧ (mk .absorb .none 63 63 0).t.isSome) := by
  decide

theorem test_witness_UpdateBeyondBoundFails :
    ((mk .absorb .none 63 (2 ^ 61 - 1) 0).phase = .absorb ∧ (mk .absorb .none 63 (2 ^ 61 - 1) 0).cnt = some 63 ∧
      (mk .absorb .none 63 (2 ^ 61 - 1) 0).len = some 0x1fffffffffffffff) ∧
    shows (exec (.update 0xaa) (mk .absorb .none 63 (2 ^ 61 - 1) 0)) (fun t => t.responses = [0x100] ∧ rspCode 0x100 = 1) = true := by
  decide

theorem test_witness_FinalizeStartsPadding :
    ((mk .absorb .none 63 63 0).phase = .absorb ∧ (mk .absorb .none 63 63 0).cnt = some 63 ∧ (63 : BitVec 7).toNat < 64 ∧
      (mk .absorb .none 63 63 0).t.isSome) ∧ (cmdOp 0x3ff = 3 ∧ cmdArg 0x3ff ≠ 0) := by decide

theorem test_witness_RddigestAnswersDigestByte :
    ((mk .done .len 0 3 0).phase = .done ∧ (mk .done .len 0 3 0).h = seed.held ∧ (31 : Byte).toNat < 32) ∧
    ((mk .done .len 0 3 0).ready = true ∧ 32 ≤ (32 : Byte).toNat) := by decide

theorem test_witness_LegalityByPhase :
    ((mk .absorb .none 5 5 0).ready = true ∧ (mk .absorb .none 5 5 0).len.isSome ∧ (mk .absorb .none 5 5 0).len ≠ some 0x1fffffffffffffff) ∧
    ((mk .absorb .none 63 (2 ^ 61 - 1) 0).ready = true ∧ (mk .absorb .none 63 (2 ^ 61 - 1) 0).len = some 0x1fffffffffffffff) ∧
    ((mk .done .len 0 3 0).ready = true ∧ AllHeld (mk .done .len 0 3 0).h ∧ (mk .done .len 0 3 0).phase ≠ .absorb) ∧
    (Instr.isCommand .init = true ∧ (mk .absorb .none 64 64 0).ready = false) ∧
    decodeCmd 0x100 = .ok .init ∧ decodeCmd 0x2a5 = .ok (.update 0xa5) ∧ decodeCmd 0x300 = .ok .finalize ∧
    decodeCmd 0x41f = .ok (.rddigest 31) ∧ decodeCmd 0xfff = .error (.reservedOp 15) := by decide

theorem test_witness_EveryAnswerIsOneResponseWord :
    (mk .done .len 0 3 0).ready = true ∧ decodeCmd 0x403 = .ok (.rddigest 3) ∧
    shows (acceptWord 0x403 (mk .done .len 0 3 0)) (fun t => t.responses = [0x001] ∧ rspCode 0x001 = 0) = true ∧
    shows (acceptWord 0x300 (mk .done .len 0 3 0)) (fun t => t.responses = [0x200] ∧ rspCode 0x200 ≠ 0) = true := by decide

theorem test_witness_CommandsLeaveTheRestAlone :
    Instr.isCommand .finalize = true ∧ shows (exec .finalize (mk .absorb .none 5 5 0)) (fun _ => true) = true ∧
    shows (exec .finalize (mk .absorb .none 64 64 0)) (fun _ => true) = true ∧ (mk .absorb .none 64 64 0).ready = false ∧
    shows (exec (.rddigest 0) (mk .done .len 0 3 0)) (fun _ => true) = true ∧
    (shows (exec (.update 7) (mk .absorb .none 5 5 0)) (fun t => t.responses = [0x000]) = true ∧
      (mk .absorb .none 5 5 0).cnt = some 5 ∧ (mk .absorb .none 5 5 0).ready = true) ∧
    shows (exec (.update 7) (mk .done .len 0 3 0)) (fun t => t.responses ≠ [0x000]) = true := by decide

theorem test_witness_PadmarkWritesMark :
    ((mk .pad .mark 63 63 0).phase = .pad ∧ (mk .pad .mark 63 63 0).ps = some .mark ∧ (mk .pad .mark 63 63 0).cnt = some 63 ∧
      (63 : BitVec 7).toNat < 64 ∧ (mk .pad .mark 63 63 0).t = some 0) ∧
    ((mk .absorb .none 63 63 0).phase = .absorb ∧ (mk .absorb .none 63 63 0).cnt = some 63 ∧ (mk .absorb .none 63 63 0).t = some 0 ∧
      shows (exec .finalize (mk .absorb .none 63 63 0)) (fun _ => true) = true) := by decide

/-- `CNT` at 0, at 55 and 63, where another micro-operation follows. -/
theorem test_witness_PadzeroWritesZero :
    ∀ n ∈ [0, 55, 57, 63], (mk .pad .zero n 3 0).phase = .pad ∧ (mk .pad .zero n 3 0).ps = some .zero ∧
      (mk .pad .zero n 3 0).cnt = some (BitVec.ofNat 7 n) ∧ (BitVec.ofNat 7 n).toNat < 64 ∧ BitVec.ofNat 7 n ≠ 56 ∧
      (mk .pad .zero n 3 0).t = some 0 := by decide

theorem test_witness_PadlenWritesLengthByte :
    ((mk .pad .zero 56 3 0).phase = .pad ∧ (mk .pad .zero 56 3 0).cnt = some 56 ∧ (mk .pad .zero 56 3 0).len = some 3 ∧
      (mk .pad .zero 56 3 0).t = some 0 ∧ (mk .pad .zero 56 3 0).ps = some .zero) ∧
    ((mk .pad .len 63 3 0).phase = .pad ∧ (mk .pad .len 63 3 0).cnt = some 63 ∧ (mk .pad .len 63 3 0).len = some 3 ∧
      (mk .pad .len 63 3 0).t = some 0 ∧ (mk .pad .len 63 3 0).ps = some .len ∧ 56 ≤ (63 : BitVec 7).toNat) := by decide

theorem test_witness_BlkgoStartsTheSchedule :
    ((mk .absorb .none 64 64 0).cnt = some 64 ∧ (mk .absorb .none 64 64 0).ps = some .none ∧ (mk .absorb .none 64 64 0).t = some 0 ∧
      (mk .absorb .none 64 64 0).phase = .absorb) ∧
    ((mk .pad .len 64 3 0).cnt = some 64 ∧ (mk .pad .len 64 3 0).ps = some .len ∧ (mk .pad .len 64 3 0).t = some 0 ∧
      (mk .pad .len 64 3 0).phase = .pad ∧ PadStage.len ≠ .none) := by decide

/-- The first and the last word of the block. -/
theorem test_witness_WloadCopiesBlockWord :
    ∀ k ∈ [0, 15], (mk .sched .len 64 3 k).phase = .sched ∧ (mk .sched .len 64 3 k).t = some (BitVec.ofNat 6 k) ∧
      (BitVec.ofNat 6 k).toNat < 16 ∧ (mk .sched .len 64 3 k).cnt = some 64 ∧ (mk .sched .len 64 3 k).ps = some .len ∧
      ∀ j ∈ [0, 1, 2, 3], Store.read (mk .sched .len 64 3 k).buf (4 * k + j) = some 0x61 := by decide

/-- The first and the last derived word. -/
theorem test_witness_WexpDerivesScheduleWord :
    ∀ k ∈ [16, 63], (mkFull .sched .len 64 3 k).phase = .sched ∧ (mkFull .sched .len 64 3 k).t = some (BitVec.ofNat 6 k) ∧
      16 ≤ (BitVec.ofNat 6 k).toNat ∧ (mkFull .sched .len 64 3 k).cnt = some 64 ∧ (mkFull .sched .len 64 3 k).ps = some .len ∧
      ∀ j ∈ [16, 15, 7, 2], Store.read (mkFull .sched .len 64 3 k).w (k - j) = some 0xffffffff := by decide

theorem test_witness_VloadCopiesHashState :
    (mk .vinit .len 64 3 0).phase = .vinit ∧ (mk .vinit .len 64 3 0).h = seed.held ∧ (mk .vinit .len 64 3 0).cnt = some 64 ∧
    (mk .vinit .len 64 3 0).ps = some .len ∧ (mk .vinit .len 64 3 0).t = some 0 := by decide

/-- The first and the last round. -/
theorem test_witness_RoundUpdatesWorkingRegisters :
    ∀ k ∈ [0, 63], (mkFull .round .len 64 3 k).phase = .round ∧ (mkFull .round .len 64 3 k).t = some (BitVec.ofNat 6 k) ∧
      (mkFull .round .len 64 3 k).v = seed.held ∧ Store.read (mkFull .round .len 64 3 k).w k = some 0xffffffff ∧
      (mkFull .round .len 64 3 k).cnt = some 64 ∧ (mkFull .round .len 64 3 k).ps = some .len := by decide

/-- Each of the three pad stages with which a block ends, and the one with which none does. -/
theorem test_witness_FoldAddsAndEndsTheBlock :
    (∀ p ∈ [PadStage.none, .zero, .len], (mkFull .fold p 64 64 0).phase = .fold ∧ (mkFull .fold p 64 64 0).h = seed.held ∧
      (mkFull .fold p 64 64 0).v = seed.held ∧ (mkFull .fold p 64 64 0).cnt = some 64 ∧ (mkFull .fold p 64 64 0).ps = some p ∧
      (mkFull .fold p 64 64 0).t = some 0 ∧ p ≠ .mark) ∧
    ((mkFull .fold .mark 64 64 0).enabled = some .fold ∧ (mkFull .fold .mark 64 64 0).h = seed.held ∧
      (mkFull .fold .mark 64 64 0).v = seed.held ∧ (mkFull .fold .mark 64 64 0).ps = some .mark) := by decide

/-- Every micro-operation in a state in which it runs; the written places are the last ones that its rule can write. -/
theorem test_witness_MicroOpsLeaveTheRestAlone :
    (∀ e ∈ [(Instr.blkgoAbsorb, mk .absorb .none 64 64 0), (.blkgoPad, mk .pad .len 64 3 0), (.padmark, mk .pad .mark 63 63 0),
        (.padzero, mk .pad .zero 63 3 0), (.padlenFirst, mk .pad .zero 56 3 0), (.padlenNext, mk .pad .len 63 3 0),
        (.wload, mk .sched .len 64 3 15), (.wexp, mkFull .sched .len 64 3 63), (.vload, mk .vinit .len 64 3 0),
        (.round, mkFull .round .len 64 3 63), (.fold, mkFull .fold .len 64 3 0)],
      e.1.isCommand = false ∧ shows (exec e.1 e.2) (fun _ => true) = true) ∧
    (mk .pad .mark 63 63 0).cnt = some 63 ∧ (mkFull .sched .len 64 3 63).t = some 63 := by decide

theorem test_witness_StepRunsTheDecodedInstruction :
    ((mk .absorb .none 64 64 0).resetAsserted = false ∧ (mk .absorb .none 64 64 0).enabled = some .blkgoAbsorb) ∧
    (let s : State := { mk .absorb .none 5 5 0 with host := [.issue 0x2a5 [0x300]] }
     s.resetAsserted = false ∧ s.enabled = none ∧ s.ready = true ∧ decodeCmd 0x2a5 = .ok (.update 0xa5) ∧
      shows (acceptWord 0x2a5 { s with host := [], resetPin := s.resetPin.tail }) (fun _ => true) = true) ∧
    (let s : State := { mk .absorb .none 5 5 0 with host := [.issue 0xfff [0x300]] }
     s.resetAsserted = false ∧ s.enabled = none ∧ s.ready = true ∧ decodeCmd 0xfff = .error (.reservedOp 15)) ∧
    (let s : State := { mk .done .len 0 3 0 with h := Oct.noValue, host := [.issue 0x41f []] }
     s.resetAsserted = false ∧ s.enabled = none ∧ s.ready = true ∧
      stopsWith (acceptWord 0x41f { s with host := [], resetPin := s.resetPin.tail }) (.readNoValue .h) = true) ∧
    (let s : State := { State.reset with host := [.silent] }
     s.resetAsserted = false ∧ s.enabled = none ∧ s.ready = true) := by decide

theorem test_witness_WaitingCommandIsKept :
    let s : State := { mk .absorb .none 64 64 0 with host := [.issue 0x300 []] }
    s.enabled = some .blkgoAbsorb ∧ s.resetAsserted = false ∧ shows (step s) (fun _ => true) = true := by decide

theorem test_witness_PhaseChangesOnlyAsTabled :
    (mk .absorb .none 64 64 0).resetAsserted = false ∧ shows (step (mk .absorb .none 64 64 0)) (fun t => t.phase ≠ .absorb) = true := by
  decide

theorem test_witness_FailedIsLeftOnlyByInitOrReset :
    (mk .failed .none 63 (2 ^ 61 - 1) 0).phase = .failed ∧ (0x300 : CmdWord) ≠ 0x100 ∧ decodeCmd 0x300 = .ok .finalize ∧
    decodeCmd 0x7ff = .error (.reservedOp 7) ∧
    (let s : State := { mk .failed .none 63 (2 ^ 61 - 1) 0 with host := [.issue 0x100 []] }
     shows (step s) (fun t => t.toCells ≠ s.toCells) = true) := by decide

theorem test_witness_DigestStaysUntilInitOrReset :
    let s : State := { mk .done .len 0 3 0 with host := [.issue 0x403 []] }
    s.phase = .done ∧ s.resetAsserted = false ∧ s.host.head? ≠ some (.issue 0x100 []) ∧
    shows (step s) (fun t => t.responses = [0x001] ∧ rspData 0x001 ≠ 0) = true := by decide

theorem test_witness_ExpansionStopsAtFirstError :
    (let s : State := { State.reset with host := [.issue 0x261 [0x262], .silent] }
     s.resetAsserted = false ∧ s.ready = true ∧ shows (step s) (fun t => t.responses = [0x200] ∧ rspCode 0x200 ≠ 0) = true) ∧
    (let s : State := { State.reset with host := [.issue 0x100 [0x300], .silent] }
     s.resetAsserted = false ∧ s.ready = true ∧ shows (step s) (fun t => t.responses = [0x000] ∧ rspCode 0x000 = 0) = true) ∧
    ((∀ x ∈ [(0x0ad : RspWord), 0x000], rspCode x = 0) ∧ rspCode 0x300 ≠ 0) ∧
    (let s : State := { State.reset with host := .issue 0x400 digestWords.tail :: [.silent] }
     s.resetAsserted = false ∧ s.ready = true ∧ s.phase ≠ .done ∧ s.host = ScriptLine.digest.issued ++ [.silent]) := by
  decide

theorem test_witness_InvariantIsKeptByEveryStep :
    Inv (mk .absorb .none 64 64 0).toCells ∧ ∃ t, step (mk .absorb .none 64 64 0) = .next t := ⟨mk_full_inv, _, rfl⟩

theorem test_witness_InvariantStatesNeverFault :
    Inv (mk .pad .mark 56 56 0).toCells ∧ Reachable State.reset := ⟨mk_pad_inv, [], [], 0, rfl⟩

theorem test_witness_StorageStaysCanonical :
    Memory.wf (mkFull .sched .len 64 3 63).buf = true ∧ Store.wf 64 (mkFull .sched .len 64 3 63).w = true ∧
    shows (step (mkFull .sched .len 64 3 63)) (fun _ => true) = true := by decide

/-- One state for each clause. -/
theorem test_witness_ReadOfNoValueFaults :
    ((mk .sched .len 64 3 15).enabled = some .wload ∧ (mk .sched .len 64 3 15).t = some 15 ∧ 3 < 4 ∧
      Store.read ({ mk .sched .len 64 3 15 with buf := filled 63 0 } : State).buf (4 * 15 + 3) = none) ∧
    ((mk .sched .len 64 3 63).enabled = some .wexp ∧ (mk .sched .len 64 3 63).t = some 63 ∧ 2 ∈ [16, 15, 7, 2] ∧
      Store.read (mk .sched .len 64 3 63).w (63 - 2) = none) ∧
    ((Oct.noValue : Oct (Option Word)).get 7 = none ∧
      ({ mk .vinit .len 64 3 0 with h := Oct.noValue } : State).enabled = some .vload ∧
      ({ mk .fold .len 64 3 0 with h := Oct.noValue } : State).enabled = some .fold) ∧
    ((mk .round .len 64 3 0).v.get 7 = none ∧ (mk .round .len 64 3 0).enabled = some .round) ∧
    ((mk .fold .len 64 3 0).v.get 7 = none ∧ (mk .fold .len 64 3 0).enabled = some .fold ∧ AllHeld (mk .fold .len 64 3 0).h) ∧
    (let s : State := { mk .round .len 64 3 63 with v := seed.held }
     s.enabled = some .round ∧ AllHeld s.v ∧ s.t = some 63 ∧ Store.read s.w 63 = none) ∧
    (({ mk .pad .zero 56 3 0 with len := none } : State).enabled = some .padlenFirst ∧
      ({ mk .pad .len 63 3 0 with len := none } : State).enabled = some .padlenNext ∧
      ({ mk .absorb .none 63 3 0 with len := none } : State).phase = .absorb ∧
      ({ mk .absorb .none 63 3 0 with len := none } : State).ready = true) ∧
    (let s : State := { mk .done .len 0 3 0 with h := Oct.noValue }
     s.phase = .done ∧ (31 : Byte).toNat < 32 ∧ s.h.toList[(31 : Byte).toNat / 4]? = some none) := by decide

theorem test_witness_BlockIsCompressedInto131Steps :
    (let s := mk .absorb .none 64 64 0
     s.enabled = some .blkgoAbsorb ∧ s.h = seed.held ∧ s.ps = some .none ∧ PadStage.none ≠ .mark ∧
      (∀ i < 64, (Store.read s.buf i).isSome = true) ∧ NoReset s) ∧
    (let s := mk .pad .len 64 3 0
     s.enabled = some .blkgoPad ∧ s.h = seed.held ∧ s.ps = some .len ∧ PadStage.len ≠ .mark ∧
      (∀ i < 64, (Store.read s.buf i).isSome = true) ∧ NoReset s) :=
  ⟨⟨by decide, rfl, rfl, by decide, by decide, by decide, by decide⟩, by decide, rfl, rfl, by decide, by decide, by decide, by decide⟩

/-- The remainders at the ends of the three ranges. -/
theorem test_witness_FinalizationTakesTheStatedSteps :
    ∀ r ∈ [0, 55, 56, 62, 63], (mk .pad .mark r (64 + r) 0).phase = .pad ∧ (mk .pad .mark r (64 + r) 0).ps = some .mark ∧
      (mk .pad .mark r (64 + r) 0).cnt = some (BitVec.ofNat 7 r) ∧ (mk .pad .mark r (64 + r) 0).len = some (BitVec.ofNat 61 (64 + r)) ∧
      (BitVec.ofNat 7 r).toNat = (BitVec.ofNat 61 (64 + r)).toNat % 64 ∧ (mk .pad .mark r (64 + r) 0).t = some 0 ∧
      AllHeld (mk .pad .mark r (64 + r) 0).h ∧ Store.filledTo (BitVec.ofNat 7 r).toNat (mk .pad .mark r (64 + r) 0).buf ∧
      ((∀ b ∈ (mk .pad .mark r (64 + r) 0).resetPin, b = false) ∧ HostMove.reset ∉ (mk .pad .mark r (64 + r) 0).host) := by decide

theorem test_witness_BusyCoreBecomesReady :
    Inv (mk .pad .mark 56 56 0).toCells ∧ (mk .pad .mark 56 56 0).ready = false ∧ NoReset (mk .pad .mark 56 56 0) :=
  ⟨mk_pad_inv, by decide, by decide, by decide⟩

theorem test_witness_HashComputesSha256 :
    ∃ s : State, ([0x61] : List Byte).length < 2 ^ 61 ∧ s.ready = true ∧ (∀ b ∈ s.resetPin, b = false) ∧
      (ScriptLine.hash [0x61]).moves = .ok s.host :=
  ⟨{ mk .done .len 0 3 0 with host := [.issue 0x100 ([0x261, 0x300] ++ (List.range 32).map (fun j => 0x400 + BitVec.ofNat 12 j))] },
    by decide, by decide, by decide, rfl⟩

theorem test_witness_ChunkBoundariesDoNotMatter :
    ([[], [0x61], [0x62, 0x63]] : List (List Byte)).flatten.length < 2 ^ 61 := by decide

theorem test_witness_CoresAreIndependent :
    ((System.reset 2).cores[1]? = some State.reset ∧ (∃ t, step State.reset = .next t) ∧ step (mk .pad .none 64 64 0) = .fault .stuck ∧
      (System.mk [State.reset, mk .pad .none 64 64 0]).cores[1]? = some (mk .pad .none 64 64 0)) ∧
    (System.reset 2).cores[2]? = none ∧
    ∃ b c : System, 0 ≠ 1 ∧ (System.reset 2).stepCore 0 = .next b ∧ b.stepCore 1 = .next c :=
  ⟨⟨rfl, ⟨_, rfl⟩, rfl, rfl⟩, rfl, _, _, by decide, rfl, rfl⟩

theorem test_witness_ResponsesShowOnlyPhaseAndDigest :
    let s := mk .done .len 0 3 0
    let s' := { mk .done .zero 5 9 7 with v := seed.held }
    s.ready = true ∧ s'.ready = true ∧ s.phase = s'.phase ∧ s.h = s'.h ∧
    (s.len = some 0x1fffffffffffffff ↔ s'.len = some 0x1fffffffffffffff) ∧
    shows (acceptWord 0x41f s) (fun _ => true) = true ∧ shows (acceptWord 0x41f s') (fun _ => true) = true := by decide

end Sys2Proof.Tests
end

section
/-! The laws of the value domain's operations (00_scope.md section 4): addition modulo `2^32` over lists, the rotation and
the shift by value and by bit, and the big-endian order of bytes; with the three statements about them. -/

namespace Sys2Proof.Machine

/-! ### Addition modulo `2^32` (R10) -/

/-- A sum carried along a list is the sum of the values modulo `2^32`, whatever it starts from. -/
theorem toNat_foldl_add32 (xs : List Word) (x : Word) :
    (xs.foldl add32 x).toNat = (x.toNat + (xs.map BitVec.toNat).sum) % 2 ^ 32 := by
  induction xs generalizing x with
  | nil => simp [Nat.mod_eq_of_lt x.isLt]
  | cons y ys ih => simp [ih, Nat.add_assoc]

/-- The order of the operands does not matter. -/
theorem foldl_add32_perm {xs ys : List Word} (h : xs.Perm ys) (x : Word) : xs.foldl add32 x = ys.foldl add32 x := by
  apply BitVec.eq_of_toNat_eq
  rw [toNat_foldl_add32, toNat_foldl_add32, (h.map BitVec.toNat).sum_eq]

/-! ### Rotation and shift (R11, R12) -/

/-- For the amounts of R11 the model's rotation is the library's. -/
theorem rotr_eq_rotateRight (x : Word) {n : Nat} (h : n < 32) : rotr x n = x.rotateRight n := by
  rw [BitVec.rotateRight_def, Nat.mod_eq_of_lt h, rotr]

theorem toNat_rotr (x : Word) (n : Nat) :
    (rotr x n).toNat = ((x.toNat >>> n) ||| (x.toNat <<< (32 - n))) % 2 ^ 32 := by
  have hright : x.toNat >>> n < 2 ^ 32 := Nat.lt_of_le_of_lt (Nat.shiftRight_le _ _) x.isLt
  rw [rotr, BitVec.toNat_or, BitVec.toNat_ushiftRight, BitVec.toNat_shiftLeft, Nat.or_mod_two_pow,
    Nat.mod_eq_of_lt hright]

/-- Rotation moves bit `(i + n) mod 32` to place `i`. -/
theorem getLsbD_rotr (x : Word) {n i : Nat} (hn : n < 32) (hi : i < 32) :
    (rotr x n).getLsbD i = x.getLsbD ((i + n) % 32) := by
  rw [rotr_eq_rotateRight x hn, BitVec.getLsbD_rotateRight, Nat.mod_eq_of_lt hn]
  by_cases hlow : i < 32 - n
  · have hplace : (i + n) % 32 = n + i := by omega
    simp [hlow, hplace]
  · have hplace : (i + n) % 32 = i - (32 - n) := by omega
    simp [hlow, hi, hplace]

theorem rotr_zero_word (n : Nat) : rotr 0x00000000 n = 0x00000000 := by simp [rotr]

theorem rotr_all_ones {n : Nat} (h : n < 32) : rotr 0xffffffff n = 0xffffffff := by
  have hones : (0xffffffff : Word) = BitVec.allOnes 32 := rfl
  apply BitVec.eq_of_getLsbD_eq
  intro i hi
  rw [getLsbD_rotr _ h hi, hones, BitVec.getLsbD_allOnes, BitVec.getLsbD_allOnes]
  simp [hi, Nat.mod_lt]

theorem toNat_shr (x : Word) (n : Nat) : (shr x n).toNat = x.toNat / 2 ^ n := by
  rw [shr, BitVec.toNat_ushiftRight, Nat.shiftRight_eq_div_pow]

/-- The shift fills the top `n` places with zeros. -/
theorem getLsbD_shr_top (x : Word) {n i : Nat} (h : 32 - n ≤ i) : (shr x n).getLsbD i = false := by
  rw [shr, BitVec.getLsbD_ushiftRight]
  exact BitVec.getLsbD_of_ge _ _ (by omega)

/-! ### Big-endian bytes and words (R14) -/

/-- Appending a byte below a value multiplies it by `2^8` and adds the byte. -/
theorem toNat_append_byte {w : Nat} (x : BitVec w) (b : Byte) : (x ++ b).toNat = x.toNat * 2 ^ 8 + b.toNat := by
  rw [BitVec.toNat_append, ← Nat.shiftLeft_add_eq_or_of_lt b.isLt, Nat.shiftLeft_eq]

theorem toNat_be32 (b0 b1 b2 b3 : Byte) :
    (be32 b0 b1 b2 b3).toNat = b0.toNat * 2 ^ 24 + b1.toNat * 2 ^ 16 + b2.toNat * 2 ^ 8 + b3.toNat := by
  simp only [be32, toNat_append_byte]
  omega

theorem toNat_byteOf (k : Nat) (x : Word) : (byteOf k x).toNat = x.toNat / 2 ^ (24 - 8 * k) % 2 ^ 8 := by
  rw [byteOf, BitVec.extractLsb'_toNat, Nat.shiftRight_eq_div_pow]

theorem toNat_be64 (k : Nat) (v : DWord) : (be64 k v).toNat = v.toNat / 2 ^ (56 - 8 * k) % 2 ^ 8 := by
  rw [be64, BitVec.extractLsb'_toNat, Nat.shiftRight_eq_div_pow]

/-- A word is made again of its four bytes. -/
@[simp] theorem be32_byteOf (x : Word) : be32 (byteOf 0 x) (byteOf 1 x) (byteOf 2 x) (byteOf 3 x) = x := by
  apply BitVec.eq_of_toNat_eq
  have hx := x.isLt
  simp only [toNat_be32, toNat_byteOf]
  omega

end Sys2Proof.Machine

namespace Sys2Proof.Proofs

open Sys2Proof.Machine

/-- Settles O1: the sum of a list by add32 is the sum of the values modulo `2^32`, which no order changes. -/
theorem modularAdditionWraps : Obligations.ModularAdditionWraps := by
  refine ⟨BitVec.toNat_add, fun xs => ?_, fun xs ys h => foldl_add32_perm h 0, BitVec.add_assoc, BitVec.add_comm,
    by decide, by decide, fun x => BitVec.add_zero x⟩
  simpa using toNat_foldl_add32 xs 0

/-- Settles O2: rotation and shift by value and by bit, for every word and every amount from 1 to 31. -/
theorem rotateIsCircularAndShiftZeroFills : Obligations.RotateIsCircularAndShiftZeroFills := by
  refine ⟨fun x n _ hn => ⟨toNat_rotr x n, fun i hi => getLsbD_rotr x (by omega) hi, toNat_shr x n,
    fun i hi => getLsbD_shr_top x hi⟩, by decide, by decide,
    fun n _ hn => ⟨rotr_zero_word n, rotr_all_ones (by omega)⟩, by decide, by decide, by decide⟩

/-- Settles O3: `be32`, `byte_k` and `be64_k` by their values, and the bytes of a word put together again. -/
theorem bytesAndWordsAreBigEndian : Obligations.BytesAndWordsAreBigEndian :=
  ⟨toNat_be32, fun x k _ => toNat_byteOf k x, be32_byteOf, fun v k _ => toNat_be64 k v, fun _ => rfl, by decide, by decide⟩

end Sys2Proof.Proofs
end

section
/-! Where a read of a cell without a value stops a meaning (00_scope.md R17, 10_state.md R38): what a selected
micro-operation and a ready core tell of the sequencer cells, when the wider reads have no value, and the statement. -/

namespace Sys2Proof.Machine

/-- A chain of reads of one kind of cell stops at a missing value if its first value is missing or what follows stops so. -/
theorem need_eq_readNoValue {α : Type} {c : CellName} {v : Option α} {k : α → Outcome}
    (h : ∀ x, v = some x → k x = .fault (.readNoValue c)) : need c v k = .fault (.readNoValue c) := by
  cases v with
  | none => rfl
  | some x => exact h x rfl

/-- Where a micro-operation is selected the three sequencer cells hold values. -/
theorem sequencerCells_of_enabled {c : Cells} {i : Instr} (h : c.enabled = some i) :
    ∃ p n t, c.ps = some p ∧ c.cnt = some n ∧ c.t = some t := by
  unfold Cells.enabled Cells.seqVec at h
  split at h
  · cases h
  · split at h
    · rename_i hv
      split at hv
      · exact ⟨_, _, _, ‹_›, ‹_›, ‹_›⟩
      · cases hv
    · cases h

/-- A ready core in `ABSORB` holds a count below 64. -/
theorem cnt_of_ready_absorb {c : Cells} (hr : c.ready = true) (hp : c.phase = .absorb) :
    ∃ n, c.cnt = some n ∧ n < 64 := by
  unfold Cells.ready at hr
  rw [hp] at hr
  cases hn : c.cnt with
  | none => simp [hn] at hr
  | some n => exact ⟨n, rfl, by simpa [hn] using hr⟩

theorem ready_of_done {c : Cells} (hp : c.phase = .done) : c.ready = true := by simp [Cells.ready, hp]

/-- A word of the buffer has no value if one of its bytes has none. -/
theorem bufRead4_eq_none {m : Memory} {a j : Nat} (hj : j < 4) (h : Store.read m (a + j) = none) :
    bufRead4 m a = none := by
  unfold bufRead4 bufRead1
  split
  · interval_cases j <;> simp_all
  · rfl

/-- Eight cells have no eight values if one of them holds none. -/
theorem Oct.values_eq_none {α : Type} {r : Oct (Option α)} {k : Fin 8} (h : r.get k = none) : r.values = none := by
  cases hv : r.values with
  | none => rfl
  | some x => simp [Oct.values_eq_some.1 hv] at h

theorem Oct.toList_getElem? {α : Type} (r : Oct α) (k : Fin 8) : r.toList[k.val]? = some (r.get k) := by
  fin_cases k <;> rfl

/-- The word of a digest byte `j` is word `j / 4` (46_digest_codec.md R181). -/
theorem digestWordIndex_val {j : Byte} (h : j.toNat < 32) :
    ((j.setWidth 5).extractLsb' 2 3).toFin.val = j.toNat / 4 := by
  simp only [BitVec.val_toFin, BitVec.extractLsb'_toNat, BitVec.toNat_setWidth, Nat.shiftRight_eq_div_pow]
  omega

/-- A digest byte has no value if its word has none. -/
theorem digestCell_eq_none {h : Oct (Option Word)} {j : Byte} (hj : j.toNat < 32)
    (hw : h.toList[j.toNat / 4]? = some none) : digestCell h (j.setWidth 5) = none := by
  rw [← digestWordIndex_val hj, Oct.toList_getElem?, Option.some_inj] at hw
  rw [digestCell, hw, Option.map_none]

/-! ### The meanings that read a missing value -/

variable {s : State}

theorem execWload_of_byte_missing {t : BitVec 6} {j : Nat} (he : s.enabled = some .wload) (ht : s.t = some t) (hj : j < 4)
    (hb : Store.read s.buf (4 * t.toNat + j) = none) : execWload s = .fault (.readNoValue .buf) := by
  rw [execWload, whenEnabled_of he, ht, need_some, bufRead4_eq_none hj hb, need_none]

theorem execWexp_of_word_missing {t : BitVec 6} {j : Nat} (he : s.enabled = some .wexp) (ht : s.t = some t)
    (hj : j ∈ [16, 15, 7, 2]) (hw : Store.read s.w (t.toNat - j) = none) : execWexp s = .fault (.readNoValue .w) := by
  rw [execWexp, whenEnabled_of he, ht, need_some]
  refine need_eq_readNoValue fun w16 h16 => need_eq_readNoValue fun w15 h15 => need_eq_readNoValue fun w7 h7 =>
    need_eq_readNoValue fun w2 h2 => ?_
  have hread : (Store.read s.w (t.toNat - j)).isSome = true := by
    fin_cases hj <;> simp [h16, h15, h7, h2]
  simp [hw] at hread

theorem execVload_of_h_missing {k : Fin 8} (he : s.enabled = some .vload) (hh : s.h.get k = none) :
    execVload s = .fault (.readNoValue .h) := by
  rw [execVload, whenEnabled_of he, Oct.values_eq_none hh, need_none]

theorem execFold_of_h_missing {k : Fin 8} (he : s.enabled = some .fold) (hh : s.h.get k = none) :
    execFold s = .fault (.readNoValue .h) := by
  obtain ⟨p, -, -, hp, -, -⟩ := sequencerCells_of_enabled he
  rw [execFold, whenEnabled_of he, hp, need_some, Oct.values_eq_none hh, need_none]

theorem execFold_of_v_missing {k : Fin 8} (he : s.enabled = some .fold) (hh : AllHeld s.h) (hv : s.v.get k = none) :
    execFold s = .fault (.readNoValue .v) := by
  obtain ⟨p, -, -, hp, -, -⟩ := sequencerCells_of_enabled he
  obtain ⟨hs, hh⟩ := Option.isSome_iff_exists.1 hh
  rw [execFold, whenEnabled_of he, hp, need_some, hh, need_some, Oct.values_eq_none hv, need_none]

theorem execRound_of_v_missing {k : Fin 8} (he : s.enabled = some .round) (hv : s.v.get k = none) :
    execRound s = .fault (.readNoValue .v) := by
  obtain ⟨-, -, t, -, -, ht⟩ := sequencerCells_of_enabled he
  rw [execRound, whenEnabled_of he, ht, need_some, Oct.values_eq_none hv, need_none]

theorem execRound_of_w_missing {t : BitVec 6} (he : s.enabled = some .round) (hv : AllHeld s.v) (ht : s.t = some t)
    (hw : Store.read s.w t.toNat = none) : execRound s = .fault (.readNoValue .w) := by
  obtain ⟨vs, hv⟩ := Option.isSome_iff_exists.1 hv
  rw [execRound, whenEnabled_of he, ht, need_some, hv, need_some, hw, need_none]

/-- Where a count is held, a byte of the length field asks for the length. -/
theorem padLengthByte_of_len_missing {n : BitVec 7} (hn : s.cnt = some n) (hl : s.len = none) :
    padLengthByte s = .fault (.readNoValue .len) := by
  rw [padLengthByte, hn, need_some, hl, need_none]

theorem execPadlenFirst_of_len_missing (he : s.enabled = some .padlenFirst) (hl : s.len = none) :
    execPadlenFirst s = .fault (.readNoValue .len) := by
  obtain ⟨-, n, -, -, hn, -⟩ := sequencerCells_of_enabled he
  rw [execPadlenFirst, whenEnabled_of he, padLengthByte_of_len_missing hn hl]

theorem execPadlenNext_of_len_missing (he : s.enabled = some .padlenNext) (hl : s.len = none) :
    execPadlenNext s = .fault (.readNoValue .len) := by
  obtain ⟨-, n, -, -, hn, -⟩ := sequencerCells_of_enabled he
  rw [execPadlenNext, whenEnabled_of he, padLengthByte_of_len_missing hn hl]

theorem execUpdate_of_len_missing (b : Byte) (hp : s.phase = .absorb) (hr : s.ready = true) (hl : s.len = none) :
    execUpdate b s = .fault (.readNoValue .len) := by
  obtain ⟨n, hn, -⟩ := cnt_of_ready_absorb hr hp
  rw [execUpdate, whenReady_of hr, inPhase_of hp, appendByte, hn, need_some, hl, need_none]

theorem execRddigest_of_word_missing {j : Byte} (hp : s.phase = .done) (hj : j.toNat < 32)
    (hw : s.h.toList[j.toNat / 4]? = some none) : execRddigest j s = .fault (.readNoValue .h) := by
  rw [execRddigest, whenReady_of (ready_of_done hp), if_neg (by omega), inPhase_of hp, digestCell_eq_none hj hw, need_none]

end Sys2Proof.Machine

namespace Sys2Proof.Proofs

open Sys2Proof.Machine

/-- Settles O53: each meaning reaches the read of the missing cell, because what it reads before holds a value. -/
theorem readOfNoValueFaults : Obligations.ReadOfNoValueFaults :=
  ⟨fun _ _ _ he ht hj hb => execWload_of_byte_missing he ht hj hb,
    fun _ _ _ he ht hj hw => execWexp_of_word_missing he ht hj hw,
    fun _ _ hh => ⟨fun he => execVload_of_h_missing he hh, fun he => execFold_of_h_missing he hh⟩,
    fun _ _ hv he => execRound_of_v_missing he hv,
    fun _ _ hv he hh => execFold_of_v_missing he hh hv,
    fun _ _ he hv ht hw => execRound_of_w_missing he hv ht hw,
    fun _ hl => ⟨fun he => execPadlenFirst_of_len_missing he hl, fun he => execPadlenNext_of_len_missing he hl,
      fun b hp hr => execUpdate_of_len_missing b hp hr hl⟩,
    fun _ _ hp hj hw => execRddigest_of_word_missing hp hj hw⟩

end Sys2Proof.Proofs
end

section
/-! Which micro-operation a state selects (30_encoding.md R82, R83): the fields of a sequencer vector, each row's match
said of the four cells, and what an enabled micro-operation, or none, tells of them. -/

namespace Sys2Proof.Machine

/-! ### The sequencer vector, field by field -/

section
variable (p : Phase) (ps : PadStage) (n : BitVec 7) (t : BitVec 6)

@[simp] theorem svT_packSV : svT (packSV p ps n t) = t := BitVec.extractLsb'_append_eq_right

@[simp] theorem svCnt_packSV : svCnt (packSV p ps n t) = n := by
  rw [svCnt, packSV, BitVec.extractLsb'_append_eq_of_le (by decide)]
  exact BitVec.extractLsb'_append_eq_right

@[simp] theorem svPs_packSV : svPs (packSV p ps n t) = ps.code := by
  rw [svPs, packSV, BitVec.extractLsb'_append_eq_of_le (by decide), BitVec.extractLsb'_append_eq_of_le (by decide)]
  exact BitVec.extractLsb'_append_eq_right

@[simp] theorem svPhase_packSV : svPhase (packSV p ps n t) = p.code := by
  rw [svPhase, packSV, BitVec.extractLsb'_append_eq_of_le (by decide), BitVec.extractLsb'_append_eq_of_le (by decide)]
  exact BitVec.extractLsb'_append_eq_left

end

/-- Two vectors are equal if their four fields are. -/
theorem seqVec_eq_iff (v x : SeqVec) :
    v = x ↔ svPhase v = svPhase x ∧ svPs v = svPs x ∧ svCnt v = svCnt x ∧ svT v = svT x := by
  have append_fields (v : SeqVec) : svPhase v ++ svPs v ++ svCnt v ++ svT v = v := by
    simp only [svPhase, svPs, svCnt, svT]
    rw [BitVec.extractLsb'_append_extractLsb'_eq_extractLsb' (by decide),
      BitVec.extractLsb'_append_extractLsb'_eq_extractLsb' (by decide),
      BitVec.extractLsb'_append_extractLsb'_eq_extractLsb' (by decide)]
    simp
  constructor
  · rintro rfl
    exact ⟨rfl, rfl, rfl, rfl⟩
  · rintro ⟨hphase, hps, hcnt, ht⟩
    rw [← append_fields v, ← append_fields x, hphase, hps, hcnt, ht]

/-- A row's match under its mask, field by field. -/
theorem and_eq_iff_fields (v m x : SeqVec) :
    v &&& m = x ↔ svPhase v &&& svPhase m = svPhase x ∧ svPs v &&& svPs m = svPs x ∧
      svCnt v &&& svCnt m = svCnt x ∧ svT v &&& svT m = svT x := by
  rw [seqVec_eq_iff]
  simp only [svPhase, svPs, svCnt, svT, BitVec.extractLsb'_and]

/-- The phase of a code, under the full mask of a row. -/
theorem Phase.code_and_eq_iff (p : Phase) (x : BitVec 4) : p.code &&& 15#4 = x ↔ some p = Phase.ofCode x := by
  revert x; cases p <;> decide

/-- The pad stage of a code, under the full mask of a row. -/
theorem PadStage.code_and_eq_iff (ps : PadStage) (x : BitVec 2) : ps.code &&& 3#2 = x ↔ ps = PadStage.ofCode x := by
  revert x; cases ps <;> decide

/-- `CNT[6] = 0` says that fewer than 64 bytes are in `BUF`. -/
theorem cnt_and_64_eq_zero (n : BitVec 7) : n &&& 64#7 = 0#7 ↔ n.toNat < 64 := by
  revert n; decide

/-- `T[5:4] = 0` says that the schedule's word is one of the first 16. -/
theorem t_and_48_eq_zero (t : BitVec 6) : t &&& 48#6 = 0#6 ↔ t.toNat < 16 := by
  revert t; decide

/-! ### The rows of the selection table -/

/-- The condition of each row, said of the four cells: the table of 30_encoding.md R82 as the masks of R83 have it.
That it is what the rows match is `applies_packSV_iff`. -/
def SelectedWhen (p : Phase) (ps : PadStage) (n : BitVec 7) (t : BitVec 6) : Instr → Prop
  | .blkgoAbsorb => p = .absorb ∧ n = 64
  | .blkgoPad => p = .pad ∧ n = 64
  | .padmark => p = .pad ∧ ps = .mark ∧ n.toNat < 64
  | .padzero => p = .pad ∧ ps = .zero ∧ n.toNat < 64 ∧ n ≠ 56
  | .padlenFirst => p = .pad ∧ ps = .zero ∧ n = 56
  | .padlenNext => p = .pad ∧ ps = .len ∧ n.toNat < 64
  | .wload => p = .sched ∧ t.toNat < 16
  | .wexp => p = .sched ∧ 16 ≤ t.toNat
  | .vload => p = .vinit
  | .round => p = .round
  | .fold => p = .fold
  | .init | .update _ | .finalize | .rddigest _ => False

/-- A row applies to the vector of four cells exactly where its condition holds of them. -/
theorem applies_packSV_iff {r : UopRow} (hr : r ∈ uopRows) (p : Phase) (ps : PadStage) (n : BitVec 7) (t : BitVec 6) :
    r.applies (packSV p ps n t) = true ↔ SelectedWhen p ps n t r.instr := by
  have hcnt : n &&& 127#7 = n := BitVec.and_allOnes
  simp only [uopRows, List.cons_append, List.nil_append, List.mem_cons, List.not_mem_nil, or_false] at hr
  rw [UopRow.applies, Bool.and_eq_true, beq_iff_eq, and_eq_iff_fields, svPhase_packSV, svPs_packSV, svCnt_packSV,
    svT_packSV]
  rcases hr with rfl | rfl | rfl | rfl | rfl | rfl | rfl | rfl | rfl | rfl | rfl
  all_goals
    simp only [RowCond.holds, svCnt_packSV, svT_packSV]
    simp [SelectedWhen, svPhase, svPs, svCnt, svT, hcnt, Phase.code_and_eq_iff, PadStage.code_and_eq_iff, Phase.ofCode,
      PadStage.ofCode, cnt_and_64_eq_zero, t_and_48_eq_zero, and_assoc]

/-- Where a micro-operation is selected the three sequencer cells hold values that its row asks for. -/
theorem selectedWhen_of_enabled {c : Cells} {i : Instr} (h : c.enabled = some i) :
    ∃ p n t, c.ps = some p ∧ c.cnt = some n ∧ c.t = some t ∧ SelectedWhen c.phase p n t i := by
  obtain ⟨p, n, t, hp, hn, ht⟩ := sequencerCells_of_enabled h
  refine ⟨p, n, t, hp, hn, ht, ?_⟩
  simp only [Cells.enabled, Cells.seqVec, hp, hn, ht, decodeSV] at h
  split at h
  · cases h
  · cases hfind : uopRows.find? (fun r => r.applies (packSV c.phase p n t)) with
    | none => simp [hfind, Except.toOption] at h
    | some r =>
      have hi : r.instr = i := by simpa [hfind, Except.toOption] using h
      have happlies : r.applies (packSV c.phase p n t) = true := by simpa using List.find?_some hfind
      exact hi ▸ (applies_packSV_iff (List.mem_of_find?_eq_some hfind) ..).1 happlies

/-- Where a row asks for what the cells hold, some micro-operation is enabled. -/
theorem enabled_ne_none {c : Cells} {i : Instr} {p : PadStage} {n : BitVec 7} {t : BitVec 6} (hp : c.ps = some p)
    (hn : c.cnt = some n) (ht : c.t = some t) (hstage : ¬(c.phase = .pad ∧ p = .none))
    (h : SelectedWhen c.phase p n t i) : c.enabled ≠ none := by
  obtain ⟨r, hr, rfl⟩ : ∃ r ∈ uopRows, r.instr = i := by
    cases i <;> simp [uopRows, SelectedWhen] at h ⊢
  have happlies := (applies_packSV_iff hr c.phase p n t).2 h
  have hstage : ¬(c.phase = .pad ∧ c.ps = some .none) := by simpa [hp] using hstage
  simp only [Cells.enabled, Cells.seqVec, hp, hn, ht, decodeSV] at hstage ⊢
  rw [if_neg hstage]
  cases hfind : uopRows.find? (fun r => r.applies (packSV c.phase p n t)) with
  | none => exact absurd happlies (List.find?_eq_none.1 hfind r hr)
  | some r' => simp [Except.toOption]

end Sys2Proof.Machine
end

section
/-! The invariants of reachable states (10_state.md R37): every instruction keeps them, so a step does, and the two
statements. -/

namespace Sys2Proof

open Machine

variable {s s' : State} {c : Cells} {i : Instr}

/-- A write at the place a counter names fills one place more, as long as the counter does not wrap. -/
theorem filledTo_write_succ {α : Type} {w : Nat} {m : Store α} {k : BitVec w} (x : α)
    (h : Store.filledTo k.toNat m) (hk : k.toNat + 1 < 2 ^ w) :
    Store.filledTo (k + 1).toNat (Store.write m k.toNat x) := by
  have hone : (1 : BitVec w).toNat = 1 := by
    simpa using Nat.mod_eq_of_lt (show 1 < 2 ^ w by omega)
  rw [BitVec.toNat_add_of_lt (by omega), hone]
  exact Store.filledTo_write x h

/-- A schedule without a value is filled to 0. -/
theorem filledTo_zero_of_eq_invalid {α : Type} {m : Store α} (h : m = Store.invalid) : Store.filledTo 0 m :=
  h ▸ Store.filledTo_invalid

/-- Outside `UNINIT` a state with the invariants is that of an open message. -/
theorem Inv.of_phase_ne (h : Inv c) (hp : c.phase ≠ .uninit) : ∃ n l p t, OpenInv c n l p t ∧ PhaseInv c n l p t :=
  h.resolve_left fun hreset => hp (hreset ▸ rfl)

theorem OpenInv.cnt_eq {n n' : BitVec 7} {l : BitVec 61} {p : PadStage} {t : BitVec 6} (h : OpenInv c n l p t)
    (hn : c.cnt = some n') : n' = n :=
  Option.some.inj (hn.symm.trans h.1)

/-- What the invariants and the selecting row say of the cells together. -/
theorem Inv.of_enabled (h : Inv c) (he : c.enabled = some i) :
    ∃ n l p t, OpenInv c n l p t ∧ PhaseInv c n l p t ∧ SelectedWhen c.phase p n t i := by
  obtain ⟨p', n', t', hp', hn', ht', hsel⟩ := selectedWhen_of_enabled he
  rcases h with rfl | ⟨n, l, p, t, hopen, hphase⟩
  · cases hp'
  · obtain ⟨hn, -, hp, ht, -⟩ := id hopen
    cases hp.symm.trans hp'
    cases hn.symm.trans hn'
    cases ht.symm.trans ht'
    exact ⟨_, l, _, _, hopen, hphase, hsel⟩

/-! ### The micro-operations keep the invariants -/

theorem execBlkgoAbsorb_inv (h : Inv s.toCells) (he : execBlkgoAbsorb s = .next s') : Inv s'.toCells := by
  obtain ⟨hen, rfl⟩ := execBlkgoAbsorb_cases he
  obtain ⟨n, l, p, t, ⟨hn, hl, hp, -, hh, hle, hbuf, -⟩, hphase, hsel, hn64⟩ := h.of_enabled hen
  rw [PhaseInv, hsel] at hphase
  obtain ⟨rfl, -, ⟨hv, hw⟩, -, hfull⟩ := hphase
  exact .inr ⟨n, l, .none, 0, ⟨hn, hl, hp, rfl, hh, hle, hbuf, nofun⟩, hn64, nofun, filledTo_zero_of_eq_invalid hw, hv,
    fun _ => hfull (by simp [hn64])⟩

theorem execBlkgoPad_inv (h : Inv s.toCells) (he : execBlkgoPad s = .next s') : Inv s'.toCells := by
  obtain ⟨hen, rfl⟩ := execBlkgoPad_cases he
  obtain ⟨n, l, p, t, ⟨hn, hl, hp, -, hh, hle, hbuf, -⟩, hphase, hsel, hn64⟩ := h.of_enabled hen
  rw [PhaseInv, hsel] at hphase
  obtain ⟨hnone, -, ⟨hv, hw⟩, hmark, -⟩ := hphase
  have hnm : p ≠ .mark := fun hpm => by
    have hrem := hmark hpm
    rw [hn64] at hrem
    simp at hrem
    omega
  exact .inr ⟨n, l, p, 0, ⟨hn, hl, hp, rfl, hh, hle, hbuf, (absurd · hnm)⟩, hn64, hnm,
    filledTo_zero_of_eq_invalid hw, hv, (absurd · hnone)⟩

theorem execWload_inv (h : Inv s.toCells) (he : execWload s = .next s') : Inv s'.toCells := by
  obtain ⟨hen, t, x, ht, -, rfl⟩ := execWload_cases he
  obtain ⟨n, l, p, t', ⟨hn, hl, hp, ht', hh, hle, hbuf, hmark⟩, hphase, hsel, hlt⟩ := h.of_enabled hen
  cases ht.symm.trans ht'
  rw [PhaseInv, hsel] at hphase
  obtain ⟨hn64, hnm, hw, hv, hblocks⟩ := hphase
  refine .inr ⟨n, l, p, t + 1, ⟨hn, hl, hp, rfl, hh, hle, hbuf, hmark⟩, ?_⟩
  simp only [PhaseInv, hsel]
  exact ⟨hn64, hnm, filledTo_write_succ x hw (by omega), hv, hblocks⟩

theorem execWexp_inv (h : Inv s.toCells) (he : execWexp s = .next s') : Inv s'.toCells := by
  obtain ⟨hen, t, w16, w15, w7, w2, ht, -, -, -, -, rfl⟩ := execWexp_cases he
  obtain ⟨n, l, p, t', ⟨hn, hl, hp, ht', hh, hle, hbuf, hmark⟩, hphase, hsel, -⟩ := h.of_enabled hen
  cases ht.symm.trans ht'
  rw [PhaseInv, hsel] at hphase
  obtain ⟨hn64, hnm, hw, hv, hblocks⟩ := hphase
  unfold State.advance
  split
  case isTrue hlt =>
    refine .inr ⟨n, l, p, t + 1, ⟨hn, hl, hp, rfl, hh, hle, hbuf, hmark⟩, ?_⟩
    simp only [PhaseInv, hsel]
    exact ⟨hn64, hnm, filledTo_write_succ _ hw (by bv_omega), hv, hblocks⟩
  case isFalse hlast =>
    have h63 : t.toNat = 63 := by bv_omega
    rw [h63] at hw ⊢
    exact .inr ⟨n, l, p, 0, ⟨hn, hl, hp, rfl, hh, hle, hbuf, (absurd · hnm)⟩, hn64, rfl, Store.filledTo_write _ hw, hv,
      hblocks⟩

theorem execVload_inv (h : Inv s.toCells) (he : execVload s = .next s') : Inv s'.toCells := by
  obtain ⟨hen, hs, -, rfl⟩ := execVload_cases he
  obtain ⟨n, l, p, t, ⟨hn, hl, hp, -, hh, hle, hbuf, hmark⟩, hphase, hsel⟩ := h.of_enabled hen
  have hnm : p ≠ .mark := fun hpm => nomatch hsel.symm.trans (hmark hpm)
  rw [PhaseInv, hsel] at hphase
  obtain ⟨hn64, -, hw, -, hblocks⟩ := hphase
  exact .inr ⟨n, l, p, 0, ⟨hn, hl, hp, rfl, hh, hle, hbuf, (absurd · hnm)⟩, hn64, hw, rfl, hblocks⟩

theorem execRound_inv (h : Inv s.toCells) (he : execRound s = .next s') : Inv s'.toCells := by
  obtain ⟨hen, t, vs, x, -, -, -, rfl⟩ := execRound_cases he
  obtain ⟨n, l, p, t', ⟨hn, hl, hp, -, hh, hle, hbuf, hmark⟩, hphase, hsel⟩ := h.of_enabled hen
  have hsel : s.phase = .round := hsel
  have hnm : p ≠ .mark := fun hpm => nomatch hsel.symm.trans (hmark hpm)
  rw [PhaseInv, hsel] at hphase
  obtain ⟨hn64, hw, -, hblocks⟩ := hphase
  unfold State.advance
  split
  case isTrue =>
    refine .inr ⟨n, l, p, t + 1, ⟨hn, hl, hp, rfl, hh, hle, hbuf, (absurd · hnm)⟩, ?_⟩
    simp only [PhaseInv, hsel]
    exact ⟨hn64, hw, rfl, hblocks⟩
  case isFalse =>
    exact .inr ⟨n, l, p, 0, ⟨hn, hl, hp, rfl, hh, hle, hbuf, (absurd · hnm)⟩, hn64, rfl, hw, rfl, hblocks⟩

theorem execFold_inv (h : Inv s.toCells) (he : execFold s = .next s') : Inv s'.toCells := by
  obtain ⟨hen, p, hs, vs, next, hp, -, -, hnext, rfl⟩ := execFold_cases he
  obtain ⟨n, l, p', t, ⟨-, hl, hp', -⟩, hphase, hsel⟩ := h.of_enabled hen
  cases hp.symm.trans hp'
  rw [PhaseInv, hsel] at hphase
  obtain ⟨-, -, -, -, hblocks⟩ := hphase
  have hopen (hnm : p ≠ .mark) : OpenInv (s.endBlock (Oct.zip add32 hs vs) next).toCells 0 l p 0 :=
    ⟨rfl, hl, hp, rfl, rfl, by decide, rfl, (absurd · hnm)⟩
  cases p with
  | none =>
    cases hnext
    exact .inr ⟨0, l, .none, 0, hopen nofun, rfl, rfl, ⟨rfl, rfl⟩, fun _ => (hblocks rfl).1.symm, nofun⟩
  | zero =>
    cases hnext
    exact .inr ⟨0, l, .zero, 0, hopen nofun, nofun, rfl, ⟨rfl, rfl⟩, nofun, nofun⟩
  | len =>
    cases hnext
    exact .inr ⟨0, l, .len, 0, hopen nofun, rfl, rfl, rfl, ⟨rfl, rfl⟩⟩
  | mark => cases hnext

/-- One padding byte keeps the first row of 10_state.md R37: `CNT` stays at most 64 and `BUF` filled up to it. -/
theorem OpenInv.bufWrite {n : BitVec 7} {l : BitVec 61} {p : PadStage} {t : BitVec 6} (h : OpenInv s.toCells n l p t)
    (hlt : n.toNat < 64) (b : Byte) (q : PadStage) (hq : q = .mark → s.phase = .pad) :
    OpenInv { s.bufWrite n b with ps := some q }.toCells (n + 1) l q t := by
  obtain ⟨-, hl, -, ht, hh, -, hbuf, -⟩ := h
  exact ⟨rfl, hl, rfl, ht, hh, by bv_omega, filledTo_write_succ b hbuf (by omega), hq⟩

/-- What the three micro-operations of the Padder share: a byte is written in `PAD`, and the next stage is `ZERO`, or
`LEN` from place 56 on. -/
theorem padByte_inv {n : BitVec 7} {l : BitVec 61} {p : PadStage} {t : BitVec 6} (hopen : OpenInv s.toCells n l p t)
    (hphase : PhaseInv s.toCells n l p t) (hpad : s.phase = .pad) (hlt : n.toNat < 64) (b : Byte) {q : PadStage}
    (hq : q = .zero ∨ q = .len ∧ 56 ≤ n.toNat) : Inv { s.bufWrite n b with ps := some q }.toCells := by
  rw [PhaseInv, hpad] at hphase
  obtain ⟨-, ht0, hidle, -, -⟩ := hphase
  refine .inr ⟨n + 1, l, q, t, hopen.bufWrite hlt b q fun _ => hpad, ?_⟩
  simp only [PhaseInv, State.bufWrite_phase, hpad]
  rcases hq with rfl | ⟨rfl, h56⟩
  · exact ⟨nofun, ht0, hidle, nofun, nofun⟩
  · exact ⟨nofun, ht0, hidle, nofun, fun _ => by bv_omega⟩

theorem execPadmark_inv (h : Inv s.toCells) (he : execPadmark s = .next s') : Inv s'.toCells := by
  obtain ⟨hen, n, hn, rfl⟩ := execPadmark_cases he
  obtain ⟨n', l, p, t, hopen, hphase, hsel, -, hlt⟩ := h.of_enabled hen
  obtain rfl := hopen.cnt_eq hn
  exact padByte_inv hopen hphase hsel hlt _ (.inl rfl)

theorem execPadzero_inv (h : Inv s.toCells) (he : execPadzero s = .next s') : Inv s'.toCells := by
  obtain ⟨hen, n, hn, rfl⟩ := execPadzero_cases he
  obtain ⟨n', l, p, t, hopen, hphase, hsel, hps, hlt, -⟩ := h.of_enabled hen
  obtain rfl := hopen.cnt_eq hn
  obtain ⟨-, -, hp, -⟩ := id hopen
  have hsame : s.bufWrite n 0 = { s.bufWrite n 0 with ps := some .zero } := by
    rw [← hps, ← hp]; rfl
  exact hsame ▸ padByte_inv hopen hphase hsel hlt _ (.inl rfl)

theorem execPadlenFirst_inv (h : Inv s.toCells) (he : execPadlenFirst s = .next s') : Inv s'.toCells := by
  obtain ⟨hen, n, l, hn, -, rfl⟩ := execPadlenFirst_cases he
  obtain ⟨n', l', p, t, hopen, hphase, hsel, -, h56⟩ := h.of_enabled hen
  obtain rfl := hopen.cnt_eq hn
  exact padByte_inv hopen hphase hsel (by simp [h56]) _ (.inr ⟨rfl, by simp [h56]⟩)

theorem execPadlenNext_inv (h : Inv s.toCells) (he : execPadlenNext s = .next s') : Inv s'.toCells := by
  obtain ⟨hen, n, l, hn, -, rfl⟩ := execPadlenNext_cases he
  obtain ⟨n', l', p, t, hopen, hphase, hsel, hps, hlt⟩ := h.of_enabled hen
  obtain rfl := hopen.cnt_eq hn
  have h57 : 57 ≤ n.toNat := by
    rw [PhaseInv, hsel] at hphase
    obtain ⟨-, -, -, -, hlen⟩ := hphase
    exact hlen hps
  exact padByte_inv hopen hphase hsel hlt _ (.inr ⟨rfl, by omega⟩)

/-! ### The commands keep the invariants -/

theorem openMessage_inv (hs : Oct Word) (s : State) : Inv (s.openMessage hs).toCells :=
  .inr ⟨0, 0, .none, 0, ⟨rfl, rfl, rfl, rfl, rfl, by decide, rfl, nofun⟩, rfl, rfl, ⟨rfl, rfl⟩, fun _ => rfl, nofun⟩

/-- What the invariants say of a core that is ready for a message byte. -/
theorem Inv.of_ready_absorb (h : Inv c) (hr : c.ready = true) (hp : c.phase = .absorb) :
    ∃ n l, OpenInv c n l .none 0 ∧ n.toNat < 64 ∧ n.toNat = l.toNat % 64 ∧ Idle c := by
  obtain ⟨n', l, p, t, hopen, hphase⟩ := h.of_phase_ne (by simp [hp])
  obtain ⟨n, hn, hlt⟩ := cnt_of_ready_absorb hr hp
  obtain rfl := hopen.cnt_eq hn
  rw [PhaseInv, hp] at hphase
  obtain ⟨rfl, rfl, hidle, hrem, -⟩ := hphase
  have hlt : n.toNat < 64 := hlt
  exact ⟨n, l, hopen, hlt, hrem hlt, hidle⟩

theorem execInit_inv (h : Inv s.toCells) (he : execInit s = .next s') : Inv s'.toCells := by
  rcases execInit_cases he with ⟨-, rfl⟩ | ⟨-, rfl⟩
  · exact openMessage_inv initialHash s
  · exact h

theorem execUpdate_inv {b : Byte} (h : Inv s.toCells) (he : execUpdate b s = .next s') : Inv s'.toCells := by
  rcases execUpdate_cases he with ⟨-, rfl⟩ | ⟨-, -, rfl⟩ | ⟨hr, hp, hmax, rfl⟩ | ⟨hr, hp, n, l, hn, hl, hne, rfl⟩
  · exact h
  · exact h
  · obtain ⟨n, l, ⟨hn, hl, hps, ht, hh, hle, hbuf, -⟩, -, hrem, hidle⟩ := h.of_ready_absorb hr hp
    cases hl.symm.trans hmax
    have h63 : n = 63 := BitVec.eq_of_toNat_eq hrem
    exact .inr ⟨n, _, .none, 0, ⟨hn, hl, hps, ht, hh, hle, hbuf, nofun⟩, rfl, rfl, rfl, h63, hidle⟩
  · obtain ⟨n', l', ⟨hn', hl', hps, ht, hh, hle, hbuf, -⟩, hlt, hrem, hidle⟩ := h.of_ready_absorb hr hp
    cases hn.symm.trans hn'
    cases hl.symm.trans hl'
    have hl1 : (l + 1).toNat = l.toNat + 1 := by
      have hne : l.toNat ≠ 2 ^ 61 - 1 := fun e => hne (BitVec.eq_of_toNat_eq e)
      bv_omega
    have hn1 : (n + 1).toNat = n.toNat + 1 := by bv_omega
    have hbuf1 := filledTo_write_succ b hbuf (by omega)
    refine .inr ⟨n + 1, l + 1, .none, 0, ⟨rfl, rfl, hps, ht, hh, by omega, hbuf1, nofun⟩, ?_⟩
    simp only [PhaseInv, State.answerOk_toCells, State.bufWrite_phase, hp]
    refine ⟨trivial, trivial, hidle, fun _ => ?_, fun _ => ?_⟩ <;> omega

theorem execFinalize_inv (h : Inv s.toCells) (he : execFinalize s = .next s') : Inv s'.toCells := by
  rcases execFinalize_cases he with ⟨-, rfl⟩ | ⟨-, -, rfl⟩ | ⟨hr, hp, rfl⟩
  · exact h
  · exact h
  · obtain ⟨n, l, ⟨hn, hl, -, ht, hh, hle, hbuf, -⟩, -, hrem, hidle⟩ := h.of_ready_absorb hr hp
    exact .inr ⟨n, l, .mark, 0, ⟨hn, hl, rfl, ht, hh, hle, hbuf, fun _ => rfl⟩, nofun, rfl, hidle, fun _ => hrem, nofun⟩

/-- RDDIGEST changes no cell. -/
theorem execRddigest_toCells {j : Byte} (he : execRddigest j s = .next s') : s'.toCells = s.toCells := by
  rcases execRddigest_cases he with ⟨-, rfl⟩ | ⟨-, -, rfl⟩ | ⟨-, -, -, rfl⟩ | ⟨-, -, -, d, -, rfl⟩ <;> rfl

/-- Every instruction keeps the invariants. -/
theorem exec_inv (h : Inv s.toCells) (he : exec i s = .next s') : Inv s'.toCells := by
  cases i with
  | init => exact execInit_inv h he
  | update b => exact execUpdate_inv h he
  | finalize => exact execFinalize_inv h he
  | rddigest j => exact execRddigest_toCells he ▸ h
  | blkgoAbsorb => exact execBlkgoAbsorb_inv h he
  | blkgoPad => exact execBlkgoPad_inv h he
  | padmark => exact execPadmark_inv h he
  | padzero => exact execPadzero_inv h he
  | padlenFirst => exact execPadlenFirst_inv h he
  | padlenNext => exact execPadlenNext_inv h he
  | wload => exact execWload_inv h he
  | wexp => exact execWexp_inv h he
  | vload => exact execVload_inv h he
  | round => exact execRound_inv h he
  | fold => exact execFold_inv h he

theorem inv_reset : Inv Cells.reset := .inl rfl

theorem acceptWord_inv {w : CmdWord} (h : Inv s.toCells) (he : acceptWord w s = .next s') : Inv s'.toCells := by
  rcases acceptWord_cases he with ⟨i, -, he⟩ | ⟨e, -, rfl⟩
  · exact exec_inv h he
  · exact h

theorem portStep_inv (h : Inv s.toCells) (he : portStep s = .next s') : Inv s'.toCells := by
  rcases portStep_cases he with ⟨w, rest, ms, u, -, hw, rfl⟩ | ⟨ms, -, rfl⟩ | ⟨ms, -, rfl⟩ | ⟨-, rfl⟩
  · rw [State.resumeExpansion_toCells]
    exact acceptWord_inv (s := { s with host := ms, resetPin := s.resetPin.tail }) h hw
  · exact h
  · exact inv_reset
  · exact h

theorem step_inv (h : Inv s.toCells) (he : step s = .next s') : Inv s'.toCells := by
  rcases step_cases he with ⟨-, rfl⟩ | ⟨-, i, -, hx⟩ | ⟨-, -, -, hx⟩
  · exact inv_reset
  · exact exec_inv (s := s.elapse) h hx
  · exact portStep_inv h hx

end Sys2Proof

namespace Sys2Proof.Proofs

/-- Settles O50: reset gives the reset cells, and every instruction that a step can run keeps the invariants. -/
theorem invariantIsKeptByEveryStep : Obligations.InvariantIsKeptByEveryStep := fun _ _ => step_inv

/-- Settles O49: the cells are those of reset, whatever the inputs. -/
theorem invariantHoldsAtReset : Obligations.InvariantHoldsAtReset := fun _ _ => inv_reset

end Sys2Proof.Proofs
end

section
/-! A state with the invariants steps safely (10_state.md R38, 45_engine.md R163): each instruction reads only cells
that hold values, where no micro-operation is enabled the core is ready, and the statement. -/

namespace Sys2Proof

open Machine

variable {s s' : State} {c : Cells}

/-- What a meaning answers is a next state: `SafeStep s` is `Answers (step s)`. -/
def Answers (o : Outcome) : Prop := ∃ s', o = .next s'

@[simp] theorem answers_next (s : State) : Answers (.next s) := ⟨s, rfl⟩

theorem answers_need {α : Type} {cell : CellName} {v : Option α} {k : α → Outcome} (hv : v.isSome = true)
    (hk : ∀ x, Answers (k x)) : Answers (need cell v k) := by
  obtain ⟨x, rfl⟩ := Option.isSome_iff_exists.1 hv
  exact hk x

theorem answers_whenReady {k : Outcome} (hk : s.ready = true → Answers k) : Answers (whenReady s k) := by
  unfold whenReady
  split
  · exact hk ‹_›
  · exact answers_next s

theorem answers_inPhase {p : Phase} {k : Outcome} (hk : s.phase = p → Answers k) : Answers (inPhase p s k) := by
  unfold inPhase
  split
  · exact hk ‹_›
  · exact answers_next _

/-- Every word that lies in a full buffer holds a value. -/
theorem bufRead4_isSome {m : Memory} {a : Nat} (h : Store.filledTo 64 m) (ha : a + 3 < 64) :
    (bufRead4 m a).isSome = true := by
  have hread (j : Nat) (hj : j ≤ 3) : ∃ b, bufRead1 m (a + j) = some b :=
    Option.isSome_iff_exists.1 ((Store.filledTo_read h (a + j)).2 (by omega))
  obtain ⟨b0, h0⟩ := hread 0 (by omega)
  obtain ⟨b1, h1⟩ := hread 1 (by omega)
  obtain ⟨b2, h2⟩ := hread 2 (by omega)
  obtain ⟨b3, h3⟩ := hread 3 (by omega)
  simp [bufRead4, show bufRead1 m a = some b0 from h0, h1, h2, h3]

/-- A digest byte holds a value where `H` does. -/
theorem digestCell_isSome {h : Oct (Option Word)} (hh : AllHeld h) (j : BitVec 5) : (digestCell h j).isSome = true := by
  obtain ⟨hs, hh⟩ := Option.isSome_iff_exists.1 hh
  rw [Oct.values_eq_some.1 hh, digestCell_held]
  rfl

/-! ### Each instruction reads only cells that hold values -/

theorem padLengthByte_answers {n : BitVec 7} {l : BitVec 61} (hn : s.cnt = some n) (hl : s.len = some l) :
    Answers (padLengthByte s) := by
  rw [padLengthByte, hn, hl]
  exact answers_next _

theorem execWload_answers (h : Inv s.toCells) (he : s.enabled = some .wload) : Answers (execWload s) := by
  obtain ⟨n, l, p, t, ⟨-, -, -, ht, -, -, hbuf, -⟩, hphase, hsel, hlt⟩ := h.of_enabled he
  rw [PhaseInv, hsel] at hphase
  obtain ⟨rfl, -⟩ := hphase
  rw [execWload, whenEnabled_of he, ht, need_some]
  exact answers_need (bufRead4_isSome hbuf (by omega)) fun x => answers_next _

theorem execWexp_answers (h : Inv s.toCells) (he : s.enabled = some .wexp) : Answers (execWexp s) := by
  obtain ⟨n, l, p, t, ⟨-, -, -, ht, -⟩, hphase, hsel, h16⟩ := h.of_enabled he
  rw [PhaseInv, hsel] at hphase
  obtain ⟨-, -, hw, -⟩ := hphase
  have hread (j : Nat) (hj : 0 < j) : (Store.read s.w (t.toNat - j)).isSome = true :=
    (Store.filledTo_read hw _).2 (by omega)
  rw [execWexp, whenEnabled_of he, ht, need_some]
  exact answers_need (hread 16 (by decide)) fun w16 => answers_need (hread 15 (by decide)) fun w15 =>
    answers_need (hread 7 (by decide)) fun w7 => answers_need (hread 2 (by decide)) fun w2 => answers_next _

theorem execVload_answers (h : Inv s.toCells) (he : s.enabled = some .vload) : Answers (execVload s) := by
  obtain ⟨n, l, p, t, ⟨-, -, -, -, hh, -⟩, -, -⟩ := h.of_enabled he
  rw [execVload, whenEnabled_of he]
  exact answers_need hh fun hs => answers_next _

theorem execRound_answers (h : Inv s.toCells) (he : s.enabled = some .round) : Answers (execRound s) := by
  obtain ⟨n, l, p, t, ⟨-, -, -, ht, -⟩, hphase, hsel⟩ := h.of_enabled he
  rw [PhaseInv, hsel] at hphase
  obtain ⟨-, hw, hv, -⟩ := hphase
  rw [execRound, whenEnabled_of he, ht, need_some]
  exact answers_need hv fun vs => answers_need ((Store.filledTo_read hw _).2 t.isLt) fun x => answers_next _

theorem execFold_answers (h : Inv s.toCells) (he : s.enabled = some .fold) : Answers (execFold s) := by
  obtain ⟨n, l, p, t, ⟨-, -, hp, -, hh, -, -, hmark⟩, hphase, hsel⟩ := h.of_enabled he
  have hnm : p ≠ .mark := fun hpm => nomatch hsel.symm.trans (hmark hpm)
  rw [PhaseInv, hsel] at hphase
  obtain ⟨-, -, -, hv, -⟩ := hphase
  rw [execFold, whenEnabled_of he, hp, need_some]
  refine answers_need hh fun hs => answers_need hv fun vs => ?_
  cases p with
  | mark => exact absurd rfl hnm
  | none | zero | len => exact answers_next _

/-- In a state with the invariants the enabled micro-operation answers. -/
theorem exec_answers_of_enabled {i : Instr} (h : Inv s.toCells) (he : s.enabled = some i) : Answers (exec i s) := by
  obtain ⟨n, l, p, t, ⟨hn, hl, -⟩, -, hsel⟩ := h.of_enabled he
  cases i with
  | init | update | finalize | rddigest => exact hsel.elim
  | blkgoAbsorb => exact ⟨_, whenEnabled_of he⟩
  | blkgoPad => exact ⟨_, whenEnabled_of he⟩
  | padmark => exact ⟨_, (whenEnabled_of he).trans (by rw [hn, need_some])⟩
  | padzero => exact ⟨_, (whenEnabled_of he).trans (by rw [hn, need_some])⟩
  | padlenFirst =>
    rw [exec, execPadlenFirst, whenEnabled_of he]
    exact padLengthByte_answers hn hl
  | padlenNext =>
    rw [exec, execPadlenNext, whenEnabled_of he]
    exact padLengthByte_answers hn hl
  | wload => exact execWload_answers h he
  | wexp => exact execWexp_answers h he
  | vload => exact execVload_answers h he
  | round => exact execRound_answers h he
  | fold => exact execFold_answers h he

theorem execUpdate_answers (h : Inv s.toCells) (b : Byte) : Answers (execUpdate b s) := by
  refine answers_whenReady fun hr => answers_inPhase fun hp => ?_
  obtain ⟨n, l, ⟨hn, hl, -⟩, -⟩ := h.of_ready_absorb hr hp
  rw [appendByte, hn, need_some, hl, need_some]
  split <;> exact answers_next _

theorem execRddigest_answers (h : Inv s.toCells) (j : Byte) : Answers (execRddigest j s) := by
  refine answers_whenReady fun _ => ?_
  split
  · exact answers_next _
  · refine answers_inPhase fun hp => ?_
    obtain ⟨n, l, p, t, ⟨-, -, -, -, hh, -⟩, -⟩ := h.of_phase_ne (by simp [hp])
    exact answers_need (digestCell_isSome hh _) fun d => answers_next _

/-- Only commands are decoded from a command word. -/
theorem isCommand_of_decodeCmd {w : CmdWord} {i : Instr} (h : decodeCmd w = .ok i) : i.isCommand = true := by
  unfold decodeCmd at h
  split_ifs at h <;> cases h <;> rfl

theorem exec_answers_of_isCommand {i : Instr} (h : Inv s.toCells) (hi : i.isCommand = true) : Answers (exec i s) := by
  cases i with
  | init => exact answers_whenReady fun _ => answers_next _
  | update b => exact execUpdate_answers h b
  | finalize => exact answers_whenReady fun _ => answers_inPhase fun _ => answers_next _
  | rddigest j => exact execRddigest_answers h j
  | _ => cases hi

theorem acceptWord_answers (h : Inv s.toCells) (w : CmdWord) : Answers (acceptWord w s) := by
  unfold acceptWord
  split
  · exact exec_answers_of_isCommand h (isCommand_of_decodeCmd ‹_›)
  · exact answers_next _

theorem portStep_answers (h : Inv s.toCells) : Answers (portStep s) := by
  unfold portStep
  split
  case h_1 w rest ms _ =>
    obtain ⟨u, hu⟩ := acceptWord_answers (s := { s with host := ms, resetPin := s.resetPin.tail }) h w
    rw [hu]
    exact answers_next _
  all_goals exact answers_next _

/-- In a state with the invariants that is not ready, one row of the selection table holds. -/
theorem ready_or_selected {n : BitVec 7} {l : BitVec 61} {p : PadStage} {t : BitVec 6} (hopen : OpenInv c n l p t)
    (hphase : PhaseInv c n l p t) :
    c.ready = true ∨ ¬(c.phase = .pad ∧ p = .none) ∧ ∃ i, SelectedWhen c.phase p n t i := by
  obtain ⟨hn, -, -, -, -, hle, -, -⟩ := hopen
  have hfull : n.toNat < 64 ∨ n = 64 := by bv_omega
  rw [PhaseInv] at hphase
  cases hph : c.phase <;> simp only [hph] at hphase
  case absorb =>
    rcases hfull with hlt | h64
    · exact .inl (by simpa [Cells.ready, hph, hn, BitVec.lt_def] using hlt)
    · exact .inr ⟨nofun, .blkgoAbsorb, rfl, h64⟩
  case pad =>
    obtain ⟨hnone, -⟩ := hphase
    refine .inr ⟨fun h => hnone h.2, ?_⟩
    rcases hfull with hlt | h64
    · cases p with
      | none => exact absurd rfl hnone
      | mark => exact ⟨.padmark, rfl, rfl, hlt⟩
      | zero =>
        by_cases h56 : n = 56
        · exact ⟨.padlenFirst, rfl, rfl, h56⟩
        · exact ⟨.padzero, rfl, rfl, hlt, h56⟩
      | len => exact ⟨.padlenNext, rfl, rfl, hlt⟩
    · exact ⟨.blkgoPad, rfl, h64⟩
  case sched =>
    refine .inr ⟨nofun, ?_⟩
    rcases lt_or_ge t.toNat 16 with hlt | hge
    · exact ⟨.wload, rfl, hlt⟩
    · exact ⟨.wexp, rfl, hge⟩
  case vinit => exact .inr ⟨nofun, .vload, rfl⟩
  case round => exact .inr ⟨nofun, .round, rfl⟩
  case fold => exact .inr ⟨nofun, .fold, rfl⟩
  case done => exact .inl (ready_of_done hph)
  case failed => exact .inl (by simp [Cells.ready, hph])

/-- A state with the invariants in which no micro-operation is enabled is ready (45_engine.md R163). -/
theorem Inv.ready_of_idle (h : Inv c) (hidle : c.enabled = none) : c.ready = true := by
  rcases h with rfl | ⟨n, l, p, t, hopen, hphase⟩
  · rfl
  · obtain ⟨hn, -, hp, ht, -⟩ := id hopen
    exact (ready_or_selected hopen hphase).resolve_right fun ⟨hstage, i, hsel⟩ =>
      enabled_ne_none hp hn ht hstage hsel hidle

theorem Inv.safeStep (h : Inv s.toCells) : SafeStep s := by
  unfold SafeStep step
  split
  · exact answers_next _
  · split
    · exact exec_answers_of_enabled (s := s.elapse) h ‹_›
    · rw [if_pos (h.ready_of_idle ‹_›)]
      exact portStep_answers h

/-- What every step keeps holds after any number of steps. -/
theorem run_induction {P : State → Prop} (hstep : ∀ s s', P s → step s = .next s' → P s') {k : Nat} (hs : P s)
    (hr : run k s = .next s') : P s' := by
  induction k generalizing s with
  | zero => cases hr; exact hs
  | succ k ih =>
    rw [run] at hr
    split at hr
    · exact ih (hstep _ _ hs ‹_›) hr
    · cases hr
    · cases hr

theorem inv_of_reachable (h : Reachable s) : Inv s.toCells := by
  obtain ⟨host, pin, k, hr⟩ := h
  exact run_induction (P := fun s => Inv s.toCells) (fun _ _ => step_inv) inv_reset hr

end Sys2Proof

namespace Sys2Proof.Proofs

/-- Settles O51: the enabled micro-operation, or the port of a ready core, reads only cells that hold values; and the
states reached from reset have the invariants, by induction on the run. -/
theorem invariantStatesNeverFault : Obligations.InvariantStatesNeverFault :=
  ⟨fun _ h => h.safeStep, fun _ hs => ⟨inv_of_reachable hs, (inv_of_reachable hs).safeStep⟩⟩

end Sys2Proof.Proofs
end

section
/-! The status outputs and the cells after reset (10_state.md R33, R35): READY by phase and count, the packing of
STATUS, and the two statements. -/

namespace Sys2Proof.Machine

variable {c : Cells}

theorem ready_iff (c : Cells) :
    c.ready = true ↔ c.phase = .uninit ∨ c.phase = .done ∨ c.phase = .failed ∨
      (c.phase = .absorb ∧ ∃ n, c.cnt = some n ∧ n.toNat < 64) := by
  cases hp : c.phase <;> cases hn : c.cnt <;> simp [Cells.ready, hp, hn, BitVec.lt_def]

theorem busy_of_phase (hp : c.phase ∈ [.pad, .sched, .vinit, .round, .fold]) : c.ready = false := by
  cases hph : c.phase <;> simp [hph] at hp <;> simp [Cells.ready, hph]

theorem busy_of_full (hp : c.phase = .absorb) (hn : c.cnt = some 64) : c.ready = false := by
  simp [Cells.ready, hp, hn]

theorem dvalid_iff (c : Cells) : c.dvalid = true ↔ c.phase = .done := decide_eq_true_iff

theorem lovf_iff (c : Cells) : c.lovf = true ↔ c.phase = .failed := decide_eq_true_iff

/-- The packing of STATUS (10_state.md R33). -/
theorem status_fields (c : Cells) :
    c.status.getLsbD 0 = c.ready ∧ c.status.getLsbD 1 = c.dvalid ∧ c.status.getLsbD 2 = c.lovf ∧
      c.status.getLsbD 3 = false ∧ c.status.extractLsb' 4 4 = c.phase.code := by
  rw [Cells.status]
  generalize c.phase.code = x, c.lovf = lovf, c.dvalid = dvalid, c.ready = ready
  revert x lovf dvalid ready
  decide

/-- STATUS by the phase and READY: the other two flags are the phase's own. -/
theorem status_eq {r : Bool} {p : Phase} (hp : c.phase = p) (hr : c.ready = r) :
    c.status = p.code ++ 0#1 ++ BitVec.ofBool (p = .failed) ++ BitVec.ofBool (p = .done) ++ BitVec.ofBool r := by
  rw [Cells.status, Cells.lovf, Cells.dvalid, hp, hr]

@[simp] theorem Oct.get_noValue {α : Type} (k : Fin 8) : (Oct.noValue : Oct (Option α)).get k = none := by
  fin_cases k <;> rfl

end Sys2Proof.Machine

namespace Sys2Proof.Proofs

open Sys2Proof.Machine

/-- Settles O21: READY by cases on the phase and the count, the packing bit by bit, and each phase's value from
both. -/
theorem statusWordFields : Obligations.StatusWordFields := by
  intro c
  have hready := ready_iff c
  obtain ⟨hbit0, hbit1, hbit2, hbit3, hcode⟩ := status_fields c
  refine ⟨hready, dvalid_iff c, lovf_iff c, hbit0, hbit1, hbit2, hbit3, hcode,
    fun hp => status_eq hp (hready.2 (.inl hp)),
    fun hp n hn => ⟨fun hlt => status_eq hp (hready.2 (.inr (.inr (.inr ⟨hp, n, hn, hlt⟩)))),
      fun h64 => status_eq hp (busy_of_full hp (h64 ▸ hn))⟩,
    fun hp => status_eq hp (busy_of_phase ?_), fun hp => status_eq hp (busy_of_phase ?_),
    fun hp => status_eq hp (busy_of_phase ?_), fun hp => status_eq hp (busy_of_phase ?_),
    fun hp => status_eq hp (busy_of_phase ?_), fun hp => status_eq hp (ready_of_done hp),
    fun hp => status_eq hp (hready.2 (.inr (.inr (.inl hp))))⟩
  all_goals simp [hp]

/-- Settles O23: every cell but PHASE is read where nothing has been written. -/
theorem resetLeavesNoValueButThePhase : Obligations.ResetLeavesNoValueButThePhase :=
  ⟨rfl, rfl, fun k => ⟨Oct.get_noValue k, Oct.get_noValue k⟩, Store.read_nil, Store.read_nil, rfl, rfl, rfl, rfl,
    rfl, rfl, rfl, rfl⟩

end Sys2Proof.Proofs
end

section
/-! What a response can depend on (10_state.md R34): the response to a command as a function, and the statement. -/

namespace Sys2Proof.Machine

variable {s s' : State}

/-- The response of a ready core to a command: by the phase, by whether `LEN` is at its bound, and in `DONE` by the byte
of the digest that is read (40_commands.md R91, R101). That it is the response given is `exec_responses`. -/
def commandResponse (i : Instr) (p : Phase) (atBound : Prop) [Decidable atBound] (h : Oct (Option Word)) : RspWord :=
  match i with
  | .init => rspWord .ok 0
  | .update _ =>
    if p = .absorb then (if atBound then rspWord .lengthOverflow 0 else rspWord .ok 0) else rspWord .sequence 0
  | .finalize => if p = .absorb then rspWord .ok 0 else rspWord .sequence 0
  | .rddigest j =>
    if 32 ≤ j.toNat then rspWord .illegal 0
    else if p = .done then rspWord .ok ((digestCell h (j.setWidth 5)).getD 0) else rspWord .sequence 0
  | _ => rspWord .illegal 0

/-- A command that a ready core executes adds its one response to those given. -/
theorem exec_responses {i : Instr} (hi : i.isCommand = true) (hr : s.ready = true) (he : exec i s = .next s') :
    s'.responses = commandResponse i s.phase (s.len = some Config.maxLen) s.h :: s.responses := by
  cases i with
  | init =>
    rcases execInit_cases he with ⟨-, rfl⟩ | ⟨hb, -⟩
    · rfl
    · cases hr.symm.trans hb
  | update b =>
    rcases execUpdate_cases he with ⟨hb, -⟩ | ⟨-, hp, rfl⟩ | ⟨-, hp, hmax, rfl⟩ | ⟨-, hp, n, l, hn, hl, hne, rfl⟩
    · cases hr.symm.trans hb
    · simp [commandResponse, hp]
    · simp [commandResponse, hp, hmax]
    · simp [commandResponse, hp, hl, hne]
  | finalize =>
    rcases execFinalize_cases he with ⟨hb, -⟩ | ⟨-, hp, rfl⟩ | ⟨-, hp, rfl⟩
    · cases hr.symm.trans hb
    · simp [commandResponse, hp]
    · simp [commandResponse, hp]
  | rddigest j =>
    rcases execRddigest_cases he with ⟨hb, -⟩ | ⟨-, hj, rfl⟩ | ⟨-, hj, hp, rfl⟩ | ⟨-, hj, hp, d, hd, rfl⟩
    · cases hr.symm.trans hb
    · simp [commandResponse, hj]
    · simp [commandResponse, hj.not_ge, hp]
    · simp [commandResponse, hj.not_ge, hp, hd]
  | _ => cases hi

/-- `H` shows in the response in `DONE` only. -/
theorem commandResponse_congr {i : Instr} {p : Phase} {a a' : Prop} [Decidable a] [Decidable a']
    {h h' : Oct (Option Word)} (ha : a ↔ a') (hh : p = .done → h = h') :
    commandResponse i p a h = commandResponse i p a' h' := by
  by_cases hp : p = .done
  · simp only [hh hp, ha]
  · cases i <;> simp only [commandResponse, ha, hp, if_false]

end Sys2Proof.Machine

namespace Sys2Proof.Proofs

open Sys2Proof.Machine

/-- Settles O60: the response is a function of what the two states agree on. -/
theorem responsesShowOnlyPhaseAndDigest : Obligations.ResponsesShowOnlyPhaseAndDigest := by
  intro s s' t t' w hr hr' hphase hlen hh ht ht'
  rcases acceptWord_cases ht with ⟨i, hi, he⟩ | ⟨e, hw, rfl⟩
  · rcases acceptWord_cases ht' with ⟨i', hi', he'⟩ | ⟨e', hw', -⟩
    · cases hi.symm.trans hi'
      have hcmd := isCommand_of_decodeCmd hi
      refine ⟨_, exec_responses hcmd hr he, ?_⟩
      rw [exec_responses hcmd hr' he', ← hphase]
      exact congrArg (· :: s'.responses) (commandResponse_congr hlen.symm fun hp => (hh hp).symm)
    · cases hi.symm.trans hw'
  · rcases acceptWord_cases ht' with ⟨i', hi', -⟩ | ⟨e', hw', rfl⟩
    · cases hw.symm.trans hi'
    · exact ⟨_, rfl, rfl⟩

end Sys2Proof.Proofs
end

section
/-! The storage spaces over a step (20_memory.md R50, R54, R56): what a step can do to `BUF` and `W`, each write inside
the 64 places, and the statement that the canonical form is kept. -/

namespace Sys2Proof.Machine

/-- What one step does to a storage space of `size` places: nothing, one write inside it, or it is emptied. That every
step does one of these to `BUF` and to `W` is `step_storage`. -/
inductive StoreStep {α : Type} (size : Nat) (m : Store α) : Store α → Prop where
  | kept : StoreStep size m m
  | emptied : StoreStep size m Store.invalid
  | written (i : Nat) (x : α) (hi : i < size) : StoreStep size m (Store.write m i x)

/-- Each of the three keeps the canonical form. -/
theorem StoreStep.wf {α : Type} {size : Nat} {m m' : Store α} (h : StoreStep size m m') (hm : Store.wf size m = true) :
    Store.wf size m' = true := by
  cases h with
  | kept => exact hm
  | emptied => rfl
  | written i x hi => exact Store.wf_write x hm hi

/-- What a step can do to the two storage spaces of a core. -/
def StorageStep (c c' : Cells) : Prop := StoreStep 64 c.buf c'.buf ∧ StoreStep 64 c.w c'.w

theorem StorageStep.of_kept {c c' : Cells} (hbuf : c'.buf = c.buf) (hw : c'.w = c.w) : StorageStep c c' :=
  ⟨hbuf ▸ .kept, hw ▸ .kept⟩

/-- Reset, INIT and FOLD empty both spaces. -/
theorem StorageStep.of_emptied {c c' : Cells} (hbuf : c'.buf = Store.invalid) (hw : c'.w = Store.invalid) :
    StorageStep c c' := ⟨hbuf ▸ .emptied, hw ▸ .emptied⟩

/-- A byte is stored at a count below 64. -/
theorem StorageStep.of_buf_write {c c' : Cells} {n : BitVec 7} {b : Byte} (hn : n.toNat < 64)
    (hbuf : c'.buf = Store.write c.buf n.toNat b) (hw : c'.w = c.w) : StorageStep c c' :=
  ⟨hbuf ▸ .written _ _ hn, hw ▸ .kept⟩

/-- `T` has six bits, so `W[T]` is always one of the 64 places (10_state.md R29). -/
theorem StorageStep.of_w_write {c c' : Cells} {t : BitVec 6} {x : Word} (hbuf : c'.buf = c.buf)
    (hw : c'.w = Store.write c.w t.toNat x) : StorageStep c c' :=
  ⟨hbuf ▸ .kept, hw ▸ .written _ _ t.isLt⟩

variable {s s' : State} {i : Instr}

/-- A selected micro-operation of the Padder finds fewer than 64 bytes in `BUF` (30_encoding.md R82). -/
theorem cnt_lt_of_enabled_padding {c : Cells} {n : BitVec 7} (he : c.enabled = some i) (hn : c.cnt = some n)
    (hi : i ∈ [.padmark, .padzero, .padlenFirst, .padlenNext]) : n.toNat < 64 := by
  obtain ⟨p, n', t, -, hn', -, hsel⟩ := selectedWhen_of_enabled he
  cases hn.symm.trans hn'
  simp only [List.mem_cons, List.not_mem_nil, or_false] at hi
  rcases hi with rfl | rfl | rfl | rfl
  · obtain ⟨-, -, hlt⟩ := hsel
    exact hlt
  · obtain ⟨-, -, hlt, -⟩ := hsel
    exact hlt
  · obtain ⟨-, -, rfl⟩ := hsel
    decide
  · obtain ⟨-, -, hlt⟩ := hsel
    exact hlt

/-- UPDATE stores its byte at the count of a ready core, which is below 64; no other case of it stores one. -/
theorem execUpdate_storage {b : Byte} (he : execUpdate b s = .next s') : StorageStep s.toCells s'.toCells := by
  rcases execUpdate_cases he with ⟨-, rfl⟩ | ⟨-, -, rfl⟩ | ⟨-, -, -, rfl⟩ | ⟨hr, hp, n, l, hn, -, -, rfl⟩
  · exact .of_kept rfl rfl
  · exact .of_kept rfl rfl
  · exact .of_kept rfl rfl
  · obtain ⟨n', hn', hlt⟩ := cnt_of_ready_absorb hr hp
    cases hn.symm.trans hn'
    exact .of_buf_write (BitVec.lt_def.1 hlt) rfl rfl

/-- What each instruction does to `BUF` and `W`, in every state. -/
theorem exec_storage (he : exec i s = .next s') : StorageStep s.toCells s'.toCells := by
  cases i with
  | init =>
    rcases execInit_cases he with ⟨-, rfl⟩ | ⟨-, rfl⟩
    · exact .of_emptied rfl rfl
    · exact .of_kept rfl rfl
  | update b => exact execUpdate_storage he
  | finalize =>
    rcases execFinalize_cases he with ⟨-, rfl⟩ | ⟨-, -, rfl⟩ | ⟨-, -, rfl⟩ <;> exact .of_kept rfl rfl
  | rddigest j => rw [execRddigest_toCells he]; exact .of_kept rfl rfl
  | blkgoAbsorb =>
    obtain ⟨-, rfl⟩ := execBlkgoAbsorb_cases he
    exact .of_kept rfl rfl
  | blkgoPad =>
    obtain ⟨-, rfl⟩ := execBlkgoPad_cases he
    exact .of_kept rfl rfl
  | padmark =>
    obtain ⟨hen, n, hn, rfl⟩ := execPadmark_cases he
    exact .of_buf_write (cnt_lt_of_enabled_padding hen hn (by simp)) rfl rfl
  | padzero =>
    obtain ⟨hen, n, hn, rfl⟩ := execPadzero_cases he
    exact .of_buf_write (cnt_lt_of_enabled_padding hen hn (by simp)) rfl rfl
  | padlenFirst =>
    obtain ⟨hen, n, l, hn, -, rfl⟩ := execPadlenFirst_cases he
    exact .of_buf_write (cnt_lt_of_enabled_padding hen hn (by simp)) rfl rfl
  | padlenNext =>
    obtain ⟨hen, n, l, hn, -, rfl⟩ := execPadlenNext_cases he
    exact .of_buf_write (cnt_lt_of_enabled_padding hen hn (by simp)) rfl rfl
  | wload =>
    obtain ⟨-, t, x, -, -, rfl⟩ := execWload_cases he
    exact .of_w_write rfl rfl
  | wexp =>
    obtain ⟨-, t, w16, w15, w7, w2, -, -, -, -, -, rfl⟩ := execWexp_cases he
    exact .of_w_write (State.advance_buf ..) (State.advance_w ..)
  | vload =>
    obtain ⟨-, hs, -, rfl⟩ := execVload_cases he
    exact .of_kept rfl rfl
  | round =>
    obtain ⟨-, t, vs, x, -, -, -, rfl⟩ := execRound_cases he
    exact .of_kept (State.advance_buf ..) (State.advance_w ..)
  | fold =>
    obtain ⟨-, p, hs, vs, next, -, -, -, -, rfl⟩ := execFold_cases he
    exact .of_emptied rfl rfl

theorem acceptWord_storage {w : CmdWord} (he : acceptWord w s = .next s') : StorageStep s.toCells s'.toCells := by
  rcases acceptWord_cases he with ⟨i, -, he⟩ | ⟨e, -, rfl⟩
  · exact exec_storage he
  · exact .of_kept rfl rfl

theorem portStep_storage (he : portStep s = .next s') : StorageStep s.toCells s'.toCells := by
  rcases portStep_cases he with ⟨w, rest, ms, t, -, hw, rfl⟩ | ⟨ms, -, rfl⟩ | ⟨ms, -, rfl⟩ | ⟨-, rfl⟩
  · rw [State.resumeExpansion_toCells]
    exact acceptWord_storage (s := { s with host := ms, resetPin := s.resetPin.tail }) hw
  · exact .of_kept rfl rfl
  · exact .of_emptied rfl rfl
  · exact .of_kept rfl rfl

/-- What a step does to `BUF` and `W`, in every state: each is kept, emptied, or written at one of its 64 places. -/
theorem step_storage (he : step s = .next s') : StorageStep s.toCells s'.toCells := by
  rcases step_cases he with ⟨-, rfl⟩ | ⟨-, i, -, hx⟩ | ⟨-, -, -, hx⟩
  · exact .of_emptied rfl rfl
  · exact exec_storage (s := s.elapse) hx
  · exact portStep_storage hx

end Sys2Proof.Machine

namespace Sys2Proof.Proofs

open Sys2Proof.Machine

/-- Settles O52: a step keeps, empties, or writes inside the 64 places of each space, and all three keep the canonical
form. -/
theorem storageStaysCanonical : Obligations.StorageStaysCanonical := by
  intro s t hbuf hw he
  obtain ⟨hbuf', hw'⟩ := step_storage he
  exact ⟨hbuf'.wf hbuf, hw'.wf hw⟩

end Sys2Proof.Proofs
end

section
/-! What a micro-operation leaves alone (20_memory.md R50, R55), and the statement. -/

namespace Sys2Proof.Machine

/-- A write is read at its own place only. -/
theorem readsSameBut_write {α : Type} (m : Store α) (i : Nat) (x : α) : ReadsSameBut m (Store.write m i x) i :=
  fun _ hj => Store.read_write_ne m x hj

end Sys2Proof.Machine

namespace Sys2Proof.Proofs

open Sys2Proof.Machine

/-- Settles O42: by what each micro-operation can do when it answers, cell by cell. -/
theorem microOpsLeaveTheRestAlone : Obligations.MicroOpsLeaveTheRestAlone := by
  intro i s t hi he
  cases i with
  | init | update | finalize | rddigest => cases hi
  | blkgoAbsorb =>
    obtain ⟨hen, rfl⟩ := execBlkgoAbsorb_cases he
    simp [hen, SameInputs]
  | blkgoPad =>
    obtain ⟨hen, rfl⟩ := execBlkgoPad_cases he
    simp [hen, SameInputs]
  | padmark =>
    obtain ⟨hen, n, hn, rfl⟩ := execPadmark_cases he
    simp [hen, hn, SameInputs, readsSameBut_write]
  | padzero =>
    obtain ⟨hen, n, hn, rfl⟩ := execPadzero_cases he
    simp [hen, hn, SameInputs, readsSameBut_write]
  | padlenFirst =>
    obtain ⟨hen, n, l, hn, -, rfl⟩ := execPadlenFirst_cases he
    simp [hen, hn, SameInputs, readsSameBut_write]
  | padlenNext =>
    obtain ⟨hen, n, l, hn, -, rfl⟩ := execPadlenNext_cases he
    simp [hen, hn, SameInputs, readsSameBut_write]
  | wload =>
    obtain ⟨hen, k, x, hk, -, rfl⟩ := execWload_cases he
    simp [hen, hk, SameInputs, readsSameBut_write]
  | wexp =>
    obtain ⟨hen, k, w16, w15, w7, w2, hk, -, -, -, -, rfl⟩ := execWexp_cases he
    simp [hen, hk, SameInputs, readsSameBut_write]
  | vload =>
    obtain ⟨hen, hs, -, rfl⟩ := execVload_cases he
    simp [hen, SameInputs]
  | round =>
    obtain ⟨hen, k, vs, x, -, -, -, rfl⟩ := execRound_cases he
    simp [hen, SameInputs]
  | fold =>
    obtain ⟨hen, p, hs, vs, next, -, -, -, -, rfl⟩ := execFold_cases he
    simp [hen, SameInputs]

end Sys2Proof.Proofs
end

section
/-! Several cores side by side (20_memory.md R61, 60_exceptions.md R203): what a step of one core can be in a system, and
the statement. -/

namespace Sys2Proof.Machine

variable {j k : Nat} {a b c : System} {s : State}

theorem System.stepCore_of_none (h : a.cores[k]? = none) : a.stepCore k = .next a := by
  simp only [System.stepCore, h]

/-- Where there is a core `k`, its next state is put at its place. -/
theorem System.stepCore_of_next {t : State} (h : a.cores[k]? = some s) (hs : step s = .next t) :
    a.stepCore k = .next ⟨a.cores.set k t⟩ := by
  simp only [System.stepCore, h, hs]

theorem System.stepCore_of_fault {f : Fault} (h : a.cores[k]? = some s) (hs : step s = .fault f) :
    a.stepCore k = .fault f := by
  simp only [System.stepCore, h, hs]

theorem System.stepCore_of_refused {r : Refusal} (h : a.cores[k]? = some s) (hs : step s = .refused r) :
    a.stepCore k = .refused r := by
  simp only [System.stepCore, h, hs]

/-- What a step of core `k` can be: nothing where there is no such core, or the core's own step, put at its place. -/
theorem System.stepCore_cases (h : a.stepCore k = .next b) :
    (a.cores[k]? = none ∧ b = a) ∨
    ∃ s t, a.cores[k]? = some s ∧ step s = .next t ∧ b = ⟨a.cores.set k t⟩ := by
  unfold System.stepCore at h
  split at h
  · exact .inl ⟨‹_›, by simpa [eq_comm] using h⟩
  · split at h
    · exact .inr ⟨_, _, ‹_›, ‹_›, by simpa [eq_comm] using h⟩
    · cases h
    · cases h

/-- No core but `k` is changed, and none is added or lost. -/
theorem System.stepCore_frame (h : a.stepCore k = .next b) :
    b.cores.length = a.cores.length ∧ ∀ j, j ≠ k → b.cores[j]? = a.cores[j]? := by
  rcases System.stepCore_cases h with ⟨-, rfl⟩ | ⟨s, t, -, -, rfl⟩
  · exact ⟨rfl, fun _ _ => rfl⟩
  · exact ⟨List.length_set, fun j hj => List.getElem?_set_ne hj.symm⟩

/-- The steps of two cores can be made in either order. -/
theorem System.stepCore_comm (hjk : j ≠ k) (hj : a.stepCore j = .next b) (hk : b.stepCore k = .next c) :
    ∃ b', a.stepCore k = .next b' ∧ b'.stepCore j = .next c := by
  obtain ⟨-, hsame⟩ := System.stepCore_frame hj
  rcases System.stepCore_cases hk with ⟨hnone, rfl⟩ | ⟨s, t, hs, hstep, rfl⟩
  · exact ⟨a, System.stepCore_of_none (hsame k hjk.symm ▸ hnone), hj⟩
  · refine ⟨_, System.stepCore_of_next (hsame k hjk.symm ▸ hs) hstep, ?_⟩
    have hplace : (a.cores.set k t)[j]? = a.cores[j]? := List.getElem?_set_ne hjk.symm
    rcases System.stepCore_cases hj with ⟨hnone, rfl⟩ | ⟨u, v, hu, hstep', rfl⟩
    · exact System.stepCore_of_none (hplace.trans hnone)
    · rw [System.stepCore_of_next (hplace.trans hu) hstep', List.set_comm _ _ hjk]

end Sys2Proof.Machine

namespace Sys2Proof.Proofs

open Sys2Proof.Machine

/-- Settles O59: a step of core `k` is its own step at its place, and two writes to different places of a list commute. -/
theorem coresAreIndependent : Obligations.CoresAreIndependent := by
  refine ⟨fun k a s hs => ⟨fun t ht => ⟨_, System.stepCore_of_next hs ht, ?_⟩,
      fun f => System.stepCore_of_fault hs, fun r => System.stepCore_of_refused hs⟩,
    fun k a => System.stepCore_of_none, fun k a b => System.stepCore_frame, fun j k a b c => System.stepCore_comm⟩
  obtain ⟨hk, -⟩ := List.getElem?_eq_some_iff.1 hs
  exact List.getElem?_set_self hk

end Sys2Proof.Proofs
end

section
/-! The command words (30_encoding.md R76 to R79): the two fields as numbers, what the mask of each row of R77 matches, the
number of the word of each command, and the legal words; with the two statements about them. -/

namespace Sys2Proof

/-- At most one element of a list passes a test that no two places of the list both pass. -/
theorem countP_le_one_of_pairwise {α : Type} {p : α → Bool} {l : List α}
    (h : l.Pairwise fun a b => ¬(p a = true ∧ p b = true)) : l.countP p ≤ 1 := by
  induction h with
  | nil => exact Nat.zero_le 1
  | @cons a l ha _ ih =>
    rw [List.countP_cons]
    split
    · have hrest : l.countP p = 0 := List.countP_eq_zero.2 fun b hb hpb => ha b hb ⟨‹_›, hpb⟩
      omega
    · exact ih

/-! ### The fields and the masks -/

theorem toNat_cmdOp (w : CmdWord) : (cmdOp w).toNat = w.toNat / 256 := by
  rw [cmdOp, BitVec.extractLsb'_toNat, Nat.shiftRight_eq_div_pow]
  omega

theorem toNat_cmdArg (w : CmdWord) : (cmdArg w).toNat = w.toNat % 256 := by
  rw [cmdArg, BitVec.extractLsb'_toNat, Nat.shiftRight_zero]

theorem toNat_cmdIndex (w : CmdWord) : (cmdIndex w).toNat = w.toNat % 32 := by
  rw [cmdIndex, BitVec.extractLsb'_toNat, Nat.shiftRight_zero]

/-- Two words are equal if their two fields are. -/
theorem cmdWord_eq_iff (w x : CmdWord) : w = x ↔ cmdOp w = cmdOp x ∧ cmdArg w = cmdArg x := by
  simp only [← BitVec.toNat_inj, toNat_cmdOp, toNat_cmdArg]
  omega

/-- A row's match under its mask, field by field. -/
theorem cmd_and_eq_iff_fields (w m x : CmdWord) :
    w &&& m = x ↔ cmdOp w &&& cmdOp m = cmdOp x ∧ cmdArg w &&& cmdArg m = cmdArg x := by
  rw [cmdWord_eq_iff]
  simp only [cmdOp, cmdArg, BitVec.extractLsb'_and]

/-- The mask of INIT and FINALIZE leaves nothing open. -/
theorem and_fullMask_eq_iff (w x : CmdWord) : w &&& 0xfff = x ↔ w = x := by
  rw [show (0xfff : CmdWord) = BitVec.allOnes 12 from rfl, BitVec.and_allOnes]

/-- The mask of UPDATE leaves `arg` open. -/
theorem matches_update_iff (w : CmdWord) : w &&& 0xf00 = 0x200 ↔ w.toNat / 256 = 2 := by
  rw [cmd_and_eq_iff_fields]
  change cmdOp w &&& BitVec.allOnes 4 = 2#4 ∧ cmdArg w &&& 0#8 = 0#8 ↔ _
  rw [BitVec.and_allOnes, ← BitVec.toNat_inj, toNat_cmdOp]
  simp

/-- `arg[7:5] = 0` says that the index is below 32. -/
theorem byte_and_e0_eq_zero (a : Byte) : a &&& 0xe0#8 = 0#8 ↔ a.toNat < 32 := by
  revert a; decide

/-- The mask of RDDIGEST leaves `arg[4:0]` open. -/
theorem matches_rddigest_iff (w : CmdWord) : w &&& 0xfe0 = 0x400 ↔ w.toNat / 32 = 32 := by
  rw [cmd_and_eq_iff_fields]
  change cmdOp w &&& BitVec.allOnes 4 = 4#4 ∧ cmdArg w &&& 0xe0#8 = 0#8 ↔ _
  rw [BitVec.and_allOnes, byte_and_e0_eq_zero, ← BitVec.toNat_inj, toNat_cmdOp, toNat_cmdArg, BitVec.toNat_ofNat]
  omega

/-! ### The word of a command -/

/-- That `n` is the number of the word of the instruction (30_encoding.md R77, R78); a micro-operation has no command word.
That it is the word decoded is `decodeCmd_eq_ok_iff`, that it is the word encoded `hasCmdNumber_iff_encode`. -/
def HasCmdNumber (n : Nat) : Instr → Prop
  | .init => n = 0x100
  | .update b => n = 0x200 + b.toNat
  | .finalize => n = 0x300
  | .rddigest j => j.toNat < 32 ∧ n = 0x400 + j.toNat
  | .blkgoAbsorb | .blkgoPad | .padmark | .padzero | .padlenFirst | .padlenNext => False
  | .wload | .wexp | .vload | .round | .fold => False

/-- The decoder by the number of the word. -/
theorem decodeCmd_eq (w : CmdWord) :
    decodeCmd w =
      if w = 0x100 then .ok .init
      else if w.toNat / 256 = 2 then .ok (.update (cmdArg w))
      else if w = 0x300 then .ok .finalize
      else if w.toNat / 32 = 32 then .ok (.rddigest ((cmdIndex w).setWidth 8))
      else .error (illegalReason w) := by
  simp only [decodeCmd, and_fullMask_eq_iff, matches_update_iff, matches_rddigest_iff]

/-- A word decodes to an instruction exactly where its number is that instruction's. -/
theorem decodeCmd_eq_ok_iff {w : CmdWord} {i : Instr} : decodeCmd w = .ok i ↔ HasCmdNumber w.toNat i := by
  rw [decodeCmd_eq]
  constructor
  · intro h
    split_ifs at h with h1 h2 h3 h4 <;> cases h
    · exact congrArg BitVec.toNat h1
    · rw [HasCmdNumber, toNat_cmdArg]
      omega
    · exact congrArg BitVec.toNat h3
    · rw [HasCmdNumber, BitVec.toNat_setWidth, toNat_cmdIndex]
      omega
  · intro h
    cases i with
    | init =>
      obtain rfl : w = 0x100 := BitVec.eq_of_toNat_eq h
      rfl
    | update b =>
      have hb : cmdArg w = b := BitVec.eq_of_toNat_eq (by rw [toNat_cmdArg]; simp only [HasCmdNumber] at h; omega)
      simp only [HasCmdNumber] at h
      rw [if_neg (by bv_omega), if_pos (by omega), hb]
    | finalize =>
      obtain rfl : w = 0x300 := BitVec.eq_of_toNat_eq h
      rfl
    | rddigest j =>
      obtain ⟨hj, hw⟩ := h
      have hindex : (cmdIndex w).setWidth 8 = j :=
        BitVec.eq_of_toNat_eq (by rw [BitVec.toNat_setWidth, toNat_cmdIndex]; omega)
      rw [if_neg (by bv_omega), if_neg (by omega), if_neg (by bv_omega), if_pos (by omega), hindex]
    | _ => exact h.elim

/-- The word that a byte makes below a row's match. -/
theorem toNat_or_byte (k : Nat) (hk : k < 16) (b : Byte) :
    (BitVec.ofNat 12 (2 ^ 8 * k) ||| b.setWidth 12).toNat = 2 ^ 8 * k + b.toNat := by
  rw [Nat.two_pow_add_eq_or_of_lt b.isLt, BitVec.toNat_or, BitVec.toNat_ofNat, BitVec.toNat_setWidth,
    Nat.mod_eq_of_lt (by omega), Nat.mod_eq_of_lt (by omega)]

/-- A word has an instruction's number exactly where the instruction is well formed and encoded by the word. -/
theorem hasCmdNumber_iff_encode {w : CmdWord} {i : Instr} :
    HasCmdNumber w.toNat i ↔ i.wellFormed = true ∧ encode i = .cmd w := by
  have hword {x : CmdWord} {n : Nat} (hx : x.toNat = n) : w.toNat = n ↔ TableWord.cmd x = .cmd w := by
    rw [TableWord.cmd.injEq, ← BitVec.toNat_inj, hx, eq_comm]
  cases i with
  | init => exact (hword (x := 0x100) rfl).trans (and_iff_right rfl).symm
  | update b => exact (hword (toNat_or_byte 2 (by decide) b)).trans (and_iff_right rfl).symm
  | finalize => exact (hword (x := 0x300) rfl).trans (and_iff_right rfl).symm
  | rddigest j => exact and_congr decide_eq_true_iff.symm (hword (toNat_or_byte 4 (by decide) j))
  | _ => exact ⟨False.elim, fun h => nomatch h.2⟩

/-- A word that decodes is that of a well-formed instruction, and the word of a well-formed instruction decodes to it. -/
theorem decodeCmd_eq_ok_iff_encode {w : CmdWord} {i : Instr} :
    decodeCmd w = .ok i ↔ i.wellFormed = true ∧ encode i = .cmd w :=
  decodeCmd_eq_ok_iff.trans hasCmdNumber_iff_encode

/-! ### The legal words -/

/-- The numbers of the legal words (30_encoding.md R79); that they are is `exists_decodeCmd_eq_ok_iff`. -/
def legalNumbers : Finset Nat := insert 0x100 (Finset.Icc 0x200 0x300 ∪ Finset.Ico 0x400 0x420)

theorem mem_legalNumbers {n : Nat} :
    n ∈ legalNumbers ↔ n = 0x100 ∨ (0x200 ≤ n ∧ n ≤ 0x300) ∨ (0x400 ≤ n ∧ n < 0x420) := by
  simp [legalNumbers]

theorem card_legalNumbers : legalNumbers.card = 290 := by
  have hdisjoint : Disjoint (Finset.Icc 0x200 0x300) (Finset.Ico 0x400 0x420) := by
    refine Finset.disjoint_left.2 fun n h h' => ?_
    rw [Finset.mem_Icc] at h
    rw [Finset.mem_Ico] at h'
    omega
  rw [legalNumbers, Finset.card_insert_of_notMem (by simp), Finset.card_union_of_disjoint hdisjoint, Nat.card_Icc,
    Nat.card_Ico]

theorem exists_decodeCmd_eq_ok_iff {w : CmdWord} : (∃ i, decodeCmd w = .ok i) ↔ w.toNat ∈ legalNumbers := by
  rw [decodeCmd_eq, mem_legalNumbers]
  split_ifs <;> simp <;> bv_omega

theorem exists_decodeCmd_eq_error_iff {w : CmdWord} : (∃ e, decodeCmd w = .error e) ↔ w.toNat ∉ legalNumbers := by
  rw [← exists_decodeCmd_eq_ok_iff]
  cases decodeCmd w <;> simp

/-- A test that holds below `n` of exactly the members of a set of numbers below `n` counts the set. -/
theorem countP_range_eq_card {n : Nat} {p : Nat → Bool} {s : Finset Nat} (hs : ∀ k ∈ s, k < n)
    (hp : ∀ k < n, (p k = true ↔ k ∈ s)) : (List.range n).countP p = s.card := by
  rw [List.countP_eq_length_filter, ← List.toFinset_card_of_nodup (List.nodup_range.filter p)]
  congr 1
  ext k
  rw [List.mem_toFinset, List.mem_filter, List.mem_range]
  exact ⟨fun ⟨hk, h⟩ => (hp k hk).1 h, fun h => ⟨hs k h, (hp k (hs k h)).2 h⟩⟩

/-- An illegal word is answered `ERR(ILLEGAL)`. -/
theorem Machine.acceptWord_of_error {w : CmdWord} {e : DecodeError} (h : decodeCmd w = .error e) (s : State) :
    acceptWord w s = .next (s.answerError .illegal) := by
  rw [acceptWord, h]

end Sys2Proof

namespace Sys2Proof.Proofs

open Sys2Proof.Machine

/-- Settles O16: each command by the number of its word, and each mask by what it leaves open. -/
theorem commandWordsDecodeByTable : Obligations.CommandWordsDecodeByTable := by
  intro w
  have hw := w.isLt
  refine ⟨decodeCmd_eq_ok_iff.trans (BitVec.toNat_inj (y := 0x100)), and_fullMask_eq_iff w _,
    fun b => decodeCmd_eq_ok_iff, ?_, decodeCmd_eq_ok_iff.trans (BitVec.toNat_inj (y := 0x300)), and_fullMask_eq_iff w _,
    fun j => decodeCmd_eq_ok_iff, ?_, countP_le_one_of_pairwise ?_⟩
  · rw [matches_update_iff]
    refine ⟨fun h => ⟨cmdArg w, ?_⟩, fun ⟨b, hb⟩ => by omega⟩
    rw [toNat_cmdArg]
    omega
  · rw [matches_rddigest_iff]
    refine ⟨fun h => ⟨(cmdIndex w).setWidth 8, ?_⟩, fun ⟨j, hj, hw⟩ => by omega⟩
    rw [BitVec.toNat_setWidth, toNat_cmdIndex]
    omega
  · simp only [List.pairwise_cons, List.mem_cons, id_eq, beq_iff_eq, and_fullMask_eq_iff, matches_update_iff,
      matches_rddigest_iff, forall_eq_or_imp, List.not_mem_nil, false_implies, implies_true, List.Pairwise.nil, and_true]
    bv_omega

/-- Settles O17: the legal words by their numbers, and an illegal word by the answer it gets. -/
theorem illegalWordsAreRefusedUnchanged : Obligations.IllegalWordsAreRefusedUnchanged := by
  refine ⟨fun w => ?_, ?_, fun w e s h => ⟨_, acceptWord_of_error h s, rfl, rfl, ⟨rfl, rfl⟩, rfl⟩, ⟨_, rfl⟩, ⟨_, rfl⟩⟩
  · rw [exists_decodeCmd_eq_error_iff, mem_legalNumbers]
    simp only [ne_eq, ← BitVec.toNat_inj, toNat_cmdOp, toNat_cmdArg, BitVec.ofNat_eq_ofNat, BitVec.toNat_ofNat]
    omega
  · rw [← card_legalNumbers]
    refine countP_range_eq_card (fun k hk => ?_) fun k hk => ?_
    · rw [mem_legalNumbers] at hk
      omega
    · have hword : (BitVec.ofNat 12 k).toNat = k := Nat.mod_eq_of_lt hk
      rw [← hword, ← exists_decodeCmd_eq_ok_iff, hword]
      cases decodeCmd (BitVec.ofNat 12 k) <;> simp

end Sys2Proof.Proofs
end

section
/-! The selection table as a decoder (30_encoding.md R82, R83): no two rows apply to one vector, so a vector decodes to the
one row that applies; the enabled micro-operation by the four cells; and the statements about selection and decoding. -/

namespace Sys2Proof

open Machine

/-! ### The rows exclude each other -/

/-- What a row's condition asks of a vector's fields that another row's match denies. -/
def RowCond.deniedBy (c : RowCond) (r : UopRow) : Bool :=
  match c with
  | .always => false
  | .cntNot56 => svCnt r.mask = BitVec.allOnes 7 ∧ svCnt r.pattern = 56
  | .tFrom16 => svT r.mask = 48 ∧ svT r.pattern = 0

/-- Two rows ask for different bits at a place that both masks cover. -/
def UopRow.clashes (r r' : UopRow) : Bool := r.pattern &&& r'.mask ≠ r'.pattern &&& r.mask

theorem UopRow.applies_iff {r : UopRow} {v : SeqVec} :
    r.applies v = true ↔ v &&& r.mask = r.pattern ∧ r.cond.holds v = true := by
  rw [UopRow.applies, Bool.and_eq_true, beq_iff_eq]

theorem UopRow.not_clashes_of_applies {r r' : UopRow} {v : SeqVec} (h : r.applies v = true) (h' : r'.applies v = true) :
    r.clashes r' = false := by
  rw [UopRow.clashes, decide_eq_false_iff_not, not_not, ← (applies_iff.1 h).1, ← (applies_iff.1 h').1, BitVec.and_assoc,
    BitVec.and_assoc, BitVec.and_comm r.mask]

/-- The condition of a row that applies is not denied by a row that applies. -/
theorem RowCond.not_deniedBy_of_applies {c : RowCond} {r : UopRow} {v : SeqVec} (hc : c.holds v = true)
    (h : r.applies v = true) : c.deniedBy r = false := by
  obtain ⟨-, -, hcnt, ht⟩ := (and_eq_iff_fields _ _ _).1 (UopRow.applies_iff.1 h).1
  cases c with
  | always => rfl
  | cntNot56 =>
    refine decide_eq_false fun ⟨hmask, hpattern⟩ => ?_
    rw [hmask, BitVec.and_allOnes, hpattern] at hcnt
    simp [RowCond.holds, hcnt] at hc
  | tFrom16 =>
    refine decide_eq_false fun ⟨hmask, hpattern⟩ => ?_
    rw [hmask, hpattern] at ht
    have hlt := (t_and_48_eq_zero _).1 ht
    have hge : 16 ≤ (svT v).toNat := by simpa [RowCond.holds] using hc
    omega

/-- Two different rows of the table clash, or the condition of one is denied by the other. -/
theorem uopRows_exclude : ∀ r ∈ uopRows, ∀ r' ∈ uopRows, r ≠ r' →
    r.clashes r' = true ∨ r.cond.deniedBy r' = true ∨ r'.cond.deniedBy r = true := by
  decide

theorem eq_of_applies {r r' : UopRow} {v : SeqVec} (hr : r ∈ uopRows) (hr' : r' ∈ uopRows) (h : r.applies v = true)
    (h' : r'.applies v = true) : r = r' := by
  by_contra hne
  have hclash := UopRow.not_clashes_of_applies h h'
  have hdenied := RowCond.not_deniedBy_of_applies (UopRow.applies_iff.1 h).2 h'
  have hdenied' := RowCond.not_deniedBy_of_applies (UopRow.applies_iff.1 h').2 h
  have hexclude := uopRows_exclude r hr r' hr' hne
  simp [hclash, hdenied, hdenied'] at hexclude

theorem nodup_uopRows : uopRows.Nodup := by decide

theorem countP_applies_le_one (v : SeqVec) : uopRows.countP (fun r => r.applies v) ≤ 1 :=
  countP_le_one_of_pairwise <| nodup_uopRows.pairwise_of_forall_ne fun _ hr _ hr' hne ⟨h, h'⟩ =>
    hne (eq_of_applies hr hr' h h')

/-! ### What a vector decodes to -/

theorem decodeSV_eq_ok_iff {v : SeqVec} {i : Instr} :
    decodeSV v = .ok i ↔ ∃ r ∈ uopRows, r.applies v = true ∧ r.instr = i := by
  rw [decodeSV]
  cases hfind : uopRows.find? (fun r => r.applies v) with
  | none =>
    have hno := List.find?_eq_none.1 hfind
    exact ⟨nofun, fun ⟨r, hr, h, _⟩ => absurd h (hno r hr)⟩
  | some r =>
    have hr := List.mem_of_find?_eq_some hfind
    have h : r.applies v = true := by simpa using List.find?_some hfind
    simp only [Except.ok.injEq]
    refine ⟨fun hi => ⟨r, hr, h, hi⟩, ?_⟩
    rintro ⟨r', hr', h', rfl⟩
    rw [eq_of_applies hr hr' h h']

theorem uopRows_instr : ∀ r ∈ uopRows, r.instr.isCommand = false := by decide

theorem isCommand_of_decodeSV {v : SeqVec} {i : Instr} (h : decodeSV v = .ok i) : i.isCommand = false := by
  obtain ⟨r, hr, -, rfl⟩ := decodeSV_eq_ok_iff.1 h
  exact uopRows_instr r hr

theorem Instr.wellFormed_of_not_isCommand {i : Instr} (h : i.isCommand = false) : i.wellFormed = true := by
  cases i with
  | rddigest j => cases h
  | _ => rfl

theorem encode_of_isCommand {i : Instr} (h : i.isCommand = true) : ∃ w, encode i = .cmd w := by
  cases i with
  | init | update b | finalize | rddigest j => exact ⟨_, rfl⟩
  | _ => cases h

theorem decode_encode_of_not_isCommand {i : Instr} (h : i.isCommand = false) : decode (encode i) = .ok i := by
  cases i with
  | init | update b | finalize | rddigest j => cases h
  | _ => rfl

theorem decode_encode {i : Instr} (h : i.wellFormed = true) : decode (encode i) = .ok i := by
  cases hcmd : i.isCommand with
  | false => exact decode_encode_of_not_isCommand hcmd
  | true =>
    obtain ⟨w, hw⟩ := encode_of_isCommand hcmd
    rw [hw]
    exact decodeCmd_eq_ok_iff_encode.2 ⟨h, hw⟩

theorem wellFormed_of_decode {tw : TableWord} {i : Instr} (h : decode tw = .ok i) : i.wellFormed = true := by
  cases tw with
  | cmd w => exact (decodeCmd_eq_ok_iff_encode.1 h).1
  | sv v => exact Instr.wellFormed_of_not_isCommand (isCommand_of_decodeSV h)

end Sys2Proof

namespace Sys2Proof.Machine

/-! ### The enabled micro-operation (R82) -/

variable {c : Cells} {p : Phase} {ps : PadStage} {n : BitVec 7} {t : BitVec 6} {i : Instr}

theorem exists_row_of_selectedWhen (h : SelectedWhen p ps n t i) : ∃ r ∈ uopRows, r.instr = i := by
  cases i <;> simp [uopRows, SelectedWhen] at h ⊢

theorem decodeSV_packSV_iff : decodeSV (packSV p ps n t) = .ok i ↔ SelectedWhen p ps n t i := by
  rw [decodeSV_eq_ok_iff]
  constructor
  · rintro ⟨r, hr, h, rfl⟩
    exact (applies_packSV_iff hr p ps n t).1 h
  · intro h
    obtain ⟨r, hr, rfl⟩ := exists_row_of_selectedWhen h
    exact ⟨r, hr, (applies_packSV_iff hr p ps n t).2 h, rfl⟩

/-- The enabled micro-operation is the one whose row asks for what the cells hold. -/
theorem enabled_eq_some_iff (hps : c.ps = some ps) (hn : c.cnt = some n) (ht : c.t = some t) :
    c.enabled = some i ↔ ¬(c.phase = .pad ∧ ps = .none) ∧ SelectedWhen c.phase ps n t i := by
  rw [← decodeSV_packSV_iff]
  simp only [Cells.enabled, Cells.seqVec, hps, hn, ht, Option.some.injEq]
  split
  · simp_all
  · cases decodeSV (packSV c.phase ps n t) <;> simp_all [Except.toOption]

/-- Only the match of BLKGO from `PAD` leaves `PS` open (R82). -/
theorem stage_of_selectedWhen (hi : i ≠ .blkgoPad) (h : SelectedWhen p ps n t i) : ¬(p = .pad ∧ ps = .none) := by
  cases i <;> simp_all [SelectedWhen]

theorem enabled_eq_some_iff_of_ne (hps : c.ps = some ps) (hn : c.cnt = some n) (ht : c.t = some t) (hi : i ≠ .blkgoPad) :
    c.enabled = some i ↔ SelectedWhen c.phase ps n t i :=
  (enabled_eq_some_iff hps hn ht).trans (and_iff_right_of_imp (stage_of_selectedWhen hi))

theorem phase_of_selectedWhen (h : SelectedWhen p ps n t i) :
    (p = .absorb ∧ n = 64) ∨ p ∈ [.pad, .sched, .vinit, .round, .fold] := by
  cases i <;> simp_all [SelectedWhen]

/-- A core with an enabled micro-operation is not ready. -/
theorem not_ready_of_enabled (h : c.enabled = some i) : c.ready = false := by
  obtain ⟨ps, n, t, -, hn, -, hsel⟩ := selectedWhen_of_enabled h
  rcases phase_of_selectedWhen hsel with ⟨hp, rfl⟩ | hp
  · exact busy_of_full hp hn
  · exact busy_of_phase hp

theorem isCommand_of_selectedWhen (h : SelectedWhen p ps n t i) : i.isCommand = false :=
  isCommand_of_decodeSV (decodeSV_packSV_iff.2 h)

theorem toNat_append_eq_add {k l : Nat} (x : BitVec k) (y : BitVec l) : (x ++ y).toNat = x.toNat * 2 ^ l + y.toNat := by
  rw [BitVec.toNat_append, ← Nat.shiftLeft_add_eq_or_of_lt y.isLt, Nat.shiftLeft_eq]

/-- The sequencer vector as a number (R83). -/
theorem toNat_packSV (p : Phase) (ps : PadStage) (n : BitVec 7) (t : BitVec 6) :
    (packSV p ps n t).toNat = p.code.toNat * 2 ^ 15 + ps.code.toNat * 2 ^ 13 + n.toNat * 2 ^ 6 + t.toNat := by
  simp only [packSV, toNat_append_eq_add]
  omega

end Sys2Proof.Machine

namespace Sys2Proof.Proofs

open Sys2Proof.Machine

/-- Settles O15: a command word decodes by its number, a vector by its row. -/
theorem decodeUndoesEncode : Obligations.DecodeUndoesEncode :=
  ⟨fun _ => decode_encode, fun _ _ => wellFormed_of_decode,
    fun _ _ h => ⟨(decodeCmd_eq_ok_iff_encode.1 h).2, isCommand_of_decodeCmd h⟩, fun _ _ => isCommand_of_decodeSV⟩

/-- Settles O18: each row's condition as the enabled micro-operation's; where the phase is ready, or `PAD` with `NONE`, no
row's condition holds. -/
theorem selectionFollowsPhaseTable : Obligations.SelectionFollowsPhaseTable := by
  intro c ps n t hps hn ht
  have henabled {i : Instr} : c.enabled = some i ↔ _ := enabled_eq_some_iff hps hn ht
  have hrow (i : Instr) (hi : i ≠ .blkgoPad := by decide) : c.enabled = some i ↔ SelectedWhen c.phase ps n t i :=
    enabled_eq_some_iff_of_ne hps hn ht hi
  have hblkgoPad : c.enabled = some .blkgoPad ↔ c.phase = .pad ∧ n = 64 ∧ ps ≠ .none := by
    rw [henabled, SelectedWhen]
    tauto
  refine ⟨hrow .blkgoAbsorb, hblkgoPad, (hrow .padmark).trans (and_congr_right' and_comm),
    (hrow .padzero).trans (and_congr_right' and_left_comm), hrow .padlenFirst,
    (hrow .padlenNext).trans (and_congr_right' and_comm), hrow .wload, hrow .wexp, hrow .vload, hrow .round, hrow .fold,
    fun i h => isCommand_of_selectedWhen (henabled.1 h).2, fun h => Option.eq_none_iff_forall_ne_some.2 fun i hi => ?_⟩
  have hstage : ¬(c.phase = .pad ∧ ps = .none) := (henabled.1 hi).1
  have hready : ¬c.ready = true := by simp [not_ready_of_enabled hi]
  rw [ready_iff] at hready
  simp only [hn, Option.some.injEq, exists_eq_left'] at hready
  tauto

/-- Settles O19: two rows that applied to one vector would exclude each other; and the fields are those of the parts
appended. -/
theorem selectionRowsAreDisjoint : Obligations.SelectionRowsAreDisjoint :=
  ⟨fun v => ⟨countP_applies_le_one v, fun _ => decodeSV_eq_ok_iff⟩, fun p ps n t =>
    ⟨svPhase_packSV p ps n t, svPs_packSV p ps n t, svCnt_packSV p ps n t, svT_packSV p ps n t, toNat_packSV p ps n t⟩⟩

/-- Settles O20: the decoders run on the words written out. -/
theorem specWordsDecodeAsWritten : Obligations.SpecWordsDecodeAsWritten := by
  unfold Obligations.SpecWordsDecodeAsWritten
  decide

end Sys2Proof.Proofs
end

section
/-! The response words (30_encoding.md R81): which responses carry data, and the statement. -/

namespace Sys2Proof.Machine

variable {s t : State}

theorem toNat_rspWord (c : RspCode) (d : Byte) : (rspWord c d).toNat = c.bits.toNat * 2 ^ 8 + d.toNat :=
  toNat_append_eq_add c.bits d

/-- A command other than RDDIGEST is answered without data. -/
theorem rspData_commandResponse {i : Instr} (hi : ∀ j, i ≠ .rddigest j) (p : Phase) (atBound : Prop)
    [Decidable atBound] (h : Oct (Option Word)) : rspData (commandResponse i p atBound h) = 0 := by
  cases i with
  | rddigest j => exact absurd rfl (hi j)
  | update b =>
    unfold commandResponse
    split_ifs <;> exact rspData_rspWord _ 0
  | finalize =>
    unfold commandResponse
    split_ifs <;> exact rspData_rspWord _ 0
  | _ => exact rspData_rspWord _ 0

/-- A ready core answers RDDIGEST with an error that carries no data, or, in `DONE`, with the byte of the digest. -/
theorem execRddigest_response {j : Byte} (hr : s.ready = true) (he : execRddigest j s = .next t) :
    (∃ c, c ≠ .ok ∧ t.responses = rspWord c 0 :: s.responses) ∨
    (s.phase = .done ∧ ∃ d, digestCell s.h (j.setWidth 5) = some d ∧ t.responses = rspWord .ok d :: s.responses) := by
  rcases execRddigest_cases he with ⟨hb, -⟩ | ⟨-, -, rfl⟩ | ⟨-, -, -, rfl⟩ | ⟨-, -, hp, d, hd, rfl⟩
  · cases hr.symm.trans hb
  · exact .inl ⟨.illegal, nofun, rfl⟩
  · exact .inl ⟨.sequence, nofun, rfl⟩
  · exact .inr ⟨hp, d, hd, rfl⟩

/-- What a ready core answers to a word: a response that carries no data, or, to an RDDIGEST in `DONE`, OK with the byte of
the digest. An RDDIGEST answered without data is refused. -/
theorem acceptWord_response {w : CmdWord} (hr : s.ready = true) (hw : acceptWord w s = .next t) :
    ∃ r, t.responses = r :: s.responses ∧
      ((rspData r = 0 ∧ ∀ j, decodeCmd w = .ok (.rddigest j) → rspCode r ≠ 0) ∨
      ∃ j d, decodeCmd w = .ok (.rddigest j) ∧ s.phase = .done ∧ digestCell s.h (j.setWidth 5) = some d ∧
        r = rspWord .ok d) := by
  rcases acceptWord_cases hw with ⟨i, hi, he⟩ | ⟨e, herr, rfl⟩
  · by_cases hread : ∃ j, i = .rddigest j
    · obtain ⟨j, rfl⟩ := hread
      rcases execRddigest_response hr he with ⟨c, hc, hresp⟩ | ⟨hp, d, hd, hresp⟩
      · refine ⟨_, hresp, .inl ⟨rspData_rspWord c 0, fun _ _ => ?_⟩⟩
        rw [rspCode_rspWord]
        cases c <;> simp_all [RspCode.bits]
      · exact ⟨_, hresp, .inr ⟨j, d, hi, hp, hd, rfl⟩⟩
    · have hne (j : Byte) : i ≠ .rddigest j := fun h => hread ⟨j, h⟩
      refine ⟨_, exec_responses (isCommand_of_decodeCmd hi) hr he, .inl ⟨rspData_commandResponse hne _ _ _, fun j hj => ?_⟩⟩
      exact absurd (Except.ok.inj (hi.symm.trans hj)) (hne j)
  · exact ⟨_, rfl, .inl ⟨rspData_rspWord .illegal 0, fun j hj => by cases herr.symm.trans hj⟩⟩

end Sys2Proof.Machine

namespace Sys2Proof.Proofs

open Sys2Proof.Machine

/-- Settles O31: the two fields of a response, and the one response of an accepted word. -/
theorem everyAnswerIsOneResponseWord : Obligations.EveryAnswerIsOneResponseWord := by
  refine ⟨fun c d => ⟨toNat_rspWord c d, rspCode_rspWord c d, rspData_rspWord c d⟩, rfl, rfl, rfl, rfl, rfl, rfl, rfl,
    rfl, rfl, fun s t w hr hw => ?_⟩
  obtain ⟨r, hresp, ⟨hzero, hrefused⟩ | ⟨j, d, hj, hp, hd, rfl⟩⟩ := acceptWord_response hr hw
  · exact ⟨r, hresp, fun j hj hok => absurd hok (hrefused j hj), fun _ => hzero⟩
  · refine ⟨_, hresp, fun j' hj' _ => ?_, ?_⟩
    · cases hj.symm.trans hj'
      rw [rspData_rspWord]
      exact ⟨hp, hd⟩
    · rintro (hno | hcode)
      · exact absurd hj (hno j)
      · exact absurd (rspCode_rspWord .ok d) hcode

end Sys2Proof.Proofs
end

section
/-! The layout of the padded message (30_encoding.md R71, 41_padder.md R110, R111): its length, each byte by its place, and
the statement. -/

namespace Sys2Proof.Machine

/-- The count of zero bytes is the mathematical remainder (R111). -/
theorem padZeros_eq (len : Nat) : (padZeros len : Int) = (55 - (len : Int)) % 64 :=
  Int.toNat_of_nonneg (Int.emod_nonneg _ (by decide))

/-- The message, the mark and the zero bytes end 8 bytes before a multiple of 64. -/
theorem padZeros_mod (len : Nat) : (len + 1 + padZeros len) % 64 = 56 := by
  have h := padZeros_eq len
  omega

theorem padZeros_lt (len : Nat) : padZeros len < 64 := by
  have h := padZeros_eq len
  omega

theorem pad_of_lt {m : List Byte} (h : m.length < 2 ^ 61) : pad m = .ok (padBytes m) := if_pos h

theorem length_padBytes (m : List Byte) : (padBytes m).length = m.length + padZeros m.length + 9 := by
  simp only [padBytes, be64Bytes, List.length_append, List.length_replicate, List.length_map, List.length_range,
    List.length_singleton]
  omega

/-- Below `L` the bytes of the message. -/
theorem getElem?_padBytes_message {m : List Byte} {i : Nat} (h : i < m.length) : (padBytes m)[i]? = m[i]? := by
  rw [padBytes, List.append_assoc, List.append_assoc, List.getElem?_append_left h]

/-- From `L` on the mark, the zero bytes and the length field. -/
theorem getElem?_padBytes_add (m : List Byte) (i : Nat) :
    (padBytes m)[m.length + i]? =
      (Config.padMark :: (List.replicate (padZeros m.length) 0 ++ be64Bytes (BitVec.ofNat 64 (m.length * 8))))[i]? := by
  rw [padBytes, List.append_assoc, List.append_assoc, List.getElem?_append_right (Nat.le_add_right _ _),
    Nat.add_sub_cancel_left, List.singleton_append]

theorem getElem?_padBytes_mark (m : List Byte) : (padBytes m)[m.length]? = some 0x80 := getElem?_padBytes_add m 0

theorem getElem?_padBytes_zero {m : List Byte} {i : Nat} (h : i < padZeros m.length) :
    (padBytes m)[m.length + (i + 1)]? = some 0 := by
  rw [getElem?_padBytes_add, List.getElem?_cons_succ, List.getElem?_append_left (by simpa using h),
    List.getElem?_replicate_of_lt h]

theorem getElem?_be64Bytes (v : DWord) {k : Nat} (h : k < 8) : (be64Bytes v)[k]? = some (be64 k v) := by
  simp [be64Bytes, h]

theorem getElem?_padBytes_length (m : List Byte) {k : Nat} (h : k < 8) :
    (padBytes m)[m.length + (padZeros m.length + k + 1)]? = some (be64 k (BitVec.ofNat 64 (m.length * 8))) := by
  rw [getElem?_padBytes_add, List.getElem?_cons_succ, List.getElem?_append_right (by simp)]
  simpa using getElem?_be64Bytes _ h

end Sys2Proof.Machine

namespace Sys2Proof.Proofs

open Sys2Proof.Machine

/-- Settles O9: each byte by its place among the four parts. -/
theorem paddedMessageLayout : Obligations.PaddedMessageLayout := by
  intro m hm
  have hlength := length_padBytes m
  have hmod := padZeros_mod m.length
  have hlt := padZeros_lt m.length
  refine ⟨padBytes m, pad_of_lt hm, hlength, by omega, by omega, fun n hn hle => by omega, padZeros_eq _,
    fun i hi => getElem?_padBytes_message hi, getElem?_padBytes_mark m, fun i hi hle => ?_, fun k hk => ?_,
    Nat.mod_eq_of_lt (by omega), fun k hk => by omega⟩
  · obtain ⟨j, rfl⟩ := Nat.exists_eq_add_of_lt hi
    exact getElem?_padBytes_zero (by omega)
  · rw [show m.length + padZeros m.length + 1 + k = m.length + (padZeros m.length + k + 1) by omega]
    exact getElem?_padBytes_length m hk

end Sys2Proof.Proofs
end

section
/-! What a ready core does with a command that is legal in its phase (40_commands.md R92 to R95): each command's answer,
and the statements about the four commands and about when the core is ready. -/

namespace Sys2Proof.Machine

variable {s : State} {n : BitVec 7} {l : BitVec 61}

theorem ready_of_absorb {c : Cells} (hp : c.phase = .absorb) (hn : c.cnt = some n) (hlt : n.toNat < 64) :
    c.ready = true :=
  (ready_iff c).2 (.inr (.inr (.inr ⟨hp, n, hn, hlt⟩)))

/-- In a ready core no micro-operation is enabled. -/
theorem enabled_eq_none_of_ready {c : Cells} (hr : c.ready = true) : c.enabled = none :=
  Option.eq_none_iff_forall_ne_some.2 fun _ hi => by simp [not_ready_of_enabled hi] at hr

theorem enabled_of_selectedWhen {c : Cells} {p : PadStage} {t : BitVec 6} {i : Instr} (hp : c.ps = some p)
    (hn : c.cnt = some n) (ht : c.t = some t) (hi : i ≠ .blkgoPad) (h : SelectedWhen c.phase p n t i) :
    c.enabled = some i :=
  (enabled_eq_some_iff_of_ne hp hn ht hi).2 h

theorem execInit_of_ready (hr : s.ready = true) : execInit s = .next (s.openMessage initialHash).answerOk :=
  whenReady_of hr

/-- Below the length bound UPDATE stores and counts its byte. -/
theorem execUpdate_of_absorb (b : Byte) (hr : s.ready = true) (hp : s.phase = .absorb) (hn : s.cnt = some n)
    (hl : s.len = some l) (hne : l ≠ Config.maxLen) :
    execUpdate b s = .next ({ s with len := some (l + 1) }.bufWrite n b).answerOk := by
  rw [execUpdate, whenReady_of hr, inPhase_of hp, appendByte, hn, need_some, hl, need_some, if_neg hne]

theorem execFinalize_of_absorb (hr : s.ready = true) (hp : s.phase = .absorb) :
    execFinalize s = .next { s with ps := some .mark, phase := .pad }.answerOk := by
  rw [execFinalize, whenReady_of hr, inPhase_of hp]

theorem execRddigest_of_done {j : Byte} {d : Byte} (hp : s.phase = .done) (hj : j.toNat < 32)
    (hd : digestCell s.h (j.setWidth 5) = some d) : execRddigest j s = .next (s.answerData d) := by
  rw [execRddigest, whenReady_of (ready_of_done hp), if_neg (by omega), inPhase_of hp, hd, need_some]

/-- An argument beyond the digest is answered as the illegal word would be. -/
theorem execRddigest_of_ge {j : Byte} (hr : s.ready = true) (hj : 32 ≤ j.toNat) :
    execRddigest j s = .next (s.answerError .illegal) := by
  rw [execRddigest, whenReady_of hr, if_pos hj]

/-- A length below the bound is counted on without a wrap. -/
theorem toNat_len_succ (hne : l ≠ Config.maxLen) : (l + 1).toNat = l.toNat + 1 := by
  have hmax : l.toNat ≠ 2 ^ 61 - 1 := fun h => hne (BitVec.eq_of_toNat_eq h)
  bv_omega

theorem digestBytes_eq_ofFn (hs : Oct Word) :
    digestBytes hs = List.ofFn fun j : Fin 32 => digestByte hs (BitVec.ofFin j) := rfl

/-- Byte `j` of the digest (46_digest_codec.md R181). -/
theorem getElem?_digestBytes (hs : Oct Word) (j : BitVec 5) :
    (digestBytes hs)[j.toNat]? = some (digestByte hs j) := by
  rw [digestBytes_eq_ofFn, List.getElem?_ofFn, dif_pos j.isLt]
  rfl

/-- An INIT or FINALIZE word with an argument is illegal (30_encoding.md R79). -/
theorem decodeCmd_eq_error_of_arg {w : CmdWord} (hop : cmdOp w = 1 ∨ cmdOp w = 3) (harg : cmdArg w ≠ 0) :
    ∃ e, decodeCmd w = .error e :=
  (Proofs.illegalWordsAreRefusedUnchanged.1 w).2 (.inr (.inl ⟨hop, harg⟩))

end Sys2Proof.Machine

namespace Sys2Proof.Proofs

open Sys2Proof.Machine

/-- Settles O22: a core with an enabled micro-operation is busy, and the invariants leave no busy core without one. -/
theorem readyExactlyWhenNothingIsEnabled : Obligations.ReadyExactlyWhenNothingIsEnabled :=
  fun _ h => ⟨h.ready_of_idle, enabled_eq_none_of_ready⟩

/-- Settles O25: the open message is written over every cell. -/
theorem initOpensMessage : Obligations.InitOpensMessage := by
  refine ⟨fun s hr => ⟨_, execInit_of_ready hr, rfl, rfl, rfl, rfl, rfl, rfl, Store.read_invalid, Store.read_invalid,
    rfl, rfl, status_eq (r := true) (p := .absorb) rfl rfl, ⟨rfl, rfl⟩, fun u hu => ?_⟩,
    fun s t s' t' hr hr' ht ht' => ?_, fun w hop => decodeCmd_eq_error_of_arg (.inl hop)⟩
  · cases hu
    rfl
  · cases (execInit_of_ready hr).symm.trans ht
    cases (execInit_of_ready hr').symm.trans ht'
    rfl

/-- Settles O26: the byte is stored at the count, and neither counter is at its last value. -/
theorem updateStoresAndCountsItsByte : Obligations.UpdateStoresAndCountsItsByte := by
  intro s b n l hp hn hlt hl hne
  have hsucc : (n + 1).toNat = n.toNat + 1 := by bv_omega
  have hp' : ({ s with len := some (l + 1) }.bufWrite n b).answerOk.phase = .absorb := hp
  refine ⟨_, execUpdate_of_absorb b (ready_of_absorb hp hn hlt) hp hn hl hne, Store.read_write_same _ _ b,
    readsSameBut_write _ _ b, ⟨n + 1, rfl, hsucc⟩, ⟨l + 1, rfl, toNat_len_succ hne⟩, hp, rfl, rfl, rfl, rfl, rfl, rfl,
    ⟨rfl, rfl⟩, fun h => ?_, fun h => ?_⟩
  · exact status_eq hp' (ready_of_absorb hp' rfl (by omega))
  · have hfull : n + 1 = 64 := BitVec.eq_of_toNat_eq (hsucc.trans (by rw [h]; rfl))
    refine ⟨status_eq hp' (busy_of_full hp' (congrArg some hfull)), fun hps ht => ?_⟩
    obtain ⟨ps, hps⟩ := Option.isSome_iff_exists.1 hps
    obtain ⟨t, ht⟩ := Option.isSome_iff_exists.1 ht
    exact enabled_of_selectedWhen hps rfl ht (by decide) ⟨hp', hfull⟩

/-- Settles O28: only the pad stage and the phase are written, and PADMARK's row asks for them. -/
theorem finalizeStartsPadding : Obligations.FinalizeStartsPadding := by
  refine ⟨fun s n hp hn hlt => ⟨_, execFinalize_of_absorb (ready_of_absorb hp hn hlt) hp, rfl, rfl, ⟨rfl, rfl⟩,
    status_eq (r := false) (p := .pad) rfl rfl, fun ht => ?_⟩, fun w hop => decodeCmd_eq_error_of_arg (.inr hop)⟩
  obtain ⟨t, ht⟩ := Option.isSome_iff_exists.1 ht
  exact enabled_of_selectedWhen rfl hn ht (by decide) ⟨rfl, rfl, hlt⟩

/-- Settles O29: the byte read from `H` is the digest's, and the answer leaves the cells for the next read. -/
theorem rddigestAnswersDigestByte : Obligations.RddigestAnswersDigestByte := by
  refine ⟨fun s j hs hp hh hj => ?_, fun s j hr hj => ⟨_, execRddigest_of_ge hr hj, rfl, rfl, ⟨rfl, rfl⟩⟩⟩
  have hd : digestCell s.h (j.setWidth 5) = some (digestByte hs (j.setWidth 5)) := by rw [hh, digestCell_held]
  have hbyte := getElem?_digestBytes hs (j.setWidth 5)
  rw [BitVec.toNat_setWidth, Nat.mod_eq_of_lt (by omega)] at hbyte
  exact ⟨_, _, execRddigest_of_done hp hj hd, hbyte, rfl, ⟨rfl, rfl⟩, rfl, _, execRddigest_of_done hp hj hd, rfl⟩

end Sys2Proof.Proofs
end

section
/-! What a command can do to a core (40_commands.md R90, R101, 60_exceptions.md R192): that it answers, what an answer
SEQUENCE says, what it leaves alone, and the two statements. -/

namespace Sys2Proof.Machine

variable {s t : State} {i : Instr}

/-- A command of a core that is not ready waits (R90). -/
theorem exec_of_busy (hi : i.isCommand = true) (hb : s.ready = false) : exec i s = .next s := by
  cases i with
  | init | update b | finalize | rddigest j => exact whenReady_of_busy hb
  | _ => cases hi

theorem acceptWord_of_ok {w : CmdWord} (h : decodeCmd w = .ok i) (s : State) : acceptWord w s = exec i s := by
  rw [acceptWord, h]

/-- No instruction touches the inputs. -/
theorem exec_sameInputs (he : exec i s = .next t) : SameInputs s t := by
  cases hi : i.isCommand with
  | false =>
    obtain ⟨-, -, hinputs, -⟩ := Proofs.microOpsLeaveTheRestAlone i s t hi he
    exact hinputs
  | true =>
    cases i with
    | init => rcases execInit_cases he with ⟨-, rfl⟩ | ⟨-, rfl⟩ <;> exact ⟨rfl, rfl⟩
    | update b =>
      rcases execUpdate_cases he with ⟨-, rfl⟩ | ⟨-, -, rfl⟩ | ⟨-, -, -, rfl⟩ | ⟨-, -, n, l, -, -, -, rfl⟩ <;>
        exact ⟨rfl, rfl⟩
    | finalize => rcases execFinalize_cases he with ⟨-, rfl⟩ | ⟨-, -, rfl⟩ | ⟨-, -, rfl⟩ <;> exact ⟨rfl, rfl⟩
    | rddigest j =>
      rcases execRddigest_cases he with ⟨-, rfl⟩ | ⟨-, -, rfl⟩ | ⟨-, -, -, rfl⟩ | ⟨-, -, -, d, -, rfl⟩ <;>
        exact ⟨rfl, rfl⟩
    | _ => cases hi

/-- A command answers wherever the cell it reads in its own phase holds a value. -/
theorem exec_answers_of_held (hi : i.isCommand = true) (hl : s.phase = .absorb → s.len.isSome)
    (hh : s.phase = .done → AllHeld s.h) : Answers (exec i s) := by
  cases i with
  | init => exact answers_whenReady fun _ => answers_next _
  | update b =>
    refine answers_whenReady fun hr => answers_inPhase fun hp => ?_
    obtain ⟨n, hn, -⟩ := cnt_of_ready_absorb hr hp
    refine answers_need (by rw [hn]; rfl) fun _ => answers_need (hl hp) fun _ => ?_
    split <;> exact answers_next _
  | finalize => exact answers_whenReady fun _ => answers_inPhase fun _ => answers_next _
  | rddigest j =>
    refine answers_whenReady fun _ => ?_
    split
    · exact answers_next _
    · exact answers_inPhase fun hp => answers_need (digestCell_isSome (hh hp) _) fun _ => answers_next _
  | _ => cases hi

/-- A command whose response is SEQUENCE has done nothing else (60_exceptions.md R192). -/
theorem exec_of_response_sequence {r : RspWord} (hi : i.isCommand = true) (hr : s.ready = true)
    (he : exec i s = .next t) (hresp : t.responses = r :: s.responses) (hcode : rspCode r = RspCode.sequence.bits) :
    t = s.answerError .sequence := by
  have hne {c : RspCode} {d : Byte} (h : rspWord c d :: s.responses = r :: s.responses) :
      c.bits = RspCode.sequence.bits := by
    rw [← hcode, ← (List.cons.inj h).1, rspCode_rspWord]
  cases i with
  | init =>
    cases (execInit_of_ready hr).symm.trans he
    cases hne hresp
  | update b =>
    rcases execUpdate_cases he with ⟨hb, -⟩ | ⟨-, -, rfl⟩ | ⟨-, -, -, rfl⟩ | ⟨-, -, n, l, -, -, -, rfl⟩
    · cases hr.symm.trans hb
    · rfl
    · cases hne hresp
    · cases hne hresp
  | finalize =>
    rcases execFinalize_cases he with ⟨hb, -⟩ | ⟨-, -, rfl⟩ | ⟨-, -, rfl⟩
    · cases hr.symm.trans hb
    · rfl
    · cases hne hresp
  | rddigest j =>
    rcases execRddigest_cases he with ⟨hb, -⟩ | ⟨-, -, rfl⟩ | ⟨-, -, -, rfl⟩ | ⟨-, -, -, d, -, rfl⟩
    · cases hr.symm.trans hb
    · cases hne hresp
    · rfl
    · cases hne hresp
  | _ => cases hi

end Sys2Proof.Machine

namespace Sys2Proof.Proofs

open Sys2Proof.Machine

/-- Settles O30: a command answers because the cell it reads is held, and its response is a function of the phase and
the length; an illegal word has its own answer. -/
theorem legalityByPhase : Obligations.LegalityByPhase := by
  refine ⟨fun s w hr hl hh => ?_, fun i s => exec_of_busy⟩
  cases hw : decodeCmd w with
  | error e =>
    exact ⟨_, _, acceptWord_of_error hw s, rfl, fun _ _ => rfl, nofun, nofun, nofun, nofun, nofun⟩
  | ok i =>
    have hi := isCommand_of_decodeCmd hw
    obtain ⟨t, he⟩ := exec_answers_of_held hi hl hh
    have hresp := exec_responses hi hr he
    refine ⟨t, _, (acceptWord_of_ok hw s).trans he, hresp, nofun, ?_, ?_, ?_, ?_, fun hcode => ?_⟩
    · rintro ⟨⟩
      rfl
    · rintro b ⟨⟩
      exact ⟨fun hp => if_neg hp, fun hp hmax => (if_pos hp).trans (if_pos hmax),
        fun hp hmax => (if_pos hp).trans (if_neg hmax)⟩
    · rintro ⟨⟩
      exact ⟨fun hp => if_pos hp, fun hp => if_neg hp⟩
    · rintro j ⟨⟩
      obtain ⟨hj, -⟩ := decodeCmd_eq_ok_iff.1 hw
      rw [commandResponse, if_neg (by omega)]
      exact ⟨fun hp => by rw [if_pos hp]; exact rspCode_rspWord .ok _, fun hp => if_neg hp⟩
    · obtain rfl := exec_of_response_sequence hi hr he hresp hcode
      exact ⟨(List.cons.inj hresp).1.symm, rfl, ⟨rfl, rfl⟩, rfl⟩

/-- Settles O32: by what each command can do when it answers, cell by cell. -/
theorem commandsLeaveTheRestAlone : Obligations.CommandsLeaveTheRestAlone := by
  refine ⟨fun i s t hi he => ⟨exec_sameInputs he, fun hb => ?_, ?_⟩, fun b s t he => ?_⟩
  · cases (exec_of_busy hi hb).symm.trans he
    rfl
  · cases i with
    | init => simp
    | update b =>
      rcases execUpdate_cases he with ⟨-, rfl⟩ | ⟨-, -, rfl⟩ | ⟨-, -, -, rfl⟩ | ⟨-, -, n, l, -, -, -, rfl⟩ <;> simp
    | finalize =>
      rcases execFinalize_cases he with ⟨-, rfl⟩ | ⟨-, -, rfl⟩ | ⟨-, -, rfl⟩ <;> simp [ReadsSame]
    | rddigest j => simp [execRddigest_toCells he, ReadsSame]
    | _ => cases hi
  · rcases execUpdate_cases he with ⟨hb, rfl⟩ | ⟨-, -, rfl⟩ | ⟨-, -, -, rfl⟩ | ⟨-, -, n, l, hn, -, -, rfl⟩
    · exact ⟨fun _ _ => rfl, fun _ _ hr => absurd (hb.symm.trans hr) (by decide), fun _ _ => rfl⟩
    · exact ⟨fun _ _ => rfl, fun _ _ _ hok => absurd (List.cons.inj hok).1 (by decide), fun _ _ => rfl⟩
    · exact ⟨fun _ _ => rfl, fun _ _ _ hok => absurd (List.cons.inj hok).1 (by decide), fun _ _ => rfl⟩
    · refine ⟨fun a ha => Store.read_write_ne _ b (ha n hn), fun n' hn' _ _ => ?_, fun hnok => absurd rfl hnok⟩
      cases hn.symm.trans hn'
      exact Store.read_write_same _ _ b

end Sys2Proof.Proofs
end

section
/-! A command that waits at a busy core (40_commands.md R90): no micro-operation reads the host's moves, and the
statement. -/

namespace Sys2Proof.Machine

variable {s t : State} {i : Instr}

theorem State.advance_withHost (k : BitVec 6) (p : Phase) (ms : List HostMove) :
    { s with host := ms }.advance k p = { s.advance k p with host := ms } := by
  unfold State.advance
  split <;> rfl

/-- A micro-operation goes on in the same way whatever the host's moves are. -/
theorem exec_withHost (hi : i.isCommand = false) (he : exec i s = .next t) (ms : List HostMove) :
    exec i { s with host := ms } = .next { t with host := ms } := by
  cases i with
  | init | update b | finalize | rddigest j => cases hi
  | blkgoAbsorb =>
    obtain ⟨hen, rfl⟩ := execBlkgoAbsorb_cases he
    exact whenEnabled_of hen
  | blkgoPad =>
    obtain ⟨hen, rfl⟩ := execBlkgoPad_cases he
    exact whenEnabled_of hen
  | padmark =>
    obtain ⟨hen, n, hn, rfl⟩ := execPadmark_cases he
    exact whenEnabled_eq_next.2 ⟨hen, need_eq_next.2 ⟨n, hn, rfl⟩⟩
  | padzero =>
    obtain ⟨hen, n, hn, rfl⟩ := execPadzero_cases he
    exact whenEnabled_eq_next.2 ⟨hen, need_eq_next.2 ⟨n, hn, rfl⟩⟩
  | padlenFirst =>
    obtain ⟨hen, n, l, hn, hl, rfl⟩ := execPadlenFirst_cases he
    exact whenEnabled_eq_next.2 ⟨hen, need_eq_next.2 ⟨n, hn, need_eq_next.2 ⟨l, hl, rfl⟩⟩⟩
  | padlenNext =>
    obtain ⟨hen, n, l, hn, hl, rfl⟩ := execPadlenNext_cases he
    exact whenEnabled_eq_next.2 ⟨hen, need_eq_next.2 ⟨n, hn, need_eq_next.2 ⟨l, hl, rfl⟩⟩⟩
  | wload =>
    obtain ⟨hen, k, x, hk, hx, rfl⟩ := execWload_cases he
    exact whenEnabled_eq_next.2 ⟨hen, need_eq_next.2 ⟨k, hk, need_eq_next.2 ⟨x, hx, rfl⟩⟩⟩
  | wexp =>
    obtain ⟨hen, k, w16, w15, w7, w2, hk, h16, h15, h7, h2, rfl⟩ := execWexp_cases he
    rw [← State.advance_withHost]
    exact whenEnabled_eq_next.2 ⟨hen, need_eq_next.2 ⟨k, hk, need_eq_next.2 ⟨w16, h16, need_eq_next.2 ⟨w15, h15,
      need_eq_next.2 ⟨w7, h7, need_eq_next.2 ⟨w2, h2, rfl⟩⟩⟩⟩⟩⟩
  | vload =>
    obtain ⟨hen, hs, hh, rfl⟩ := execVload_cases he
    exact whenEnabled_eq_next.2 ⟨hen, need_eq_next.2 ⟨hs, hh, rfl⟩⟩
  | round =>
    obtain ⟨hen, k, vs, x, hk, hv, hx, rfl⟩ := execRound_cases he
    rw [← State.advance_withHost]
    exact whenEnabled_eq_next.2 ⟨hen, need_eq_next.2 ⟨k, hk, need_eq_next.2 ⟨vs, hv, need_eq_next.2 ⟨x, hx, rfl⟩⟩⟩⟩
  | fold =>
    obtain ⟨hen, p, hs, vs, next, hp, hh, hv, hnext, rfl⟩ := execFold_cases he
    exact whenEnabled_eq_next.2 ⟨hen, need_eq_next.2 ⟨p, hp, need_eq_next.2 ⟨hs, hh, need_eq_next.2 ⟨vs, hv,
      by rw [hnext]; rfl⟩⟩⟩⟩

theorem isCommand_of_enabled {c : Cells} (h : c.enabled = some i) : i.isCommand = false := by
  obtain ⟨p, n, t, -, -, -, hsel⟩ := selectedWhen_of_enabled h
  exact isCommand_of_selectedWhen hsel

/-- Where reset is not asserted an enabled micro-operation is the step. -/
theorem step_of_enabled (hrst : s.resetAsserted = false) (hen : s.enabled = some i) : step s = exec i s.elapse := by
  simp [step, hrst, hen]

/-- A presented command is still there when a micro-operation has run. -/
theorem State.elapse_host_of_issue {w : CmdWord} {rest : List CmdWord} {ms : List HostMove}
    (h : s.host = .issue w rest :: ms) : s.elapse.host = s.host := by
  simp [State.elapse, h]

/-- Without its moves the host asserts no reset that it did not assert with them. -/
theorem State.resetAsserted_withoutHost (h : s.resetAsserted = false) :
    { s with host := [] }.resetAsserted = false := by
  simp_all [State.resetAsserted]

end Sys2Proof.Machine

namespace Sys2Proof.Proofs

open Sys2Proof.Machine

/-- Settles O44: the step is the enabled micro-operation with or without the command, and no micro-operation reads the
host's moves. -/
theorem waitingCommandIsKept : Obligations.WaitingCommandIsKept := by
  intro s t w rest ms i hen hrst hhost hstep
  rw [step_of_enabled hrst hen] at hstep
  have hi := isCommand_of_enabled hen
  obtain ⟨-, hresp, ⟨hkept, -⟩, -⟩ := microOpsLeaveTheRestAlone i _ t hi hstep
  refine ⟨hkept.trans (State.elapse_host_of_issue hhost), hresp, { t with host := [] }, ?_, rfl⟩
  rw [step_of_enabled (State.resetAsserted_withoutHost hrst) hen]
  exact exec_withHost hi hstep []

end Sys2Proof.Proofs
end

section
/-! How an expansion goes on after a response and what it reports (40_commands.md R97 to R99, 60_exceptions.md R200),
and the statement. -/

namespace Sys2Proof.Machine

variable {s t : State} {w : CmdWord} {rest : List CmdWord} {ms : List HostMove}

/-- No word touches the inputs where it is accepted. -/
theorem acceptWord_sameInputs (hw : acceptWord w s = .next t) : SameInputs s t := by
  rcases acceptWord_cases hw with ⟨i, -, he⟩ | ⟨e, -, rfl⟩
  · exact exec_sameInputs he
  · exact ⟨rfl, rfl⟩

theorem isErrorRsp_iff (r : RspWord) : isErrorRsp r = true ↔ rspCode r ≠ 0 := bne_iff_ne

/-- The newest response is an error: the host goes on with what it had. -/
theorem State.resumeExpansion_host_of_error {r : RspWord} {rs : List RspWord} (hresp : s.responses = r :: rs)
    (hr : rspCode r ≠ 0) : (s.resumeExpansion rest).host = s.host := by
  have herr : s.lastIsError = true := by rw [State.lastIsError, hresp]; exact (isErrorRsp_iff r).2 hr
  cases rest with
  | nil => rfl
  | cons w ws => rw [State.resumeExpansion, if_pos herr]

/-- The newest response is OK: the next word of the expansion is presented. -/
theorem State.resumeExpansion_host_of_ok {r : RspWord} {rs : List RspWord} (hresp : s.responses = r :: rs)
    (hr : rspCode r = 0) : (s.resumeExpansion rest).host = issueAll rest ++ s.host := by
  have hok : ¬s.lastIsError = true := by rw [State.lastIsError, hresp]; exact fun h => (isErrorRsp_iff r).1 h hr
  cases rest with
  | nil => rfl
  | cons w ws => rw [State.resumeExpansion, if_neg hok]; rfl

/-- Where reset is not asserted a ready core takes the word presented and evaluates it. -/
theorem step_eq_next_of_issue (hrst : s.resetAsserted = false) (hr : s.ready = true)
    (hhost : s.host = .issue w rest :: ms) :
    step s = .next t ↔
      ∃ u, acceptWord w { s with host := ms, resetPin := s.resetPin.tail } = .next u ∧ t = u.resumeExpansion rest := by
  have hport : step s = portStep s := by simp [step, hrst, enabled_eq_none_of_ready hr, hr]
  rw [hport, portStep, hhost]
  dsimp only
  generalize acceptWord w _ = answer
  cases answer with
  | next u => simpa using eq_comm
  | fault f => simp
  | refused r => simp

/-- Outside `DONE` a ready core answers RDDIGEST out of sequence. -/
theorem execRddigest_of_phase_ne {j : Byte} (hr : s.ready = true) (hj : j.toNat < 32) (hp : s.phase ≠ .done) :
    execRddigest j s = .next (s.answerError .sequence) := by
  rw [execRddigest, whenReady_of hr, if_neg (by omega), inPhase_of_ne hp]

/-- Outside `DONE` a presented RDDIGEST is answered out of sequence, and the rest of its expansion is dropped. -/
theorem step_of_rddigest_refused {j : Byte} (hrst : s.resetAsserted = false) (hr : s.ready = true)
    (hp : s.phase ≠ .done) (hw : decodeCmd w = .ok (.rddigest j)) (hhost : s.host = .issue w rest :: ms) :
    ∃ t, step s = .next t ∧ t.host = ms ∧ t.toCells = s.toCells ∧ t.responses = 0x200 :: s.responses := by
  obtain ⟨hj, -⟩ := decodeCmd_eq_ok_iff.1 hw
  have haccept := (acceptWord_of_ok hw { s with host := ms, resetPin := s.resetPin.tail }).trans
    (execRddigest_of_phase_ne hr hj hp)
  exact ⟨_, (step_eq_next_of_issue hrst hr hhost).2 ⟨_, haccept, rfl⟩,
    State.resumeExpansion_host_of_error rfl (by decide), State.resumeExpansion_toCells .., State.resumeExpansion_responses ..⟩

/-! ### Reports -/

theorem find?_isErrorRsp_eq_none {given : List RspWord} (h : ∀ x ∈ given, rspCode x = 0) :
    given.reverse.find? isErrorRsp = none :=
  List.find?_eq_none.2 fun x hx he => (isErrorRsp_iff x).1 he (h x (List.mem_reverse.1 hx))

/-- The first error of an expansion is its report. -/
theorem expansionReport_of_error (n : Nat) {given : List RspWord} {r : RspWord} (h : ∀ x ∈ given, rspCode x = 0)
    (hr : rspCode r ≠ 0) : expansionReport n (r :: given) = .stopped r := by
  have herr : isErrorRsp r = true := (isErrorRsp_iff r).2 hr
  simp [expansionReport, List.find?_append, find?_isErrorRsp_eq_none h, herr]

theorem expansionReport_of_ok {given : List RspWord} (h : ∀ x ∈ given, rspCode x = 0) :
    expansionReport given.length given = .result (given.reverse.map rspData) := by
  simp [expansionReport, find?_isErrorRsp_eq_none h]

theorem answersSince_of_response {r : RspWord} (h : t.responses = r :: s.responses) : answersSince s t = [r] := by
  simp [answersSince, h]

end Sys2Proof.Machine

namespace Sys2Proof.Proofs

open Sys2Proof.Machine

/-- Settles O48: the host goes on by the code of the newest response, and outside `DONE` the first RDDIGEST of DIGEST is
answered out of sequence. -/
theorem expansionStopsAtFirstError : Obligations.ExpansionStopsAtFirstError := by
  refine ⟨fun s t w rest ms hrst hr hhost hstep => ?_, fun n given r => expansionReport_of_error n,
    fun given => expansionReport_of_ok, fun s ms hrst hr hp => ⟨rfl, fun hhost => ?_⟩⟩
  · obtain ⟨u, hw, rfl⟩ := (step_eq_next_of_issue hrst hr hhost).1 hstep
    obtain ⟨r, hresp, -⟩ := acceptWord_response (s := { s with host := ms, resetPin := s.resetPin.tail }) hr hw
    obtain ⟨hkept, -⟩ := acceptWord_sameInputs hw
    refine ⟨r, (State.resumeExpansion_responses ..).trans hresp,
      fun hne => (State.resumeExpansion_host_of_error hresp hne).trans hkept, fun hok => ?_⟩
    rw [State.resumeExpansion_host_of_ok hresp hok, hkept]
    cases rest <;> rfl
  · obtain ⟨t, hstep, hkept, hcells, hresp⟩ := step_of_rddigest_refused (j := 0) hrst hr hp rfl hhost
    have hreport (n : Nat) : expansionReport n [0x200] = .stopped 0x200 := expansionReport_of_error n nofun (by decide)
    have hanswer := answersSince_of_response hresp
    refine ⟨t, hstep, hkept, hcells, hanswer, ?_⟩
    rw [hanswer, hexResult, digestResult, hreport]
    exact ⟨rfl, rfl, fun m => by rw [updatesResult, hreport]; rfl⟩

end Sys2Proof.Proofs
end

section
/-! The padder (41_padder.md R111 to R116): the lengths of the padding, what each of its micro-operations writes, which
one is enabled next, and the statements about them. -/

namespace Sys2Proof.Machine

/-! ### The lengths (R111, R112) -/

/-- No smaller count of zero bytes ends 8 bytes before a multiple of 64 (R111). -/
theorem padZeros_le {len k : Nat} (h : (len + 1 + k) % 64 = 56) : padZeros len ≤ k := by
  have hmod := padZeros_mod len
  have hlt := padZeros_lt len
  omega

/-- Where the length field still fits the block of the last message bytes. -/
theorem padZeros_of_mod_le {len : Nat} (h : len % 64 ≤ 55) : padZeros len = 55 - len % 64 := by
  have hmod := padZeros_mod len
  have hlt := padZeros_lt len
  omega

/-- Where the length field goes into the next block. -/
theorem padZeros_of_le_mod {len : Nat} (h : 56 ≤ len % 64) : padZeros len = 119 - len % 64 := by
  have hmod := padZeros_mod len
  have hlt := padZeros_lt len
  omega

/-- The closed form of the length (R112). -/
theorem length_padBytes_eq_mul (m : List Byte) : (padBytes m).length = 64 * ((m.length + 8) / 64 + 1) := by
  have hlength := length_padBytes m
  have hmod := padZeros_mod m.length
  have hlt := padZeros_lt m.length
  omega

theorem length_blocks (pm : List Byte) : (blocks pm).length = pm.length / 64 := by
  rw [blocks, List.length_map, List.length_range]

/-! ### The length field (R116, 30_encoding.md R72) -/

/-- `LEN * 8` fits the 64 bits of the length field. -/
theorem toNat_lenBits (l : BitVec 61) : (lenBits l).toNat = l.toNat * 8 := toNat_append_eq_add l 0#3

theorem toNat_lenFieldByte {n : BitVec 7} (h : 56 ≤ n.toNat) (l : BitVec 61) :
    (lenFieldByte n l).toNat = l.toNat * 8 / 2 ^ (56 - 8 * (n.toNat - 56)) % 2 ^ 8 := by
  have hat : Config.lenFieldAt ≤ n := BitVec.le_def.2 h
  rw [lenFieldByte, if_pos hat, toNat_be64, toNat_lenBits]
  rfl

/-! ### The micro-operations by what they write, and the one that is enabled next (R114 to R116) -/

variable {s : State} {c : Cells} {n : BitVec 7} {l : BitVec 61} {ps : PadStage} {t : BitVec 6} {i : Instr}

theorem toNat_cnt_succ (hlt : n.toNat < 64) : (n + 1).toNat = n.toNat + 1 := by bv_omega

theorem execPadmark_of_enabled (he : s.enabled = some .padmark) (hn : s.cnt = some n) :
    execPadmark s = .next { s.bufWrite n 0x80 with ps := some .zero } := by
  rw [execPadmark, whenEnabled_of he, hn, need_some]
  rfl

theorem execPadzero_of_enabled (he : s.enabled = some .padzero) (hn : s.cnt = some n) :
    execPadzero s = .next (s.bufWrite n 0) := by
  rw [execPadzero, whenEnabled_of he, hn, need_some]

theorem padLengthByte_of_held (hn : s.cnt = some n) (hl : s.len = some l) :
    padLengthByte s = .next { s.bufWrite n (lenFieldByte n l) with ps := some .len } := by
  rw [padLengthByte, hn, need_some, hl, need_some]

/-- A block that the padding has filled is compressed. -/
theorem enabled_of_pad_full (hp : c.phase = .pad) (hps : c.ps = some ps) (hne : ps ≠ .none) (hn : c.cnt = some n)
    (hfull : n.toNat = 64) (ht : c.t = some t) : c.enabled = some .blkgoPad :=
  (enabled_eq_some_iff hps hn ht).2 ⟨fun h => hne h.2, hp, BitVec.eq_of_toNat_eq hfull⟩

/-- What is enabled where zero bytes are due: a byte of the length at place 56, the block where it is full, else a zero
byte. -/
theorem enabled_of_pad_zero (hp : c.phase = .pad) (hps : c.ps = some .zero) (hn : c.cnt = some n) (hle : n.toNat ≤ 64)
    (ht : c.t = some t) :
    c.enabled = some (if n.toNat = 56 then .padlenFirst else if n.toNat = 64 then .blkgoPad else .padzero) := by
  split_ifs with h56 hfull
  · exact enabled_of_selectedWhen hps hn ht (by decide) ⟨hp, rfl, BitVec.eq_of_toNat_eq h56⟩
  · exact enabled_of_pad_full hp hps (by decide) hn hfull ht
  · exact enabled_of_selectedWhen hps hn ht (by decide) ⟨hp, rfl, by omega, fun h => h56 (congrArg BitVec.toNat h)⟩

/-- Each row of PADLEN is enabled where it asks for what the cells hold; both write a byte of the length field. -/
theorem padlen_selected (hp : s.phase = .pad) (hn : s.cnt = some n) (ht : s.t = some t)
    (hrow : i = .padlenFirst ∧ s.ps = some .zero ∧ n = 56 ∨ i = .padlenNext ∧ s.ps = some .len ∧ n.toNat < 64) :
    s.enabled = some i ∧ n.toNat < 64 ∧ exec i s = padLengthByte s := by
  rcases hrow with ⟨rfl, hps, rfl⟩ | ⟨rfl, hps, hlt⟩
  · have hen : s.enabled = some .padlenFirst := enabled_of_selectedWhen hps hn ht (by decide) ⟨hp, rfl, rfl⟩
    exact ⟨hen, by decide, whenEnabled_of hen⟩
  · have hen : s.enabled = some .padlenNext := enabled_of_selectedWhen hps hn ht (by decide) ⟨hp, rfl, hlt⟩
    exact ⟨hen, hlt, whenEnabled_of hen⟩

end Sys2Proof.Machine

namespace Sys2Proof.Proofs

open Sys2Proof.Machine

/-- Settles O7: the count is the remainder of R111, by the two ranges of `L mod 64`, which give the table. -/
theorem padZeroCountIsLeast : Obligations.PadZeroCountIsLeast := by
  refine ⟨fun L => ⟨padZeros_eq L, padZeros_mod L, fun P => padZeros_le, Nat.le_of_lt_succ (padZeros_lt L),
    padZeros_of_mod_le, padZeros_of_le_mod⟩, fun L => ?_⟩
  have hlow := @padZeros_of_mod_le L
  have hhigh := @padZeros_of_le_mod L
  omega

/-- Settles O8: the closed form of the length, and the 9 bytes that come with the zero bytes. -/
theorem paddedLengthIsNextMultipleOf64 : Obligations.PaddedLengthIsNextMultipleOf64 := by
  intro m hm
  have hlength := length_padBytes m
  have hmul := length_padBytes_eq_mul m
  refine ⟨padBytes m, pad_of_lt hm, by omega, hmul, by omega, by omega, by omega, fun n hn hle => by omega, ?_,
    by omega, by omega, by omega, by omega, fun h => ?_, fun h => ?_, fun h => by omega⟩
  · rw [length_blocks]
    omega
  all_goals
    simp only [List.mem_cons, List.not_mem_nil, or_false] at h
    omega

/-- Settles O33: the mark is written at the count, which is below 64 and so counts on without a wrap. -/
theorem padmarkWritesMark : Obligations.PadmarkWritesMark := by
  refine ⟨fun s n tt hp hps hn hlt ht => ?_, fun s t n tt hp hn hlt ht he => ?_⟩
  · have hen : s.enabled = some .padmark := enabled_of_selectedWhen hps hn ht (by decide) ⟨hp, rfl, hlt⟩
    have hsucc := toNat_cnt_succ hlt
    exact ⟨hen, _, execPadmark_of_enabled hen hn, Store.read_write_same _ _ _, readsSameBut_write _ _ _,
      ⟨n + 1, rfl, hsucc⟩, rfl, hp, rfl, rfl, rfl, rfl, rfl, rfl, ⟨rfl, rfl⟩,
      fun h => enabled_of_pad_full hp rfl (by decide) rfl (by omega) ht⟩
  · obtain ⟨t', he', -, -, -, -, hnext⟩ := finalizeStartsPadding.1 s n hp hn hlt
    cases he.symm.trans he'
    exact hnext (Option.isSome_of_eq_some ht)

/-- Settles O34: a zero byte is written at the count, and the next micro-operation is that of the new count. -/
theorem padzeroWritesZero : Obligations.PadzeroWritesZero := by
  intro s n tt hp hps hn hlt hne ht
  have hen : s.enabled = some .padzero := enabled_of_selectedWhen hps hn ht (by decide) ⟨hp, rfl, hlt, hne⟩
  have hsucc := toNat_cnt_succ hlt
  have hnext := enabled_of_pad_zero (c := (s.bufWrite n 0).toCells) hp hps rfl (by omega) ht
  simp only [hsucc, Nat.reduceEqDiff] at hnext
  exact ⟨hen, _, execPadzero_of_enabled hen hn, Store.read_write_same _ _ _, readsSameBut_write _ _ _,
    ⟨n + 1, rfl, hsucc⟩, hps, hp, rfl, rfl, rfl, rfl, rfl, rfl, ⟨rfl, rfl⟩, hnext⟩

/-- Settles O35: both rows write the byte of the length field that the count names. -/
theorem padlenWritesLengthByte : Obligations.PadlenWritesLengthByte := by
  intro s n l tt i hp hn hl ht hrow
  obtain ⟨hen, hlt, hexec⟩ := padlen_selected hp hn ht hrow
  have hsucc := toNat_cnt_succ hlt
  exact ⟨hen, _, _, hexec.trans (padLengthByte_of_held hn hl), Store.read_write_same _ _ _, readsSameBut_write _ _ _,
    fun h56 => toNat_lenFieldByte h56 l, by omega, ⟨n + 1, rfl, hsucc⟩, rfl, hp, rfl, rfl, rfl, rfl, rfl, rfl,
    ⟨rfl, rfl⟩, fun h => enabled_of_pad_full hp rfl (by decide) rfl (by omega) ht⟩

end Sys2Proof.Proofs
end

section
/-! The block splitter (42_block_splitter.md R120, R123): the windows that `blocks` cuts, what BLKGO writes, and the
statements. -/

namespace Sys2Proof.Machine

/-! ### The windows (R120) -/

variable {pm : List Byte} {j : Nat}

/-- A window that ends within the sequence is full. -/
theorem length_blockAt (h : 64 * j + 64 ≤ pm.length) : (blockAt pm j).length = 64 := by
  rw [blockAt, List.length_take, List.length_drop]
  omega

/-- Byte `i` of window `j` is byte `64j + i`. -/
theorem getElem?_blockAt {i : Nat} (h : i < 64) : (blockAt pm j)[i]? = pm[64 * j + i]? := by
  rw [blockAt, List.getElem?_take_of_lt h, List.getElem?_drop]

theorem getElem?_blocks (h : j < pm.length / 64) : (blocks pm)[j]? = some (blockAt pm j) := by
  rw [blocks, List.getElem?_map, List.getElem?_range h, Option.map_some]

theorem length_of_mem_blocks {b : List Byte} (h : b ∈ blocks pm) : b.length = 64 := by
  obtain ⟨j, hj, rfl⟩ := List.mem_map.1 h
  rw [List.mem_range] at hj
  exact length_blockAt (by omega)

/-- The first `n` windows joined are the first `64n` bytes. -/
theorem flatten_map_blockAt_range (pm : List Byte) (n : Nat) :
    ((List.range n).map (blockAt pm)).flatten = pm.take (64 * n) := by
  induction n with
  | zero => rfl
  | succ n ih =>
    rw [List.range_succ, List.map_append, List.flatten_append, ih, List.map_singleton, List.flatten_singleton, blockAt,
      Nat.mul_succ, List.take_add]

/-- Where no byte is left over, the windows joined are the sequence. -/
theorem flatten_blocks (h : pm.length % 64 = 0) : (blocks pm).flatten = pm := by
  rw [blocks, flatten_map_blockAt_range, Nat.mul_div_cancel' (Nat.dvd_of_mod_eq_zero h), List.take_length]

/-! ### BLKGO (R123) -/

variable {s : State} {p : PadStage} {t : BitVec 6} {i : Instr}

/-- Each row of BLKGO is enabled where it asks for what the cells hold; both start the block. -/
theorem blkgo_selected (hn : s.cnt = some 64) (hps : s.ps = some p) (ht : s.t = some t)
    (hrow : i = .blkgoAbsorb ∧ s.phase = .absorb ∨ i = .blkgoPad ∧ s.phase = .pad ∧ p ≠ .none) :
    s.enabled = some i ∧ exec i s = .next s.startBlock := by
  rcases hrow with ⟨rfl, hp⟩ | ⟨rfl, hp, hne⟩
  · have hen : s.enabled = some .blkgoAbsorb := enabled_of_selectedWhen hps hn ht (by decide) ⟨hp, rfl⟩
    exact ⟨hen, whenEnabled_of hen⟩
  · have hen : s.enabled = some .blkgoPad := enabled_of_pad_full hp hps hne hn rfl ht
    exact ⟨hen, whenEnabled_of hen⟩

/-- A block that starts begins with the first word of its schedule. -/
theorem State.startBlock_enabled {n : BitVec 7} (hn : s.cnt = some n) (hps : s.ps = some p) :
    s.startBlock.enabled = some .wload :=
  enabled_of_selectedWhen hps hn rfl (by decide) ⟨rfl, by decide⟩

end Sys2Proof.Machine

namespace Sys2Proof.Proofs

open Sys2Proof.Machine

/-- Settles O11: each window is full and lies in its place, and the first `n` of them join to the first `64n` bytes, by
induction on `n`. -/
theorem blocksPartitionThePaddedMessage : Obligations.BlocksPartitionThePaddedMessage :=
  fun pm hmod _ => ⟨length_blocks pm, fun _ => length_of_mem_blocks, flatten_blocks hmod,
    fun j hj => ⟨blockAt pm j, getElem?_blocks hj, fun _ => getElem?_blockAt⟩⟩

/-- Settles O36: both rows start the block, whose first micro-operation is WLOAD. -/
theorem blkgoStartsTheSchedule : Obligations.BlkgoStartsTheSchedule := by
  intro s p tt i hn hps ht hrow
  obtain ⟨hen, hexec⟩ := blkgo_selected hn hps ht hrow
  exact ⟨hen, s.startBlock, hexec, rfl, State.startBlock_enabled hn hps⟩

end Sys2Proof.Proofs
end

section
/-! The message scheduler (43_scheduler.md R130 to R133): the mixing functions by their bits, the words of `schedule`, what
WLOAD and WEXP write, and the statements. -/

namespace Sys2Proof.Machine

/-! ### The mixing functions (R130) -/

/-- The shift moves bit `i + n` to place `i`, and there is none from place `32 - n` on. -/
theorem getLsbD_shr (x : Word) (n i : Nat) :
    (shr x n).getLsbD i = (decide (i + n < 32) && x.getLsbD (i + n)) := by
  rw [shr, BitVec.getLsbD_ushiftRight, Nat.add_comm n i]
  by_cases h : i + n < 32
  · simp [h]
  · simp [h, BitVec.getLsbD_of_ge x (i + n) (by omega)]

/-- A bit of two rotations and a shift joined by exclusive or, which `ssig0` and `ssig1` are. -/
theorem getLsbD_rotr_xor_rotr_xor_shr (x : Word) {a b i : Nat} (c : Nat) (ha : a < 32) (hb : b < 32) (hi : i < 32) :
    (rotr x a ^^^ rotr x b ^^^ shr x c).getLsbD i =
      ((x.getLsbD ((i + a) % 32) ^^ x.getLsbD ((i + b) % 32)) ^^ (decide (i + c < 32) && x.getLsbD (i + c))) := by
  rw [BitVec.getLsbD_xor, BitVec.getLsbD_xor, getLsbD_rotr x ha hi, getLsbD_rotr x hb hi, getLsbD_shr]

/-! ### The words of the schedule (R131) -/

/-- The recurrence's right side is a sum of four words modulo `2^32`. -/
theorem toNat_expandWord (w16 w15 w7 w2 : Word) :
    (expandWord w16 w15 w7 w2).toNat = (w16.toNat + (ssig0 w15).toNat + w7.toNat + (ssig1 w2).toNat) % 2 ^ 32 := by
  simp only [expandWord, BitVec.toNat_add, Nat.mod_add_mod]

theorem getElem?_eq_some_getD {α : Type} {l : List α} {i : Nat} (h : i < l.length) (d : α) :
    l[i]? = some (l.getD i d) := by
  rw [List.getD_eq_getElem l d h, List.getElem?_eq_getElem h]

theorem length_expandBy (n : Nat) (w : List Word) : (expandBy n w).length = w.length + n := by
  induction n generalizing w with
  | zero => rfl
  | succ n ih =>
    rw [expandBy, ih, List.length_append, List.length_singleton]
    omega

/-- Expansion only appends words. -/
theorem prefix_expandBy (n : Nat) (w : List Word) : w <+: expandBy n w := by
  induction n generalizing w with
  | zero => exact List.prefix_rfl
  | succ n ih => exact (List.prefix_append w [nextWord w]).trans (ih _)

/-- Each word appended is the next word of those before it. -/
theorem getElem?_expandBy_of_le {n i : Nat} {w : List Word} (hle : w.length ≤ i) (hlt : i < w.length + n) :
    (expandBy n w)[i]? = some (nextWord ((expandBy n w).take i)) := by
  induction n generalizing w with
  | zero => omega
  | succ n ih =>
    rw [expandBy]
    have hlen : (w ++ [nextWord w]).length = w.length + 1 := List.length_append
    rcases hle.eq_or_lt with rfl | hgt
    · have hpre := prefix_expandBy n (w ++ [nextWord w])
      rw [← List.prefix_iff_eq_take.1 ((List.prefix_append w _).trans hpre), List.prefix_iff_getElem?.1 hpre _ (by omega),
        List.getElem_concat_length rfl]
    · exact ih (by omega) (by omega)

/-- The next word of the first `i` words is the recurrence at `i`. -/
theorem nextWord_take {i : Nat} {w : List Word} (h16 : 16 ≤ i) (hi : i ≤ w.length) :
    nextWord (w.take i) = expandWord (w.getD (i - 16) 0) (w.getD (i - 15) 0) (w.getD (i - 7) 0) (w.getD (i - 2) 0) := by
  have hget (j : Nat) (hj : 0 < j) : (w.take i).getD (i - j) 0 = w.getD (i - j) 0 := by
    rw [List.getD_eq_getElem?_getD, List.getElem?_take_of_lt (by omega), ← List.getD_eq_getElem?_getD]
  rw [nextWord, List.length_take_of_le hi, hget 16 (by decide), hget 15 (by decide), hget 7 (by decide),
    hget 2 (by decide)]

theorem length_schedule (b : List Byte) : (schedule b).length = 64 := by
  rw [schedule, length_expandBy, List.length_map, List.length_range]

/-- The first 16 words are those of the block. -/
theorem getElem?_schedule_of_lt (b : List Byte) {i : Nat} (hi : i < 16) : (schedule b)[i]? = some (blockWord b i) := by
  have hpre : (List.range 16).map (blockWord b) <+: schedule b := prefix_expandBy 48 _
  rw [List.prefix_iff_getElem?.1 hpre i (by simpa using hi), List.getElem_map, List.getElem_range]

/-- From 16 on the words follow the recurrence. -/
theorem getElem?_schedule_of_le (b : List Byte) {i : Nat} (h16 : 16 ≤ i) (hi : i < 64) :
    (schedule b)[i]? = some (expandWord ((schedule b).getD (i - 16) 0) ((schedule b).getD (i - 15) 0)
      ((schedule b).getD (i - 7) 0) ((schedule b).getD (i - 2) 0)) := by
  rw [← nextWord_take h16 (by rw [length_schedule]; omega)]
  exact getElem?_expandBy_of_le (by simpa using h16) (by simpa using hi)

/-- Zero words are followed by zero words. -/
theorem nextWord_replicate_zero (n : Nat) : nextWord (List.replicate n 0) = 0 := by
  have hget (j : Nat) : (List.replicate n (0 : Word)).getD j 0 = 0 := by
    rw [List.getD_eq_getElem?_getD, List.getElem?_replicate]
    split <;> rfl
  rw [nextWord, hget, hget, hget, hget]
  decide

theorem expandBy_replicate_zero (n m : Nat) : expandBy n (List.replicate m 0) = List.replicate (m + n) 0 := by
  induction n generalizing m with
  | zero => rfl
  | succ n ih =>
    rw [expandBy, nextWord_replicate_zero, ← List.replicate_succ', ih]
    congr 1
    omega

/-- The all-zero block has the all-zero schedule. -/
theorem schedule_replicate_zero : schedule (List.replicate 64 0) = List.replicate 64 0 := by
  have hwords : (List.range 16).map (blockWord (List.replicate 64 0)) = List.replicate 16 0 := by decide
  rw [schedule, hwords, expandBy_replicate_zero]

/-! ### WLOAD and WEXP (R132, R133) -/

variable {s : State} {k : BitVec 6}

theorem bufRead4_of_held {m : Memory} {a : Nat} {b0 b1 b2 b3 : Byte} (h0 : Store.read m a = some b0)
    (h1 : Store.read m (a + 1) = some b1) (h2 : Store.read m (a + 2) = some b2) (h3 : Store.read m (a + 3) = some b3) :
    bufRead4 m a = some (be32 b0 b1 b2 b3) := by
  simp only [bufRead4, bufRead1, h0, h1, h2, h3]

theorem toNat_t_succ (h : k.toNat < 63) : (k + 1).toNat = k.toNat + 1 := by bv_omega

/-- Below the last pass of a loop the index is counted and the phase stays (R133, 44_compressor.md R150). -/
theorem State.advance_of_lt (h : k.toNat < 63) (next : Phase) (s : State) :
    s.advance k next = { s with t := some (k + 1) } := if_pos h

/-- The last pass of a loop starts the next phase with index 0. -/
theorem State.advance_of_last (h : k.toNat = 63) (next : Phase) (s : State) :
    s.advance k next = { s with t := some 0, phase := next } := if_neg (by bv_omega)

theorem execWload_of_enabled {x : Word} (he : s.enabled = some .wload) (ht : s.t = some k)
    (hx : bufRead4 s.buf (4 * k.toNat) = some x) :
    execWload s = .next { s with w := Store.write s.w k.toNat x, t := some (k + 1) } := by
  rw [execWload, whenEnabled_of he, ht, need_some, hx, need_some]

theorem execWexp_of_enabled {w16 w15 w7 w2 : Word} (he : s.enabled = some .wexp) (ht : s.t = some k)
    (h16 : Store.read s.w (k.toNat - 16) = some w16) (h15 : Store.read s.w (k.toNat - 15) = some w15)
    (h7 : Store.read s.w (k.toNat - 7) = some w7) (h2 : Store.read s.w (k.toNat - 2) = some w2) :
    execWexp s = .next ({ s with w := Store.write s.w k.toNat (expandWord w16 w15 w7 w2) }.advance k .vinit) := by
  rw [execWexp, whenEnabled_of he, ht, need_some, h16, need_some, h15, need_some, h7, need_some, h2, need_some]

end Sys2Proof.Machine

namespace Sys2Proof.Proofs

open Sys2Proof.Machine

/-- Settles O4: the bits of a rotation and of a shift, and the corner values by evaluation. -/
theorem scheduleMixingBits : Obligations.ScheduleMixingBits :=
  ⟨fun _ => ⟨rfl, rfl⟩,
    fun x _ hi => ⟨getLsbD_rotr_xor_rotr_xor_shr x 3 (by decide) (by decide) hi,
      getLsbD_rotr_xor_rotr_xor_shr x 10 (by decide) (by decide) hi⟩,
    by decide, by decide, by decide, by decide, by decide, by decide, by decide, by decide⟩

/-- Settles O12: expansion appends to the words of the block, each time the recurrence's word, by induction on the count
of words appended. -/
theorem scheduleFollowsRecurrence : Obligations.ScheduleFollowsRecurrence := by
  refine ⟨fun b hb => ⟨length_schedule b, fun i hi => ?_, fun i h16 hi => ?_⟩, schedule_replicate_zero⟩
  · have hbyte {j : Nat} (hj : j < 64) : b[j]? = some (b.getD j 0) := getElem?_eq_some_getD (hb ▸ hj) 0
    exact ⟨_, _, _, _, hbyte (by omega), hbyte (by omega), hbyte (by omega), hbyte (by omega),
      getElem?_schedule_of_lt b hi⟩
  · have hword {j : Nat} (hj : j < 64) : (schedule b)[j]? = some ((schedule b).getD j 0) :=
      getElem?_eq_some_getD (length_schedule b ▸ hj) 0
    exact ⟨_, _, _, _, _, getElem?_schedule_of_le b h16 hi, hword (by omega), hword (by omega), hword (by omega),
      hword (by omega), toNat_expandWord ..⟩

/-- Settles O37: the four bytes are read as one word and written at `T`, which counts on without a wrap. -/
theorem wloadCopiesBlockWord : Obligations.WloadCopiesBlockWord := by
  intro s k n p b0 b1 b2 b3 hp ht hlt hn hps h0 h1 h2 h3
  have hen : s.enabled = some .wload := enabled_of_selectedWhen hps hn ht (by decide) ⟨hp, hlt⟩
  have hsucc : (k + 1).toNat = k.toNat + 1 := toNat_t_succ (by omega)
  exact ⟨hen, _, execWload_of_enabled hen ht (bufRead4_of_held h0 h1 h2 h3), Store.read_write_same _ _ _,
    readsSameBut_write _ _ _, ⟨k + 1, rfl, hsucc⟩, hp, rfl, rfl, rfl, rfl, rfl, rfl, rfl, ⟨rfl, rfl⟩,
    fun h => enabled_of_selectedWhen hps hn rfl (by decide) ⟨hp, by omega⟩⟩

/-- Settles O38: the recurrence's word is written at `T`; then the loop goes on or, after its last pass, ends. -/
theorem wexpDerivesScheduleWord : Obligations.WexpDerivesScheduleWord := by
  intro s k n p w16 w15 w7 w2 hp ht hge hn hps h16 h15 h7 h2
  have hen : s.enabled = some .wexp := enabled_of_selectedWhen hps hn ht (by decide) ⟨hp, hge⟩
  have hexec := execWexp_of_enabled hen ht h16 h15 h7 h2
  have hsum := toNat_expandWord w16 w15 w7 w2
  have hread := Store.read_write_same s.w k.toNat (expandWord w16 w15 w7 w2)
  have hrest := readsSameBut_write s.w k.toNat (expandWord w16 w15 w7 w2)
  refine ⟨hen, ?_⟩
  by_cases hlt : k.toNat < 63
  · rw [State.advance_of_lt hlt] at hexec
    exact ⟨_, _, hexec, hread, hsum, hrest, fun _ => ⟨⟨k + 1, rfl, toNat_t_succ hlt⟩, hp⟩, fun h => by omega, rfl, rfl,
      rfl, rfl, rfl, rfl, rfl, ⟨rfl, rfl⟩⟩
  · rw [State.advance_of_last (by omega)] at hexec
    exact ⟨_, _, hexec, hread, hsum, hrest, fun h => absurd h hlt, fun _ => ⟨rfl, rfl⟩, rfl, rfl, rfl, rfl, rfl, rfl,
      rfl, ⟨rfl, rfl⟩⟩

end Sys2Proof.Proofs
end

section
/-! The compressor (44_compressor.md R140, R141, R149 to R151): the mixing functions by their bits, one round by sums
modulo `2^32`, what VLOAD, ROUND and FOLD write, and the statements. -/

namespace Sys2Proof.Machine

/-! ### The mixing functions (R140) -/

theorem getLsbD_ch (e f g : Word) {i : Nat} (hi : i < 32) :
    (ch e f g).getLsbD i = if e.getLsbD i then f.getLsbD i else g.getLsbD i := by
  rw [ch, BitVec.getLsbD_xor, BitVec.getLsbD_and, BitVec.getLsbD_and, BitVec.getLsbD_not]
  cases e.getLsbD i <;> simp [hi]

theorem getLsbD_maj (a b c : Word) (i : Nat) :
    (maj a b c).getLsbD i = true ↔ 2 ≤ (a.getLsbD i).toNat + (b.getLsbD i).toNat + (c.getLsbD i).toNat := by
  rw [maj, BitVec.getLsbD_xor, BitVec.getLsbD_xor, BitVec.getLsbD_and, BitVec.getLsbD_and, BitVec.getLsbD_and]
  generalize a.getLsbD i = x, b.getLsbD i = y, c.getLsbD i = z
  revert x y z
  decide

theorem ch_ones (f g : Word) : ch 0xffffffff f g = f := by
  have hones : (0xffffffff : Word) = BitVec.allOnes 32 := rfl
  rw [ch, hones, BitVec.allOnes_and, BitVec.not_allOnes, BitVec.zero_and, BitVec.xor_zero]

theorem ch_zero (f g : Word) : ch 0 f g = g := by
  rw [BitVec.ofNat_eq_ofNat, ch, BitVec.zero_and, BitVec.zero_xor, BitVec.not_zero, BitVec.allOnes_and]

/-- Where there is nothing to choose, the choice does not matter. -/
theorem ch_self (e x : Word) : ch e x x = x :=
  BitVec.eq_of_getLsbD_eq fun _ hi => by rw [getLsbD_ch e x x hi, ite_self]

/-- Two equal words are the majority. -/
theorem maj_self (x y : Word) : maj x x y = x := by
  rw [maj, BitVec.and_self, BitVec.xor_assoc, BitVec.xor_self, BitVec.xor_zero]

/-- Where two words differ in every bit, the third decides. -/
theorem maj_zero_ones (c : Word) : maj 0 0xffffffff c = c := by
  have hones : (0xffffffff : Word) = BitVec.allOnes 32 := rfl
  rw [hones, BitVec.ofNat_eq_ofNat, maj, BitVec.zero_and, BitVec.zero_and, BitVec.xor_self, BitVec.zero_xor,
    BitVec.allOnes_and]

/-! ### One round (R141) -/

theorem toNat_roundT1 (v : Oct Word) (k w : Word) :
    (roundT1 v k w).toNat =
      (v.h.toNat + (bsig1 v.e).toNat + (ch v.e v.f v.g).toNat + k.toNat + w.toNat) % 2 ^ 32 := by
  simp only [roundT1, BitVec.toNat_add, Nat.mod_add_mod]

theorem toNat_roundT2 (v : Oct Word) :
    (roundT2 v).toNat = ((bsig0 v.a).toNat + (maj v.a v.b v.c).toNat) % 2 ^ 32 := BitVec.toNat_add _ _

theorem toNat_round_a (v : Oct Word) (k w : Word) :
    (round v k w).a.toNat =
      (v.h.toNat + (bsig1 v.e).toNat + (ch v.e v.f v.g).toNat + k.toNat + w.toNat +
        (bsig0 v.a).toNat + (maj v.a v.b v.c).toNat) % 2 ^ 32 := by
  rw [round, BitVec.toNat_add, toNat_roundT1, toNat_roundT2, ← Nat.add_mod, Nat.add_assoc _ (bsig0 v.a).toNat]

theorem toNat_round_e (v : Oct Word) (k w : Word) :
    (round v k w).e.toNat =
      (v.d.toNat + v.h.toNat + (bsig1 v.e).toNat + (ch v.e v.f v.g).toNat + k.toNat + w.toNat) % 2 ^ 32 := by
  rw [round, BitVec.toNat_add, toNat_roundT1, Nat.add_mod_mod]
  simp only [Nat.add_assoc]

/-! ### The round constants (10_state.md R31) -/

theorem length_roundConstants : roundConstants.length = 64 := rfl

/-- Every value of `T` has its constant in the table. -/
theorem getElem?_roundConstants (t : BitVec 6) : roundConstants[t.toNat]? = some (kAt t) :=
  getElem?_eq_some_getD (length_roundConstants ▸ t.isLt) 0

/-! ### VLOAD, ROUND and FOLD (R149 to R151) -/

variable {s : State} {hs vs : Oct Word} {k : BitVec 6} {p : PadStage} {next : Phase}

theorem execVload_of_enabled (he : s.enabled = some .vload) (hh : s.h = hs.held) :
    execVload s = .next { s with v := hs.held, t := some 0, phase := .round } := by
  rw [execVload, whenEnabled_of he, hh, Oct.values_held, need_some]

theorem execRound_of_enabled {x : Word} (he : s.enabled = some .round) (ht : s.t = some k) (hv : s.v = vs.held)
    (hx : Store.read s.w k.toNat = some x) :
    execRound s = .next ({ s with v := (round vs (kAt k) x).held }.advance k .fold) := by
  rw [execRound, whenEnabled_of he, ht, need_some, hv, Oct.values_held, need_some, hx, need_some]

theorem execFold_of_enabled (he : s.enabled = some .fold) (hh : s.h = hs.held) (hv : s.v = vs.held)
    (hps : s.ps = some p) (hnext : phaseAfterFold p = some next) :
    execFold s = .next (s.endBlock (Oct.zip add32 hs vs) next) := by
  rw [execFold, whenEnabled_of he, hps, need_some, hh, Oct.values_held, need_some, hv, Oct.values_held, need_some,
    hnext]

/-- Without a next phase there is no step (93_implementation_defined.md I15). -/
theorem execFold_of_mark (he : s.enabled = some .fold) (hh : s.h = hs.held) (hv : s.v = vs.held)
    (hps : s.ps = some .mark) : execFold s = .fault .stuck := by
  rw [execFold, whenEnabled_of he, hps, need_some, hh, Oct.values_held, need_some, hv, Oct.values_held, need_some,
    phaseAfterFold]

/-- Every pad stage but `MARK` has a phase after FOLD. -/
theorem exists_phaseAfterFold (h : p ≠ .mark) :
    ∃ next, phaseAfterFold p = some next ∧ (p = .none → next = .absorb) ∧ (p = .zero → next = .pad) ∧
      (p = .len → next = .done) := by
  cases p with
  | mark => exact absurd rfl h
  | none => exact ⟨.absorb, rfl, fun _ => rfl, nofun, nofun⟩
  | zero => exact ⟨.pad, rfl, nofun, fun _ => rfl, nofun⟩
  | len => exact ⟨.done, rfl, nofun, nofun, fun _ => rfl⟩

/-- How a pass of a loop leaves the index and the phase, by whether it is the last one. -/
theorem State.advance_t_phase (k : BitVec 6) (next : Phase) (s : State) :
    (k.toNat < 63 → (∃ k', (s.advance k next).t = some k' ∧ k'.toNat = k.toNat + 1) ∧
      (s.advance k next).phase = s.phase) ∧
    (k.toNat = 63 → (s.advance k next).t = some 0 ∧ (s.advance k next).phase = next) := by
  refine ⟨fun hlt => ?_, fun hlast => ?_⟩
  · rw [State.advance_of_lt hlt]
    exact ⟨⟨k + 1, rfl, toNat_t_succ hlt⟩, rfl⟩
  · rw [State.advance_of_last hlast]
    exact ⟨rfl, rfl⟩

theorem Oct.get_zip {α β γ : Type} (f : α → β → γ) (r : Oct α) (q : Oct β) (j : Fin 8) :
    (Oct.zip f r q).get j = f (r.get j) (q.get j) := by
  fin_cases j <;> rfl

end Sys2Proof.Machine

namespace Sys2Proof.Proofs

open Sys2Proof.Machine

/-- Settles O5: `ch` and `maj` by a case split on one bit of each word, and the corner cases by the laws of the bitwise
operations or, for closed words, by evaluation. -/
theorem roundMixingBits : Obligations.RoundMixingBits :=
  ⟨fun _ => ⟨rfl, rfl⟩, fun _ _ _ => rfl, fun _ _ _ => rfl, fun e f g _ hi => getLsbD_ch e f g hi,
    fun a b c i _ => getLsbD_maj a b c i, fun f g => ⟨ch_ones f g, ch_zero f g⟩, ch_self, maj_self, maj_zero_ones,
    by decide, by decide, by decide, by decide, by decide, by decide, by decide, by decide⟩

/-- Settles O6: the two sums of `t1` and `t2`; the assignments, each of which reads what none before it has written,
evaluate to the same registers. -/
theorem roundMovesRegistersFromOldValues : Obligations.RoundMovesRegistersFromOldValues :=
  ⟨fun v k w => ⟨toNat_round_a v k w, toNat_round_e v k w, rfl, rfl, rfl, rfl, rfl, rfl⟩, fun _ _ _ => rfl⟩

/-- Settles O39: the eight values of `H` are held in `V`, and the new phase enables ROUND. -/
theorem vloadCopiesHashState : Obligations.VloadCopiesHashState := by
  intro s hs n p tt hp hh hn hps ht
  have hen : s.enabled = some .vload := enabled_of_selectedWhen hps hn ht (by decide) hp
  exact ⟨hen, _, execVload_of_enabled hen hh, Oct.get_held hs, rfl, enabled_of_selectedWhen hps hn rfl (by decide) rfl⟩

/-- Settles O40: the round is made on the constant and the word at `T`; then the loop goes on or, after its last pass,
ends. The table is compared entry by entry. -/
theorem roundUpdatesWorkingRegisters : Obligations.RoundUpdatesWorkingRegisters := by
  refine ⟨length_roundConstants, by decide, fun s k vs x n p hp ht hv hx hn hps => ?_⟩
  have hen : s.enabled = some .round := enabled_of_selectedWhen hps hn ht (by decide) hp
  obtain ⟨hpass, hlast⟩ := State.advance_t_phase k .fold { s with v := (round vs (kAt k) x).held }
  exact ⟨hen, _, kAt k, execRound_of_enabled hen ht hv hx, getElem?_roundConstants k, State.advance_v ..,
    fun h => ⟨(hpass h).1, (hpass h).2.trans hp⟩, hlast, State.advance_w .., State.advance_h .., State.advance_buf ..,
    State.advance_cnt .., State.advance_len .., State.advance_ps .., State.advance_responses ..,
    State.advance_host .., State.advance_resetPin ..⟩

/-- Settles O41: each register is added to its place of the hash state, and the block's cells are cleared; `MARK` has no
next phase. -/
theorem foldAddsAndEndsTheBlock : Obligations.FoldAddsAndEndsTheBlock := by
  refine ⟨fun s hs vs n p tt hp hh hv hn hps ht hne => ?_, fun s hs vs => execFold_of_mark⟩
  have hen : s.enabled = some .fold := enabled_of_selectedWhen hps hn ht (by decide) hp
  obtain ⟨next, hnext, hnone, hzero, hlen⟩ := exists_phaseAfterFold hne
  have hsum (j : Fin 8) : ((Oct.zip add32 hs vs).get j).toNat = ((hs.get j).toNat + (vs.get j).toNat) % 2 ^ 32 := by
    rw [Oct.get_zip, BitVec.toNat_add]
  exact ⟨hen, _, _, execFold_of_enabled hen hh hv hps hnext, rfl, hsum, rfl, Store.read_invalid, Store.read_invalid,
    rfl, rfl, hnone, hzero, hlen, rfl, rfl, rfl, rfl, rfl⟩

end Sys2Proof.Proofs
end

section
/-! Runs of a busy core (45_engine.md R163 (a)): micro-operations one after another, said of the cells, and what such a run
is for a state without reset. -/

namespace Sys2Proof.Machine

variable {a b c : Cells} {m n : Nat} {i : Instr}

/-- The enabled micro-operation takes the cells `a` to `b`, whatever the inputs and the responses are. That it is then the
step of the core is `MicroStep.step`. -/
def MicroStep (a b : Cells) : Prop :=
  ∃ i, a.enabled = some i ∧ ∀ host pin given, exec i ⟨a, host, pin, given⟩ = .next ⟨b, host, pin, given⟩

/-- `n` micro-operations one after another take the cells `a` to `b`. That they are `n` steps of the core is
`MicroSteps.run`. -/
inductive MicroSteps : Nat → Cells → Cells → Prop where
  | refl (a : Cells) : MicroSteps 0 a a
  | head {n : Nat} {a b c : Cells} (h : MicroStep a b) (hs : MicroSteps n b c) : MicroSteps (n + 1) a c

theorem MicroStep.single (h : MicroStep a b) : MicroSteps 1 a b := .head h (.refl b)

theorem MicroSteps.trans (h : MicroSteps m a b) (h' : MicroSteps n b c) : MicroSteps (m + n) a c := by
  induction h with
  | refl a => rwa [Nat.zero_add]
  | head hstep _ ih =>
    rw [Nat.add_right_comm]
    exact .head hstep (ih h')

/-- The passes of a loop, one micro-operation each. -/
theorem MicroSteps.loop {f : Nat → Cells} (h : ∀ k < n, MicroStep (f k) (f (k + 1))) : MicroSteps n (f 0) (f n) := by
  induction n with
  | zero => exact .refl _
  | succ n ih => exact (ih fun k hk => h k (by omega)).trans (h n (by omega)).single

/-- Before the last of them every micro-operation finds a busy core. -/
theorem MicroSteps.busy_before (h : MicroSteps n a c) {j : Nat} (hj : j < n) :
    ∃ b, MicroSteps j a b ∧ b.ready = false := by
  induction h generalizing j with
  | refl a => omega
  | @head n a b c hstep hs ih =>
    cases j with
    | zero =>
      obtain ⟨i, hen, -⟩ := hstep
      exact ⟨a, .refl a, not_ready_of_enabled hen⟩
    | succ j =>
      obtain ⟨d, hd, hbusy⟩ := ih (Nat.lt_of_succ_lt_succ hj)
      exact ⟨d, .head hstep hd, hbusy⟩

/-! ### The steps of a state -/

variable {s t u : State}

/-- What steps of a busy core leave alone: no response is given, no reset comes, and a host that is not silent still
presents what it did (40_commands.md R90). -/
structure Undisturbed (s t : State) : Prop where
  responses : t.responses = s.responses
  noReset : NoReset t
  host : (∀ ms, s.host ≠ .silent :: ms) → t.host = s.host

theorem Undisturbed.refl (hr : NoReset s) : Undisturbed s s := ⟨rfl, hr, fun _ => rfl⟩

theorem Undisturbed.trans (h : Undisturbed s t) (h' : Undisturbed t u) : Undisturbed s u where
  responses := h'.responses.trans h.responses
  noReset := h'.noReset
  host hs := (h'.host (h.host hs ▸ hs)).trans (h.host hs)

theorem resetAsserted_of_noReset (h : NoReset s) : s.resetAsserted = false := by
  obtain ⟨hpin, hhost⟩ := h
  have hlevel : s.resetPin.headD false = false := by
    cases hp : s.resetPin with
    | nil => rfl
    | cons b bs => exact hpin b (by simp [hp])
  have hline : s.host.head? ≠ some .reset := fun hhead => hhost (List.mem_of_mem_head? hhead)
  rw [State.resetAsserted, hlevel, Bool.false_or]
  exact beq_eq_false_iff_ne.2 hline

theorem State.elapse_host_subset (s : State) : s.elapse.host ⊆ s.host := by
  unfold State.elapse
  dsimp only
  split
  · next h => exact h ▸ List.subset_cons_self ..
  · exact List.Subset.refl _

theorem State.elapse_host_of_ne_silent (h : ∀ ms, s.host ≠ .silent :: ms) : s.elapse.host = s.host := by
  unfold State.elapse
  dsimp only
  split
  · next ms hsilent => exact absurd hsilent (h ms)
  · rfl

/-- One step at the inputs of a busy core takes no more than silence from the host. -/
theorem undisturbed_elapse (hr : NoReset s) : Undisturbed s s.elapse := by
  obtain ⟨hpin, hhost⟩ := hr
  exact ⟨rfl, ⟨fun b hb => hpin b (List.mem_of_mem_tail hb), fun h => hhost (s.elapse_host_subset h)⟩,
    State.elapse_host_of_ne_silent⟩

theorem MicroStep.step (h : MicroStep s.toCells b) (hr : NoReset s) :
    ∃ t, step s = .next t ∧ t.toCells = b ∧ Undisturbed s t := by
  obtain ⟨i, hen, hexec⟩ := h
  have hels := undisturbed_elapse hr
  exact ⟨⟨b, s.elapse.host, s.elapse.resetPin, s.elapse.responses⟩,
    (step_of_enabled (resetAsserted_of_noReset hr) hen).trans (hexec ..), rfl, hels.responses, hels.noReset, hels.host⟩

theorem run_succ_of_step (h : Machine.step s = .next t) (n : Nat) : run (n + 1) s = run n t := by
  rw [Sys2Proof.run, h]

/-- A run goes on where its first part has ended. -/
theorem run_add_of_run (h : run m s = .next t) (n : Nat) : run (m + n) s = run n t := by
  induction m generalizing s with
  | zero =>
    cases h
    rw [Nat.zero_add]
  | succ m ih =>
    rw [Nat.add_right_comm, Sys2Proof.run]
    rw [Sys2Proof.run] at h
    split at h
    · exact ih h
    · cases h
    · cases h

theorem MicroSteps.run (h : MicroSteps n a c) (ha : s.toCells = a) (hr : NoReset s) :
    ∃ t, run n s = .next t ∧ t.toCells = c ∧ Undisturbed s t := by
  induction h generalizing s with
  | refl a => exact ⟨s, rfl, ha, .refl hr⟩
  | head hstep _ ih =>
    obtain ⟨t, hst, ht, hund⟩ := MicroStep.step (ha ▸ hstep) hr
    obtain ⟨u, hrun, hu, hund'⟩ := ih ht hund.noReset
    exact ⟨u, (run_succ_of_step hst _).trans hrun, hu, hund.trans hund'⟩

end Sys2Proof.Machine
end

section
/-! One block (45_engine.md R164, 43_scheduler.md R134, 44_compressor.md R152): the 64 passes of the schedule, the 64 rounds,
and the 131 micro-operations from BLKGO to FOLD; with the statement about them. -/

namespace Sys2Proof.Machine

variable {c : Cells} {hs : Oct Word} {p : PadStage} {k : Nat}

theorem toNat_ofNat_six (hk : k < 64) : (BitVec.ofNat 6 k).toNat = k := Nat.mod_eq_of_lt hk

theorem ofNat_six_succ (k : Nat) : BitVec.ofNat 6 k + 1 = BitVec.ofNat 6 (k + 1) := (BitVec.ofNat_add k 1).symm

/-- One pass of a 64-pass loop on the cells: the index counts, and after the last one the next phase begins at index 0. -/
theorem State.advance_ofNat (hk : k < 64) (p next : Phase) (s : State) (hp : s.phase = p) :
    s.advance (BitVec.ofNat 6 k) next =
      { s with t := some (BitVec.ofNat 6 (k + 1)), phase := if k + 1 < 64 then p else next } := by
  subst hp
  have hval := toNat_ofNat_six hk
  rcases Nat.lt_or_ge k 63 with hlt | hge
  · rw [State.advance_of_lt (by omega), if_pos (by omega), ofNat_six_succ]
  · obtain rfl : k = 63 := by omega
    exact State.advance_of_last hval next s

/-! ### The bytes of a full buffer -/

theorem getElem?_bufBlock (m : Memory) {i : Nat} (hi : i < 64) : (bufBlock m)[i]? = some ((Store.read m i).getD 0) := by
  rw [bufBlock, List.getElem?_map, List.getElem?_range hi, Option.map_some]

theorem read_eq_getD_bufBlock {m : Memory} {i : Nat} (hi : i < 64) (hm : (Store.read m i).isSome = true) :
    Store.read m i = some ((bufBlock m).getD i 0) := by
  obtain ⟨b, hb⟩ := Option.isSome_iff_exists.1 hm
  rw [List.getD_eq_getElem?_getD, getElem?_bufBlock m hi, hb, Option.getD_some, Option.getD_some]

/-- A word of a full buffer is a word of its block (43_scheduler.md R131, R132). -/
theorem bufRead4_eq_blockWord {m : Memory} (hm : ∀ i < 64, (Store.read m i).isSome = true) (hk : k < 16) :
    bufRead4 m (4 * k) = some (blockWord (bufBlock m) k) := by
  have hread (i : Nat) (hi : i < 64) := read_eq_getD_bufBlock hi (hm i hi)
  exact bufRead4_of_held (hread _ (by omega)) (hread _ (by omega)) (hread _ (by omega)) (hread _ (by omega))

/-! ### The schedule -/

/-- The first `k` places of `W` written with the words `ws`. -/
@[irreducible] def writeWords (ws : List Word) (k : Nat) (w : Store Word) : Store Word :=
  (List.range k).foldl (fun w i => Store.write w i (ws.getD i 0)) w

theorem writeWords_zero (ws : List Word) (w : Store Word) : writeWords ws 0 w = w := by rw [writeWords]; rfl

theorem writeWords_succ (ws : List Word) (k : Nat) (w : Store Word) :
    writeWords ws (k + 1) w = Store.write (writeWords ws k w) k (ws.getD k 0) := by
  rw [writeWords, writeWords, List.range_succ, List.foldl_append]
  rfl

theorem read_writeWords (ws : List Word) (w : Store Word) {i : Nat} (hi : i < k) :
    Store.read (writeWords ws k w) i = some (ws.getD i 0) := by
  induction k with
  | zero => omega
  | succ k ih =>
    rw [writeWords_succ, Store.read_write]
    split
    · next heq => rw [heq]
    · exact ih (by omega)

/-- The cells after `k` words of the schedule `ws`: `SCHED` at `T = k`, and `VINIT` after all 64. That micro-operations
lead from each to the next is `scheduleStep`. -/
def scheduling (ws : List Word) (c : Cells) (k : Nat) : Cells :=
  { c with
    w := writeWords ws k c.w
    t := some (BitVec.ofNat 6 k)
    phase := if k < 64 then .sched else .vinit }

/-- BLKGO starts the schedule, whatever its words will be. -/
theorem blkgoStep (hen : c.enabled = some .blkgoAbsorb ∨ c.enabled = some .blkgoPad) (ws : List Word) :
    MicroStep c (scheduling ws c 0) := by
  have hstart : scheduling ws c 0 = { c with phase := .sched, t := some 0 } := by
    rw [scheduling, writeWords_zero]
    rfl
  rw [hstart]
  rcases hen with hen | hen <;> exact ⟨_, hen, fun _ _ _ => whenEnabled_of hen⟩

/-- WLOAD or WEXP: the word at `T` of the schedule of the block in `BUF`. -/
theorem scheduleStep {n : BitVec 7} (hn : c.cnt = some n) (hps : c.ps = some p)
    (hbuf : ∀ i < 64, (Store.read c.buf i).isSome = true) (hk : k < 64) :
    MicroStep (scheduling (schedule (bufBlock c.buf)) c k) (scheduling (schedule (bufBlock c.buf)) c (k + 1)) := by
  have hval := toNat_ofNat_six hk
  have hphase : (scheduling (schedule (bufBlock c.buf)) c k).phase = .sched := if_pos hk
  rcases Nat.lt_or_ge k 16 with hlt | hge
  · have hen : (scheduling (schedule (bufBlock c.buf)) c k).enabled = some .wload :=
      enabled_of_selectedWhen hps hn rfl (by decide) ⟨hphase, by omega⟩
    have hword : (schedule (bufBlock c.buf)).getD k 0 = blockWord (bufBlock c.buf) k := by
      rw [List.getD_eq_getElem?_getD, getElem?_schedule_of_lt _ hlt, Option.getD_some]
    have hread : bufRead4 c.buf (4 * (BitVec.ofNat 6 k).toNat) = some ((schedule (bufBlock c.buf)).getD k 0) := by
      rw [hval, hword, bufRead4_eq_blockWord hbuf hlt]
    refine ⟨.wload, hen, fun host pin given => (execWload_of_enabled hen rfl hread).trans ?_⟩
    have hnext : k + 1 < 64 := by omega
    simp only [scheduling, hk, hnext, hval, if_true, writeWords_succ, ofNat_six_succ]
  · have hen : (scheduling (schedule (bufBlock c.buf)) c k).enabled = some .wexp :=
      enabled_of_selectedWhen hps hn rfl (by decide) ⟨hphase, by omega⟩
    have hread (j : Nat) (hj : 0 < j) : Store.read (writeWords (schedule (bufBlock c.buf)) k c.w)
        ((BitVec.ofNat 6 k).toNat - j) = some ((schedule (bufBlock c.buf)).getD (k - j) 0) := by
      rw [hval]
      exact read_writeWords _ _ (by omega)
    have hword := getElem?_schedule_of_le (bufBlock c.buf) hge hk
    refine ⟨.wexp, hen, fun host pin given => (execWexp_of_enabled hen rfl (hread 16 (by decide)) (hread 15 (by decide))
      (hread 7 (by decide)) (hread 2 (by decide))).trans ?_⟩
    rw [State.advance_ofNat hk .sched .vinit _ hphase, hval]
    simp only [scheduling, writeWords_succ, List.getD_eq_getElem?_getD, hword, Option.getD_some]

/-! ### The rounds -/

theorem rounds_succ (ws : List Word) (k : Nat) (v : Oct Word) :
    rounds ws (k + 1) v = round (rounds ws k v) (roundConstants.getD k 0) (ws.getD k 0) := by
  rw [rounds, List.range_succ, List.foldl_append]
  rfl

/-- The cells after `k` rounds on the words `ws` from `hs`: `ROUND` at `T = k`, and `FOLD` after all 64. That
micro-operations lead from each to the next is `roundStep`. -/
def rounding (ws : List Word) (hs : Oct Word) (c : Cells) (k : Nat) : Cells :=
  { c with
    v := (rounds ws k hs).held
    t := some (BitVec.ofNat 6 k)
    phase := if k < 64 then .round else .fold }

theorem roundStep {n : BitVec 7} {ws : List Word} (hn : c.cnt = some n) (hps : c.ps = some p)
    (hw : ∀ i < 64, Store.read c.w i = some (ws.getD i 0)) (hk : k < 64) :
    MicroStep (rounding ws hs c k) (rounding ws hs c (k + 1)) := by
  have hval := toNat_ofNat_six hk
  have hphase : (rounding ws hs c k).phase = .round := if_pos hk
  have hen : (rounding ws hs c k).enabled = some .round := enabled_of_selectedWhen hps hn rfl (by decide) hphase
  have hread : Store.read c.w (BitVec.ofNat 6 k).toNat = some (ws.getD k 0) := by rw [hval, hw k hk]
  refine ⟨.round, hen, fun host pin given => (execRound_of_enabled hen rfl rfl hread).trans ?_⟩
  rw [State.advance_ofNat hk .round .fold _ hphase, kAt, hval]
  simp only [rounding, rounds_succ]

/-! ### The block -/

/-- The cells after FOLD (44_compressor.md R151), for the new hash state and the next phase. -/
def Cells.blockDone (hs : Oct Word) (next : Phase) (c : Cells) : Cells :=
  { c with
    h := hs.held
    v := Oct.noValue
    w := Store.invalid
    buf := Store.invalid
    cnt := some 0
    t := some 0
    phase := next }

/-- VLOAD, the 64 rounds and FOLD (44_compressor.md R152), for the words `ws` in `W`. -/
theorem compressSteps {n : BitVec 7} {t : BitVec 6} {ws : List Word} {next : Phase} (hp : c.phase = .vinit)
    (hh : c.h = hs.held) (hn : c.cnt = some n) (hps : c.ps = some p) (ht : c.t = some t)
    (hw : ∀ i < 64, Store.read c.w i = some (ws.getD i 0)) (hnext : phaseAfterFold p = some next) :
    MicroSteps 66 c (c.blockDone (compress hs ws) next) := by
  have hvload : MicroStep c (rounding ws hs c 0) := by
    have hen : c.enabled = some .vload := enabled_of_selectedWhen hps hn ht (by decide) hp
    exact ⟨_, hen, fun _ _ _ => execVload_of_enabled hen hh⟩
  have hrounds : MicroSteps 64 (rounding ws hs c 0) (rounding ws hs c 64) := .loop fun k hk => roundStep hn hps hw hk
  have hfold : MicroStep (rounding ws hs c 64) (c.blockDone (compress hs ws) next) := by
    have hen : (rounding ws hs c 64).enabled = some .fold := enabled_of_selectedWhen hps hn rfl (by decide) rfl
    exact ⟨_, hen, fun _ _ _ => execFold_of_enabled (vs := rounds ws 64 hs) hen hh rfl hps hnext⟩
  exact (hvload.single.trans hrounds).trans hfold.single

/-- From an enabled BLKGO of a full buffer, 131 micro-operations fold the block into the hash state (45_engine.md R164). -/
theorem blockSteps {next : Phase} (hen : c.enabled = some .blkgoAbsorb ∨ c.enabled = some .blkgoPad) (hh : c.h = hs.held)
    (hps : c.ps = some p) (hnext : phaseAfterFold p = some next)
    (hbuf : ∀ i < 64, (Store.read c.buf i).isSome = true) :
    MicroSteps 131 c (c.blockDone (hashBlock hs (bufBlock c.buf)) next) := by
  obtain ⟨i, hi⟩ : ∃ i, c.enabled = some i := hen.elim (⟨_, ·⟩) (⟨_, ·⟩)
  obtain ⟨-, n, -, -, hn, -⟩ := sequencerCells_of_enabled hi
  have hblkgo := blkgoStep hen (schedule (bufBlock c.buf))
  have hschedule : MicroSteps 64 (scheduling (schedule (bufBlock c.buf)) c 0)
      (scheduling (schedule (bufBlock c.buf)) c 64) := .loop fun k hk => scheduleStep hn hps hbuf hk
  have hcompress := compressSteps (c := scheduling (schedule (bufBlock c.buf)) c 64) rfl hh hn hps rfl
    (fun i hi => read_writeWords _ c.w hi) hnext
  rw [hashBlock]
  exact (hblkgo.single.trans hschedule).trans hcompress

end Sys2Proof.Machine

namespace Sys2Proof.Proofs

open Sys2Proof.Machine

/-- Settles O54: BLKGO, the loop of the schedule, VLOAD, the loop of the rounds and FOLD, one after another. -/
theorem blockIsCompressedInto131Steps : Obligations.BlockIsCompressedInto131Steps := by
  intro s hs p hen hh hps hne hbuf hr
  obtain ⟨next, hnext, -⟩ := exists_phaseAfterFold hne
  obtain ⟨t, hrun, ht, hund⟩ := (blockSteps hen hh hps hnext hbuf).run rfl hr
  refine ⟨t, hrun, ?_, ?_, ?_, ?_, ?_, ?_, ?_, ?_, hund.responses, fun w rest ms hhost => hund.host (by simp [hhost])⟩
  all_goals rw [ht]
  · rfl
  · exact hnext
  · rfl
  · exact fun i => ⟨rfl, rfl⟩
  all_goals rfl

end Sys2Proof.Proofs
end

section
/-! Finalization (45_engine.md R165): the block buffer as the list of its bytes, the padding bytes written one after another,
and the one or two blocks they end; with the statement about the count of steps. -/

namespace Sys2Proof.Machine

variable {m : Memory} {bs : List Byte} {n : Nat}

/-! ### The buffer that holds a list of bytes -/

/-- The block buffer whose first places hold the bytes `bs`, in canonical form. That these are the buffers of 10_state.md R37
is `exists_eq_bufOf`. -/
def bufOf (bs : List Byte) : Memory := (List.range bs.length).zip bs

/-- A write beyond all indices is appended. -/
theorem Store.write_of_forall_lt {α : Type} {s : Store α} {n : Nat} (x : α) (h : ∀ k ∈ s.map Prod.fst, k < n) :
    Store.write s n x = s ++ [(n, x)] := by
  induction s with
  | nil => rfl
  | cons hd tl ih =>
    obtain ⟨k, y⟩ := hd
    have hk : k < n := h k (by simp)
    rw [Store.write, if_neg (by omega), if_neg (by omega), ih fun j hj => h j (List.mem_cons_of_mem _ hj), List.cons_append]

theorem filledTo_bufOf (bs : List Byte) : Store.filledTo bs.length (bufOf bs) :=
  List.map_fst_zip (by rw [List.length_range])

theorem exists_eq_bufOf (h : Store.filledTo n m) : ∃ bs, bs.length = n ∧ m = bufOf bs := by
  have hlen : (m.map Prod.snd).length = n := by
    rw [List.length_map, ← List.length_map (f := Prod.fst), h, List.length_range]
  refine ⟨m.map Prod.snd, hlen, ?_⟩
  rw [bufOf, hlen, ← h, List.zip_map', List.map_id']

/-- A byte written at the count is the list's next byte. -/
theorem write_bufOf (bs : List Byte) (b : Byte) : Store.write (bufOf bs) bs.length b = bufOf (bs ++ [b]) := by
  have hkeys : ∀ k ∈ (bufOf bs).map Prod.fst, k < bs.length := fun k hk => by
    rw [filledTo_bufOf] at hk
    exact List.mem_range.1 hk
  rw [Store.write_of_forall_lt b hkeys, bufOf, bufOf, List.length_append, List.length_singleton, List.range_succ,
    List.zip_append (by rw [List.length_range])]
  rfl

theorem read_bufOf (bs : List Byte) (i : Nat) : Store.read (bufOf bs) i = bs[i]? := by
  induction bs using List.reverseRecOn with
  | nil => rfl
  | append_singleton bs b ih =>
    rw [← write_bufOf, Store.read_write, ih]
    split
    · next h => rw [h, List.getElem?_concat_length]
    · rcases Nat.lt_or_ge i bs.length with hlt | hge
      · rw [List.getElem?_append_left hlt]
      · rw [List.getElem?_eq_none hge, List.getElem?_eq_none (by rw [List.length_append, List.length_singleton]; omega)]

theorem bufBlock_bufOf (h : bs.length = 64) : bufBlock (bufOf bs) = bs := by
  refine List.ext_getElem? fun i => ?_
  rcases Nat.lt_or_ge i 64 with hi | hi
  · rw [getElem?_bufBlock _ hi, read_bufOf, List.getElem?_eq_getElem (by omega), Option.getD_some]
  · rw [List.getElem?_eq_none (by simpa [bufBlock] using hi), List.getElem?_eq_none (by omega)]

/-! ### The blocks of joined sequences -/

/-- Where the first sequence ends with a block, the blocks of two sequences joined are those of the first and of the
second. -/
theorem blocks_append {a : List Byte} (b : List Byte) (h : a.length % 64 = 0) : blocks (a ++ b) = blocks a ++ blocks b := by
  obtain ⟨q, hq⟩ := Nat.dvd_of_mod_eq_zero h
  have hcount : (a ++ b).length / 64 = q + b.length / 64 := by
    rw [List.length_append, hq, Nat.mul_add_div (by decide)]
  have hfirst : ∀ j ∈ List.range q, blockAt (a ++ b) j = blockAt a j := fun j hj => by
    have hj := List.mem_range.1 hj
    rw [blockAt, blockAt, List.drop_append_of_le_length (by omega), List.take_append_of_le_length (by simp; omega)]
  have hsecond (j : Nat) : blockAt (a ++ b) (q + j) = blockAt b j := by
    rw [blockAt, blockAt, Nat.mul_add, ← hq, List.drop_length_add_append]
  rw [blocks, hcount, List.range_add, List.map_append, List.map_map, blocks, blocks, hq, Nat.mul_div_cancel_left _ (by decide),
    List.map_congr_left hfirst]
  exact congrArg _ (List.map_congr_left fun j _ => hsecond j)

theorem blocks_of_length_lt {a : List Byte} (h : a.length < 64) : blocks a = [] := by
  rw [blocks, Nat.div_eq_of_lt h]
  rfl

theorem blocks_of_length_eq {a : List Byte} (h : a.length = 64) : blocks a = [a] := by
  rw [blocks, h]
  exact congrArg (· :: []) (List.take_of_length_le h.le)

/-! ### The padding bytes, one micro-operation each -/

variable {c : Cells} {t : BitVec 6} {l : BitVec 61} {hs : Oct Word} {ps : PadStage} {next : Phase}

/-- The cells with the bytes `bs` in the buffer and the pad stage `ps`. -/
def padding (c : Cells) (bs : List Byte) (ps : PadStage) : Cells :=
  { c with buf := bufOf bs, cnt := some (BitVec.ofNat 7 bs.length), ps := some ps }

theorem toNat_ofNat_seven (hn : n ≤ 64) : (BitVec.ofNat 7 n).toNat = n := Nat.mod_eq_of_lt (by omega)

/-- What a micro-operation of the Padder writes is the next byte of the list. -/
theorem bufWrite_padding (hlt : bs.length < 64) (b : Byte) (q : PadStage) (host : List HostMove) (pin : List Bool)
    (given : List RspWord) :
    { (⟨padding c bs ps, host, pin, given⟩ : State).bufWrite (BitVec.ofNat 7 bs.length) b with ps := some q } =
      ⟨padding c (bs ++ [b]) q, host, pin, given⟩ := by
  have hcnt : BitVec.ofNat 7 bs.length + 1 = BitVec.ofNat 7 (bs ++ [b]).length := by
    rw [List.length_append]
    exact (BitVec.ofNat_add bs.length 1).symm
  rw [State.bufWrite, toNat_ofNat_seven hlt.le, hcnt]
  simp only [padding, write_bufOf]

theorem padmarkStep (hp : c.phase = .pad) (ht : c.t = some t) (hlt : bs.length < 64) :
    MicroStep (padding c bs .mark) (padding c (bs ++ [Config.padMark]) .zero) := by
  have hen : (padding c bs .mark).enabled = some .padmark :=
    enabled_of_selectedWhen rfl rfl ht (by decide) ⟨hp, rfl, by rwa [toNat_ofNat_seven hlt.le]⟩
  exact ⟨_, hen, fun host pin given =>
    (execPadmark_of_enabled hen rfl).trans (congrArg _ (bufWrite_padding hlt ..))⟩

theorem padzeroStep (hp : c.phase = .pad) (ht : c.t = some t) (hlt : bs.length < 64) (hne : bs.length ≠ 56) :
    MicroStep (padding c bs .zero) (padding c (bs ++ [0]) .zero) := by
  have hval := toNat_ofNat_seven hlt.le
  have hen : (padding c bs .zero).enabled = some .padzero :=
    enabled_of_selectedWhen rfl rfl ht (by decide)
      ⟨hp, rfl, by omega, fun h => hne (hval.symm.trans (congrArg BitVec.toNat h))⟩
  exact ⟨_, hen, fun host pin given =>
    (execPadzero_of_enabled hen rfl).trans (congrArg _ (bufWrite_padding hlt ..))⟩

theorem padzeroSteps (hp : c.phase = .pad) (ht : c.t = some t)
    (hroom : ∀ j, bs.length ≤ j → j < bs.length + n → j < 64 ∧ j ≠ 56) :
    MicroSteps n (padding c bs .zero) (padding c (bs ++ List.replicate n 0) .zero) := by
  have hloop : MicroSteps n (padding c (bs ++ List.replicate 0 0) .zero) (padding c (bs ++ List.replicate n 0) .zero) := by
    refine .loop (f := fun k => padding c (bs ++ List.replicate k 0) .zero) fun k hk => ?_
    obtain ⟨hlt, hne⟩ := hroom (bs.length + k) (by omega) (by omega)
    rw [List.replicate_succ', ← List.append_assoc]
    exact padzeroStep hp ht (by simpa using hlt) (by simpa using hne)
  simpa using hloop

/-- From place 56 on PADLEN writes byte `n - 56` of the length field (41_padder.md R116). -/
theorem lenFieldByte_eq {k : Nat} (hk : k < 8) (l : BitVec 61) :
    lenFieldByte (BitVec.ofNat 7 (56 + k)) l = be64 k (lenBits l) := by
  have hval : (BitVec.ofNat 7 (56 + k)).toNat = 56 + k := toNat_ofNat_seven (by omega)
  have hat : Config.lenFieldAt ≤ BitVec.ofNat 7 (56 + k) := by
    rw [BitVec.le_def, hval]
    exact Nat.le_add_right 56 k
  rw [lenFieldByte, if_pos hat, hval]
  congr 1
  exact Nat.add_sub_cancel_left 56 k

theorem take_succ_be64Bytes (v : DWord) {k : Nat} (hk : k < 8) :
    (be64Bytes v).take (k + 1) = (be64Bytes v).take k ++ [be64 k v] := by
  rw [List.take_add_one, getElem?_be64Bytes v hk, Option.toList_some]

/-- The cells after `k` bytes of the length field. That micro-operations lead from each to the next is `padlenStep`. -/
def lengthening (c : Cells) (bs : List Byte) (l : BitVec 61) (k : Nat) : Cells :=
  padding c (bs ++ (be64Bytes (lenBits l)).take k) (if k = 0 then .zero else .len)

theorem padlenStep {k : Nat} (hp : c.phase = .pad) (ht : c.t = some t) (hl : c.len = some l) (h56 : bs.length = 56)
    (hk : k < 8) : MicroStep (lengthening c bs l k) (lengthening c bs l (k + 1)) := by
  have hlen : (bs ++ (be64Bytes (lenBits l)).take k).length = 56 + k := by
    rw [List.length_append, h56, List.length_take, be64Bytes, List.length_map, List.length_range, Nat.min_eq_left hk.le]
  have hval : (BitVec.ofNat 7 (56 + k)).toNat = 56 + k := toNat_ofNat_seven (by omega)
  have hcnt : (lengthening c bs l k).cnt = some (BitVec.ofNat 7 (56 + k)) :=
    congrArg (fun j => some (BitVec.ofNat 7 j)) hlen
  have hnext : lengthening c bs l (k + 1) =
      padding c (bs ++ (be64Bytes (lenBits l)).take k ++ [be64 k (lenBits l)]) .len := by
    rw [lengthening, if_neg (Nat.succ_ne_zero k), take_succ_be64Bytes _ hk, List.append_assoc]
  obtain ⟨i, hrow⟩ : ∃ i : Instr,
      i = .padlenFirst ∧ (lengthening c bs l k).ps = some .zero ∧ BitVec.ofNat 7 (56 + k) = 56 ∨
      i = .padlenNext ∧ (lengthening c bs l k).ps = some .len ∧ (BitVec.ofNat 7 (56 + k)).toNat < 64 := by
    cases k with
    | zero => exact ⟨_, .inl ⟨rfl, rfl, rfl⟩⟩
    | succ k => exact ⟨_, .inr ⟨rfl, rfl, by omega⟩⟩
  have hselected (host pin given) := padlen_selected (s := ⟨lengthening c bs l k, host, pin, given⟩) hp hcnt ht hrow
  obtain ⟨hen, -⟩ := hselected [] [] []
  refine ⟨i, hen, fun host pin given => ?_⟩
  obtain ⟨-, -, hexec⟩ := hselected host pin given
  rw [hexec, padLengthByte_of_held hcnt hl, lenFieldByte_eq hk, ← hlen, lengthening, bufWrite_padding (by omega), hnext]

/-- The eight bytes of the length field. -/
theorem padlenSteps (hp : c.phase = .pad) (ht : c.t = some t) (hl : c.len = some l) (h56 : bs.length = 56) :
    MicroSteps 8 (padding c bs .zero) (padding c (bs ++ be64Bytes (lenBits l)) .len) := by
  have hfirst : lengthening c bs l 0 = padding c bs .zero := by
    rw [lengthening, List.take_zero, List.append_nil, if_pos rfl]
  have hloop := MicroSteps.loop (f := lengthening c bs l) fun k hk => padlenStep hp ht hl h56 hk
  rwa [hfirst] at hloop

/-- The block that the padding has filled. -/
theorem padBlockSteps (hp : c.phase = .pad) (ht : c.t = some t) (hh : c.h = hs.held) (hfull : bs.length = 64)
    (hne : ps ≠ .none) (hnext : phaseAfterFold ps = some next) :
    MicroSteps 131 (padding c bs ps) ((padding c bs ps).blockDone (hashBlock hs bs) next) := by
  have hen : (padding c bs ps).enabled = some .blkgoPad := enabled_of_pad_full hp rfl hne rfl (by rw [hfull]; rfl) ht
  have hread : ∀ i < 64, (Store.read (bufOf bs) i).isSome = true := fun i hi => by
    rw [read_bufOf, List.getElem?_eq_getElem (by omega)]
    rfl
  have hblock := blockSteps (c := padding c bs ps) (.inr hen) hh rfl hnext hread
  rwa [show bufBlock (padding c bs ps).buf = bs from bufBlock_bufOf hfull] at hblock

/-! ### The end of a message -/

/-- What the padding appends to a message of `l` bytes (41_padder.md R110). -/
def padTail (l : BitVec 61) : List Byte :=
  Config.padMark :: (List.replicate (padZeros l.toNat) 0 ++ be64Bytes (lenBits l))

/-- The cells in `DONE` with the hash state `hs`. -/
def Cells.finished (hs : Oct Word) (c : Cells) : Cells := Cells.blockDone hs .done { c with ps := some .len }

/-- The last block: zero bytes up to place 56, the length field, and the block. -/
theorem lastBlockSteps (hp : c.phase = .pad) (ht : c.t = some t) (hl : c.len = some l) (hh : c.h = hs.held)
    (hle : bs.length ≤ 56) :
    MicroSteps (64 - bs.length + 131) (padding c bs .zero)
      (c.finished (hashBlock hs (bs ++ List.replicate (56 - bs.length) 0 ++ be64Bytes (lenBits l)))) := by
  have hlen : (bs ++ List.replicate (56 - bs.length) 0).length = 56 := by
    rw [List.length_append, List.length_replicate]
    omega
  have hzeros : MicroSteps (56 - bs.length) _ _ := padzeroSteps hp ht (bs := bs) fun j hj hj' => by omega
  have hlength := padlenSteps hp ht hl hlen
  have hblock := padBlockSteps (ps := .len) hp ht hh
    (bs := bs ++ List.replicate (56 - bs.length) 0 ++ be64Bytes (lenBits l))
    (by rw [List.length_append, hlen]; rfl) (by decide) rfl
  rw [show 64 - bs.length + 131 = 56 - bs.length + 8 + 131 by omega]
  exact (hzeros.trans hlength).trans hblock

/-- The count of micro-operations from FINALIZE with `CNT = r` to `DONE` (45_engine.md R165). -/
def finalizeCount (r : Nat) : Nat :=
  if r ≤ 55 then 64 - r + 131 else if r ≤ 62 then 128 - r + 262 else 65 + 262

/-- The length field still fits the block of the last message bytes. -/
theorem finalizeSteps_of_lt (hp : c.phase = .pad) (ht : c.t = some t) (hl : c.len = some l) (hh : c.h = hs.held)
    (hr : bs.length = l.toNat % 64) (hlt : bs.length < 56) :
    MicroSteps (finalizeCount bs.length) (padding c bs .mark)
      (c.finished ((blocks (bs ++ padTail l)).foldl hashBlock hs)) := by
  have hmark := (padmarkStep hp ht (bs := bs) (by omega)).single
  have hone : (bs ++ [Config.padMark]).length = bs.length + 1 := List.length_append
  have hlast := lastBlockSteps hp ht hl hh (bs := bs ++ [Config.padMark]) (by omega)
  have hbytes : bs ++ [Config.padMark] ++ List.replicate (56 - (bs ++ [Config.padMark]).length) 0 ++ be64Bytes (lenBits l) =
      bs ++ padTail l := by
    rw [padTail, padZeros_of_mod_le (by omega), hone, ← hr]
    simp
  have hlen : (bs ++ padTail l).length = 64 := by
    rw [← hbytes]
    simp [be64Bytes]
    omega
  have hcount : finalizeCount bs.length = 1 + (64 - (bs ++ [Config.padMark]).length + 131) := by
    rw [finalizeCount, if_pos (by omega)]
    omega
  rw [hbytes] at hlast
  rw [hcount, blocks_of_length_eq hlen]
  exact hmark.trans hlast

/-- The last message bytes, the mark and the zero bytes that end their block where the length field goes into the next
one. -/
def markedBlock (bs : List Byte) : List Byte := bs ++ [Config.padMark] ++ List.replicate (63 - bs.length) 0

theorem length_markedBlock (h : bs.length < 64) : (markedBlock bs).length = 64 := by
  simp only [markedBlock, List.length_append, List.length_singleton, List.length_replicate]
  omega

/-- The length field goes into a block of its own with zero bytes. -/
theorem finalizeSteps_of_ge (hp : c.phase = .pad) (ht : c.t = some t) (hl : c.len = some l) (hh : c.h = hs.held)
    (hr : bs.length = l.toNat % 64) (hge : 56 ≤ bs.length) :
    MicroSteps (finalizeCount bs.length) (padding c bs .mark)
      (c.finished ((blocks (bs ++ padTail l)).foldl hashBlock hs)) := by
  have hmark := (padmarkStep hp ht (bs := bs) (by omega)).single
  have hone : (bs ++ [Config.padMark]).length = bs.length + 1 := List.length_append
  have hfirst : (markedBlock bs).length = 64 := length_markedBlock (by omega)
  have hzeros : MicroSteps (63 - bs.length) (padding c (bs ++ [Config.padMark]) .zero) (padding c (markedBlock bs) .zero) :=
    padzeroSteps hp ht fun j hj hj' => by omega
  have hblock := padBlockSteps (ps := .zero) hp ht hh hfirst (by decide) rfl
  have hlast := lastBlockSteps (c := c.blockDone (hashBlock hs (markedBlock bs)) .pad) (bs := []) rfl rfl hl rfl (by decide)
  have hbytes : bs ++ padTail l = markedBlock bs ++ ([] ++ List.replicate 56 0 ++ be64Bytes (lenBits l)) := by
    rw [padTail, padZeros_of_le_mod (by omega), ← hr, show 119 - bs.length = 63 - bs.length + 56 by omega,
      List.replicate_add]
    simp [markedBlock]
  have hcount : finalizeCount bs.length = 1 + (63 - bs.length) + 131 + (64 - 0 + 131) := by
    unfold finalizeCount
    split_ifs <;> omega
  rw [hcount, hbytes, blocks_append _ (by rw [hfirst]), blocks_of_length_eq hfirst, blocks_of_length_eq (by rfl)]
  exact ((hmark.trans hzeros).trans hblock).trans hlast

/-- From FINALIZE with the `r` bytes `bs` in the buffer, the core folds the blocks of `bs` and the padding into the hash
state and stops in `DONE` (R165). -/
theorem finalizeSteps (hp : c.phase = .pad) (ht : c.t = some t) (hl : c.len = some l) (hh : c.h = hs.held)
    (hr : bs.length = l.toNat % 64) :
    MicroSteps (finalizeCount bs.length) (padding c bs .mark)
      (c.finished ((blocks (bs ++ padTail l)).foldl hashBlock hs)) :=
  (Nat.lt_or_ge bs.length 56).elim (finalizeSteps_of_lt hp ht hl hh hr) (finalizeSteps_of_ge hp ht hl hh hr)

end Sys2Proof.Machine

namespace Sys2Proof.Proofs

open Sys2Proof.Machine

/-- Settles O55: the bytes and blocks of R165 one after another; before the last of these micro-operations the core is
busy, so not in `DONE`. -/
theorem finalizationTakesTheStatedSteps : Obligations.FinalizationTakesTheStatedSteps := by
  intro s r l hp hps hn hl hrem ht hh hbuf hr
  obtain ⟨hs, hh⟩ := Option.isSome_iff_exists.1 hh
  obtain ⟨bs, hlen, hbuf⟩ := exists_eq_bufOf hbuf
  have hcells : s.toCells = padding s.toCells bs .mark := by
    have hcnt : s.cnt = some (BitVec.ofNat 7 bs.length) := by rw [hn, hlen, BitVec.ofNat_toNat, BitVec.setWidth_eq]
    rw [padding, ← hbuf, ← hcnt, ← hps]
  have hsteps := finalizeSteps hp ht hl (Oct.values_eq_some.1 hh) (hlen.trans hrem)
  obtain ⟨t, hrun, hdone, hund⟩ := hsteps.run hcells hr
  refine ⟨t, finalizeCount r.toNat, rfl, hlen ▸ hrun, ?_, ?_, ?_, hund.responses, fun j hj => ?_⟩
  · rw [hdone]; rfl
  · rw [hdone]; rfl
  · rw [hdone]; exact hl
  · obtain ⟨b, hb, hbusy⟩ := hsteps.busy_before (hlen ▸ hj)
    obtain ⟨u, hrun, hu, -⟩ := hb.run hcells hr
    refine ⟨u, hrun, fun hdone => ?_⟩
    rw [← hu, ready_of_done hdone] at hbusy
    cases hbusy

end Sys2Proof.Proofs
end

section
/-! Progress (45_engine.md R168): the count of micro-operations that a busy core still makes, and the statement that it is
at most 334. -/

namespace Sys2Proof.Machine

variable {c : Cells} {s s' : State} {p : PadStage} {n : BitVec 7} {t : BitVec 6} {i : Instr}

/-- The micro-operations after FOLD until the core is ready: none, or the 64 bytes and the block that end a padding. -/
def leftAfterBlock (p : PadStage) : Nat := if p = .zero then 195 else 0

/-- The micro-operations left in `PAD` with `n` bytes in the buffer: the bytes still to be written and the blocks they
fill. -/
def leftInPad (p : PadStage) (n : Nat) : Nat :=
  if n = 64 then 131 + leftAfterBlock p
  else if p = .len ∨ n ≤ 55 ∨ n = 56 ∧ p = .zero then 195 - n
  else 390 - n

/-- The micro-operations a core makes until it is ready, by its sequencer cells. That each micro-operation takes one off is
`exec_microOpsLeft`. -/
def Cells.microOpsLeft (c : Cells) : Nat :=
  let p := c.ps.getD .none
  let t := (c.t.getD 0).toNat
  match c.phase with
  | .uninit | .done | .failed => 0
  | .absorb => if c.cnt = some 64 then 131 else 0
  | .pad => leftInPad p (c.cnt.getD 0).toNat
  | .sched => 130 - t + leftAfterBlock p
  | .vinit => 66 + leftAfterBlock p
  | .round => 65 - t + leftAfterBlock p
  | .fold => 1 + leftAfterBlock p

theorem leftAfterBlock_le (p : PadStage) : leftAfterBlock p ≤ 195 := by
  unfold leftAfterBlock
  split <;> omega

/-- The most is left after a FINALIZE with 56 bytes in the buffer (R168). -/
theorem leftInPad_le (p : PadStage) (n : Nat) : leftInPad p n ≤ 334 := by
  have hafter := leftAfterBlock_le p
  unfold leftInPad
  split_ifs <;> omega

theorem microOpsLeft_le (c : Cells) : c.microOpsLeft ≤ 334 := by
  have hafter := leftAfterBlock_le (c.ps.getD .none)
  have hpad := leftInPad_le (c.ps.getD .none) (c.cnt.getD 0).toNat
  unfold Cells.microOpsLeft
  cases c.phase with
  | absorb =>
    dsimp only
    split <;> omega
  | _ =>
    dsimp only
    omega

/-- In `PAD` a byte is one micro-operation, whichever stage it leads to. -/
theorem leftInPad_succ {q : PadStage} {n : Nat} (hlt : n < 64)
    (h : (p = .mark ∨ p = .zero ∧ n ≠ 56) ∧ q = .zero ∨ (p = .zero ∧ n = 56 ∨ p = .len) ∧ q = .len) :
    leftInPad p n = leftInPad q (n + 1) + 1 := by
  unfold leftInPad leftAfterBlock
  rcases h with ⟨rfl | ⟨rfl, hne⟩, rfl⟩ | ⟨⟨rfl, h56⟩ | rfl, rfl⟩
  all_goals
    simp only [reduceCtorEq, and_true, and_false, or_false, false_or, true_or, if_true, if_false]
    split_ifs <;> omega

theorem padByte_microOpsLeft {q : PadStage} (b : Byte) (hphase : s.phase = .pad) (hp : s.ps = some p) (hn : s.cnt = some n)
    (hlt : n.toNat < 64)
    (h : (p = .mark ∨ p = .zero ∧ n.toNat ≠ 56) ∧ q = .zero ∨ (p = .zero ∧ n.toNat = 56 ∨ p = .len) ∧ q = .len) :
    s.microOpsLeft = ({ s.bufWrite n b with ps := some q } : State).microOpsLeft + 1 := by
  have hsucc := leftInPad_succ hlt h
  rw [← toNat_cnt_succ hlt] at hsucc
  simpa [Cells.microOpsLeft, hphase, hp, hn] using hsucc

/-- A pass of one of the two 64-pass loops takes one off. -/
theorem advance_microOpsLeft {next : Phase} (hp : s.ps = some p) (ht : s.t = some t)
    (h : s.phase = .sched ∧ next = .vinit ∨ s.phase = .round ∧ next = .fold) :
    s.microOpsLeft = (s.advance t next).microOpsLeft + 1 := by
  rcases Nat.lt_or_ge t.toNat 63 with hlt | hge
  · have hsucc := toNat_t_succ hlt
    rw [State.advance_of_lt hlt]
    rcases h with ⟨hphase, -⟩ | ⟨hphase, -⟩
    all_goals
      simp only [Cells.microOpsLeft, hphase, hp, ht, Option.getD_some, hsucc]
      omega
  · rw [State.advance_of_last (by omega)]
    rcases h with ⟨hphase, rfl⟩ | ⟨hphase, rfl⟩
    all_goals
      simp only [Cells.microOpsLeft, hphase, hp, ht, Option.getD_some]
      omega

/-- Each micro-operation that a state with the invariants makes takes one off. -/
theorem exec_microOpsLeft (h : Inv s.toCells) (hen : s.enabled = some i) (hx : exec i s = .next s') :
    s.microOpsLeft = s'.microOpsLeft + 1 := by
  obtain ⟨n, l, p, t, hopen, hphase, hsel⟩ := h.of_enabled hen
  obtain ⟨hn, hl, hp, ht, -⟩ := hopen
  cases i with
  | init | update b | finalize | rddigest j => exact hsel.elim
  | blkgoAbsorb =>
    obtain ⟨-, rfl⟩ := execBlkgoAbsorb_cases hx
    obtain ⟨habsorb, rfl⟩ := hsel
    rw [PhaseInv, habsorb] at hphase
    obtain ⟨rfl, -⟩ := hphase
    simp [Cells.microOpsLeft, habsorb, hn, hp, leftAfterBlock]
  | blkgoPad =>
    obtain ⟨-, rfl⟩ := execBlkgoPad_cases hx
    obtain ⟨hpad, rfl⟩ := hsel
    have hleft : leftInPad p 64 = 131 + leftAfterBlock p := if_pos rfl
    simp only [Cells.microOpsLeft, hpad, hn, hp, State.startBlock_phase, State.startBlock_ps, State.startBlock_t,
      Option.getD_some, BitVec.ofNat_eq_ofNat, BitVec.reduceToNat, hleft]
    omega
  | padmark =>
    obtain ⟨-, n', hn', rfl⟩ := execPadmark_cases hx
    cases hn.symm.trans hn'
    obtain ⟨hpad, rfl, hlt⟩ := hsel
    exact padByte_microOpsLeft _ hpad hp hn hlt (.inl ⟨.inl rfl, rfl⟩)
  | padzero =>
    obtain ⟨-, n', hn', rfl⟩ := execPadzero_cases hx
    cases hn.symm.trans hn'
    obtain ⟨hpad, rfl, hlt, hne⟩ := hsel
    have hsame : s.bufWrite n 0 = { s.bufWrite n 0 with ps := some .zero } := by
      rw [← hp]; rfl
    rw [hsame]
    exact padByte_microOpsLeft _ hpad hp hn hlt (.inl ⟨.inr ⟨rfl, fun h => hne (BitVec.eq_of_toNat_eq h)⟩, rfl⟩)
  | padlenFirst =>
    obtain ⟨-, n', l', hn', -, rfl⟩ := execPadlenFirst_cases hx
    cases hn.symm.trans hn'
    obtain ⟨hpad, rfl, rfl⟩ := hsel
    exact padByte_microOpsLeft _ hpad hp hn (by decide) (.inr ⟨.inl ⟨rfl, rfl⟩, rfl⟩)
  | padlenNext =>
    obtain ⟨-, n', l', hn', -, rfl⟩ := execPadlenNext_cases hx
    cases hn.symm.trans hn'
    obtain ⟨hpad, rfl, hlt⟩ := hsel
    exact padByte_microOpsLeft _ hpad hp hn hlt (.inr ⟨.inr rfl, rfl⟩)
  | wload =>
    obtain ⟨-, t', x, ht', -, rfl⟩ := execWload_cases hx
    cases ht.symm.trans ht'
    obtain ⟨hsched, hlt⟩ := hsel
    have hsucc : (t + 1).toNat = t.toNat + 1 := toNat_t_succ (by omega)
    simp only [Cells.microOpsLeft, hsched, hp, ht, Option.getD_some, hsucc]
    omega
  | wexp =>
    obtain ⟨-, t', w16, w15, w7, w2, ht', -, -, -, -, rfl⟩ := execWexp_cases hx
    cases ht.symm.trans ht'
    obtain ⟨hsched, -⟩ := hsel
    exact advance_microOpsLeft (s := { s with w := Store.write s.w t.toNat (expandWord w16 w15 w7 w2) }) hp ht
      (.inl ⟨hsched, rfl⟩)
  | vload =>
    obtain ⟨-, hs, -, rfl⟩ := execVload_cases hx
    have hvinit : s.phase = .vinit := hsel
    simp only [Cells.microOpsLeft, hvinit, hp, Option.getD_some, BitVec.ofNat_eq_ofNat, BitVec.reduceToNat]
    omega
  | round =>
    obtain ⟨-, t', vs, x, ht', -, -, rfl⟩ := execRound_cases hx
    cases ht.symm.trans ht'
    exact advance_microOpsLeft (s := { s with v := (round vs (kAt t) x).held }) hp ht (.inr ⟨hsel, rfl⟩)
  | fold =>
    obtain ⟨-, p', hs, vs, next, hp', -, -, hnext, rfl⟩ := execFold_cases hx
    cases hp.symm.trans hp'
    have hfold : s.phase = .fold := hsel
    cases p <;> cases hnext <;> simp [Cells.microOpsLeft, hfold, hp, leftAfterBlock, leftInPad]

/-- A busy core with the invariants makes a micro-operation, which keeps them and takes one off. -/
theorem exists_step_of_busy (h : Inv s.toCells) (hb : s.ready = false) (hr : NoReset s) :
    ∃ s', step s = .next s' ∧ Inv s'.toCells ∧ NoReset s' ∧ s.microOpsLeft = s'.microOpsLeft + 1 := by
  obtain ⟨i, hen⟩ : ∃ i, s.enabled = some i := Option.ne_none_iff_exists'.1 fun hidle => by
    rw [h.ready_of_idle hidle] at hb
    cases hb
  obtain ⟨s', hx⟩ := exec_answers_of_enabled (s := s.elapse) h hen
  have hstep := (step_of_enabled (resetAsserted_of_noReset hr) hen).trans hx
  obtain ⟨hhost, hpin⟩ := exec_sameInputs hx
  obtain ⟨hlevels, hmoves⟩ := (undisturbed_elapse hr).noReset
  exact ⟨s', hstep, step_inv h hstep, ⟨hpin ▸ hlevels, hhost ▸ hmoves⟩, exec_microOpsLeft (s := s.elapse) h hen hx⟩

/-- A core with the invariants is ready when it has made what was left. -/
theorem exists_run_to_ready (h : Inv s.toCells) (hr : NoReset s) :
    ∃ k t, k ≤ s.microOpsLeft ∧ run k s = .next t ∧ t.ready = true := by
  induction hk : s.microOpsLeft generalizing s with
  | zero =>
    refine ⟨0, s, le_rfl, rfl, ?_⟩
    by_contra hb
    obtain ⟨s', -, -, -, hleft⟩ := exists_step_of_busy h (Bool.eq_false_of_not_eq_true hb) hr
    omega
  | succ m ih =>
    cases hb : s.ready with
    | true => exact ⟨0, s, Nat.zero_le _, rfl, hb⟩
    | false =>
      obtain ⟨s', hstep, hinv, hr', hleft⟩ := exists_step_of_busy h hb hr
      obtain ⟨k, t, hle, hrun, hready⟩ := ih hinv hr' (by omega)
      exact ⟨k + 1, t, by omega, (run_succ_of_step hstep k).trans hrun, hready⟩

end Sys2Proof.Machine

namespace Sys2Proof.Proofs

open Sys2Proof.Machine

/-- Settles O56: each micro-operation takes one off a count that is at most 334, by induction on the count. -/
theorem busyCoreBecomesReady : Obligations.BusyCoreBecomesReady := by
  intro s h _ hr
  obtain ⟨k, t, hle, hrun, hready⟩ := exists_run_to_ready h hr
  exact ⟨k, t, hle.trans (microOpsLeft_le _), hrun, hready⟩

end Sys2Proof.Proofs
end

section
/-! The commands of one message (45_engine.md R166): the blocks of the bytes given, the cells after them, and what each
command of a HASH makes of a ready core. -/

namespace Sys2Proof.Machine

variable {m : List Byte} {a b c : Cells} {hs : Oct Word} {w : CmdWord} {ws ws' : List CmdWord} {d : Byte}
  {ds ds' : List Byte} {n : Nat}

/-! ### The message by its blocks -/

/-- The bytes of a message after its last whole block. -/
def partialBlock (m : List Byte) : List Byte := m.drop (64 * (m.length / 64))

theorem length_partialBlock (m : List Byte) : (partialBlock m).length = m.length % 64 := by
  rw [partialBlock, List.length_drop]
  omega

/-- What follows a message makes blocks with its partial block. -/
theorem blocks_append_partialBlock (m x : List Byte) : blocks (m ++ x) = blocks m ++ blocks (partialBlock m ++ x) := by
  have hwhole : (m.take (64 * (m.length / 64))).length % 64 = 0 := by
    rw [List.length_take]
    omega
  have hm : m.take (64 * (m.length / 64)) ++ partialBlock m = m := List.take_append_drop ..
  have hrest : blocks (partialBlock m) = [] := blocks_of_length_lt (by rw [length_partialBlock]; omega)
  have hblocks := blocks_append (partialBlock m) hwhole
  rw [hm, hrest, List.append_nil] at hblocks
  rw [hblocks, ← blocks_append _ hwhole, ← List.append_assoc, hm]

/-- A byte goes into the partial block, which is empty again where it was the last of a block. -/
theorem partialBlock_append_byte (m : List Byte) (x : Byte) :
    partialBlock (m ++ [x]) = if m.length % 64 = 63 then [] else partialBlock m ++ [x] := by
  have hlen : (m ++ [x]).length = m.length + 1 := List.length_append
  rw [partialBlock, hlen]
  split
  · exact List.drop_of_length_le (by omega)
  · rw [show (m.length + 1) / 64 = m.length / 64 by omega, List.drop_append_of_le_length (by omega), partialBlock]

/-- The hash state after the whole blocks of a message. -/
def foldBlocks (m : List Byte) : Oct Word := (blocks m).foldl hashBlock initialHash

/-- The blocks of a message and what follows it are folded one part after the other. -/
theorem foldBlocks_append (m x : List Byte) :
    foldBlocks (m ++ x) = (blocks (partialBlock m ++ x)).foldl hashBlock (foldBlocks m) := by
  rw [foldBlocks, blocks_append_partialBlock, List.foldl_append, foldBlocks]

/-- The padded message, with its length as the 61-bit count that the core holds. -/
theorem padBytes_eq_append_padTail (h : m.length < 2 ^ 61) : padBytes m = m ++ padTail (BitVec.ofNat 61 m.length) := by
  have hlen : (BitVec.ofNat 61 m.length).toNat = m.length := Nat.mod_eq_of_lt h
  have hbits : lenBits (BitVec.ofNat 61 m.length) = BitVec.ofNat 64 (m.length * 8) := by
    apply BitVec.eq_of_toNat_eq
    rw [toNat_lenBits, hlen, BitVec.toNat_ofNat, Nat.mod_eq_of_lt (by omega)]
  rw [padBytes, padTail, hlen, hbits, List.append_assoc, List.append_assoc, List.singleton_append]

theorem hashState_of_lt (h : m.length < 2 ^ 61) : hashState m = .ok (foldBlocks (padBytes m)) := by
  rw [hashState, pad_of_lt h, foldBlocks]

theorem sha256_of_lt (h : m.length < 2 ^ 61) : sha256 m = .ok (digestBytes (foldBlocks (padBytes m))) := by
  rw [sha256, hashState_of_lt h]

/-! ### The commands on the cells -/

/-- The cells of a ready core after INIT and an UPDATE for each byte of `m`: the invariant of R166. That the commands lead to
them is `serves_init` and `serves_update`. -/
def absorbed (m : List Byte) : Cells where
  h := (foldBlocks m).held
  v := Oct.noValue
  w := Store.invalid
  buf := bufOf (partialBlock m)
  cnt := some (BitVec.ofNat 7 (partialBlock m).length)
  len := some (BitVec.ofNat 61 m.length)
  phase := .absorb
  ps := some .none
  t := some 0

/-- The cells after FINALIZE of the message `m` and the padding: `DONE` with its hash state. -/
def digested (m : List Byte) : Cells := Cells.finished (foldBlocks (padBytes m)) (absorbed m)

/-- A ready core with the cells `a` answers the word `w` with `OK` and the data byte `d` and has then the cells `b`. -/
def AnswersOk (w : CmdWord) (d : Byte) (a b : Cells) : Prop :=
  a.ready = true ∧ ∀ host pin given, acceptWord w ⟨a, host, pin, given⟩ = .next ⟨b, host, pin, rspWord .ok d :: given⟩

/-- The words `ws`, each accepted where the core is ready, are answered `OK` with the data bytes `ds`, and lead from the
cells `a` to the cells `c`. That a host that issues them makes such a run is `Serves.run`. -/
inductive Serves : List CmdWord → List Byte → Cells → Cells → Prop where
  | nil (a : Cells) : Serves [] [] a a
  | cons {w : CmdWord} {ws : List CmdWord} {d : Byte} {ds : List Byte} {n : Nat} {a b c e : Cells}
      (hw : AnswersOk w d a b) (hbusy : MicroSteps n b c) (hs : Serves ws ds c e) : Serves (w :: ws) (d :: ds) a e

theorem Serves.append (h : Serves ws ds a b) (h' : Serves ws' ds' b c) : Serves (ws ++ ws') (ds ++ ds') a c := by
  induction h with
  | nil a => exact h'
  | cons hw hbusy _ ih => exact .cons hw hbusy (ih h')

theorem AnswersOk.serves (hw : AnswersOk w d a b) (hbusy : MicroSteps n b c) : Serves [w] [d] a c :=
  .cons hw hbusy (.nil c)

theorem serves_init (hr : a.ready = true) : Serves [initWord] [0] a (absorbed []) :=
  AnswersOk.serves ⟨hr, fun _ _ _ => execInit_of_ready hr⟩ (.refl _)

theorem ready_absorbed (m : List Byte) : (absorbed m).ready = true := by
  refine ready_of_absorb rfl rfl ?_
  have hlen := length_partialBlock m
  rw [toNat_ofNat_seven (by omega)]
  omega

theorem decodeCmd_updateWord (x : Byte) : decodeCmd (updateWord x) = .ok (.update x) :=
  decodeCmd_eq_ok_iff_encode.2 ⟨rfl, rfl⟩

/-- The cells in which UPDATE has stored its byte. -/
def stored (m : List Byte) (x : Byte) : Cells :=
  { absorbed m with
    buf := bufOf (partialBlock m ++ [x])
    cnt := some (BitVec.ofNat 7 (partialBlock m ++ [x]).length)
    len := some (BitVec.ofNat 61 (m ++ [x]).length) }

theorem answersOk_update (x : Byte) (h : m.length + 1 < 2 ^ 61) :
    AnswersOk (updateWord x) 0 (absorbed m) (stored m x) := by
  refine ⟨ready_absorbed m, fun host pin given => ?_⟩
  have hlen := length_partialBlock m
  have hne : BitVec.ofNat 61 m.length ≠ Config.maxLen := fun hmax => by
    have hval := congrArg BitVec.toNat hmax
    rw [BitVec.toNat_ofNat, Nat.mod_eq_of_lt (by omega)] at hval
    simp [Config.maxLen] at hval
    omega
  rw [acceptWord_of_ok (decodeCmd_updateWord x), exec,
    execUpdate_of_absorb x (ready_absorbed m) rfl rfl rfl hne, State.bufWrite, toNat_ofNat_seven (by omega)]
  simp only [stored, ← write_bufOf, List.length_append, List.length_singleton, BitVec.ofNat_add]
  rfl

/-- The partial block that the byte has filled is compressed at once (42_block_splitter.md R122). -/
theorem storedSteps (m : List Byte) (x : Byte) : ∃ n, MicroSteps n (stored m x) (absorbed (m ++ [x])) := by
  have hlen := length_partialBlock m
  have hone : (partialBlock m ++ [x]).length = m.length % 64 + 1 := by rw [List.length_append, hlen, List.length_singleton]
  have hpartial := partialBlock_append_byte m x
  have hfold := foldBlocks_append m [x]
  by_cases hfull : m.length % 64 = 63
  · have hblock : (partialBlock m ++ [x]).length = 64 := by omega
    have hen : (stored m x).enabled = some .blkgoAbsorb :=
      enabled_of_selectedWhen rfl rfl rfl (by decide) ⟨rfl, by rw [hblock]; rfl⟩
    have hread : ∀ i < 64, (Store.read (stored m x).buf i).isSome = true := fun i hi => by
      rw [stored, read_bufOf, List.getElem?_eq_getElem (by omega)]
      rfl
    have hsteps := blockSteps (.inl hen) rfl rfl rfl hread
    rw [blocks_of_length_eq hblock] at hfold
    rw [show bufBlock (stored m x).buf = partialBlock m ++ [x] from bufBlock_bufOf hblock] at hsteps
    refine ⟨131, ?_⟩
    rw [if_pos hfull] at hpartial
    rw [absorbed, hpartial, hfold]
    exact hsteps
  · refine ⟨0, ?_⟩
    rw [if_neg hfull] at hpartial
    rw [blocks_of_length_lt (by omega)] at hfold
    rw [absorbed, hpartial, hfold]
    exact .refl _

theorem serves_update (x : Byte) (h : m.length + 1 < 2 ^ 61) :
    Serves [updateWord x] [0] (absorbed m) (absorbed (m ++ [x])) := by
  obtain ⟨n, hsteps⟩ := storedSteps m x
  exact (answersOk_update x h).serves hsteps

/-- The bytes of a message, one UPDATE each. -/
theorem serves_updates (m x : List Byte) (h : (m ++ x).length < 2 ^ 61) :
    Serves (x.map updateWord) (List.replicate x.length 0) (absorbed m) (absorbed (m ++ x)) := by
  induction x generalizing m with
  | nil =>
    rw [List.append_nil]
    exact .nil _
  | cons y x ih =>
    have hlen : m.length + (x.length + 1) < 2 ^ 61 := by simpa using h
    have hrest := ih (m ++ [y]) (by simpa using h)
    rw [List.append_assoc, List.singleton_append] at hrest
    exact (serves_update y (by omega)).append hrest

theorem serves_finalize (h : m.length < 2 ^ 61) : Serves [finalizeWord] [0] (absorbed m) (digested m) := by
  have hlen := length_partialBlock m
  have hval : (BitVec.ofNat 61 m.length).toNat = m.length := Nat.mod_eq_of_lt h
  have hw : AnswersOk finalizeWord 0 (absorbed m) (padding { absorbed m with phase := .pad } (partialBlock m) .mark) :=
    ⟨ready_absorbed m, fun _ _ _ => execFinalize_of_absorb (ready_absorbed m) rfl⟩
  have hsteps := finalizeSteps (c := { absorbed m with phase := .pad }) (bs := partialBlock m) rfl rfl rfl rfl (by omega)
  rw [← foldBlocks_append, ← padBytes_eq_append_padTail h] at hsteps
  exact hw.serves hsteps

theorem decodeCmd_rddigestWord (j : BitVec 5) : decodeCmd (rddigestWord j) = .ok (.rddigest (j.setWidth 8)) := by
  revert j
  decide

theorem answersOk_rddigest (hp : c.phase = .done) (hh : c.h = hs.held) (j : BitVec 5) :
    AnswersOk (rddigestWord j) (digestByte hs j) c c := by
  refine ⟨ready_of_done hp, fun host pin given => ?_⟩
  have hj : (j.setWidth 8).toNat < 32 := by
    rw [BitVec.toNat_setWidth, Nat.mod_eq_of_lt (by omega)]
    exact j.isLt
  have hd : digestCell c.h ((j.setWidth 8).setWidth 5) = some (digestByte hs j) := by
    rw [BitVec.setWidth_setWidth_of_le _ (by decide), BitVec.setWidth_eq, hh, digestCell_held]
  rw [acceptWord_of_ok (decodeCmd_rddigestWord j)]
  exact execRddigest_of_done hp hj hd

/-- The 32 indices of DIGEST in order. -/
def digestIndices : List (BitVec 5) := (List.range 32).map (BitVec.ofNat 5)

theorem serves_digest (hp : c.phase = .done) (hh : c.h = hs.held) : Serves digestWords (digestBytes hs) c c := by
  have hall (js : List (BitVec 5)) : Serves (js.map rddigestWord) (js.map (digestByte hs)) c c := by
    induction js with
    | nil => exact .nil c
    | cons j js ih => exact .cons (answersOk_rddigest hp hh j) (.refl c) ih
  exact hall digestIndices

/-- The words of HASH on a ready core: `OK` for INIT, each UPDATE and FINALIZE, then the digest. -/
theorem serves_hash (h : m.length < 2 ^ 61) (hr : a.ready = true) :
    Serves (hashWords m) (List.replicate (m.length + 2) 0 ++ digestBytes (foldBlocks (padBytes m))) a (digested m) := by
  have hdata : List.replicate (m.length + 2) (0 : Byte) = [0] ++ List.replicate m.length 0 ++ [0] := by
    rw [List.replicate_succ', List.replicate_succ, List.singleton_append]
  rw [hdata]
  exact (((serves_init hr).append (serves_updates [] m h)).append (serves_finalize h)).append (serves_digest rfl rfl)

end Sys2Proof.Machine
end

section
/-! A host that issues words one after another (45_engine.md R166, R167, 40_commands.md R96 to R98): the run in which each is
answered `OK`, the reports read from the answers, and the two statements about a whole message. -/

namespace Sys2Proof.Machine

variable {m : List Byte} {a c : Cells} {w : CmdWord} {ws : List CmdWord} {ds : List Byte} {L : List (List CmdWord)}
  {s : State}

/-! ### The run -/

/-- A host with expansions `L` to issue presents the first word there is, with the rest of its expansion. -/
theorem exists_issue_of_flatten (h : L.flatten = w :: ws) :
    ∃ rest L', L.flatMap issueAll = .issue w rest :: L'.flatMap issueAll ∧ (rest :: L').flatten = ws := by
  induction L with
  | nil => cases h
  | cons e L ih =>
    cases e with
    | nil => exact ih h
    | cons v rest =>
      rw [List.flatten_cons, List.cons_append, List.cons.injEq] at h
      obtain ⟨rfl, hrest⟩ := h
      exact ⟨rest, L, rfl, hrest⟩

theorem flatMap_issueAll_of_flatten_nil (h : L.flatten = []) : L.flatMap issueAll = [] :=
  List.flatMap_eq_nil_iff.2 fun e he => by rw [List.flatten_eq_nil_iff.1 h e he]; rfl

/-- A host that has only expansions to issue asserts no reset and is not silent. -/
theorem eq_issue_of_mem {mv : HostMove} (h : mv ∈ L.flatMap issueAll) : ∃ w rest, mv = .issue w rest := by
  obtain ⟨e, -, he⟩ := List.mem_flatMap.1 h
  cases e with
  | nil => cases he
  | cons w rest => exact ⟨w, rest, List.mem_singleton.1 he⟩

theorem noReset_of_issues (hpin : ∀ b ∈ s.resetPin, b = false) (hhost : s.host = L.flatMap issueAll) : NoReset s := by
  refine ⟨hpin, fun h => ?_⟩
  obtain ⟨w, rest, h⟩ := eq_issue_of_mem (hhost ▸ h)
  cases h

theorem host_ne_silent (hhost : s.host = L.flatMap issueAll) (ms : List HostMove) : s.host ≠ .silent :: ms := by
  intro h
  obtain ⟨w, rest, hw⟩ := eq_issue_of_mem (hhost ▸ h ▸ List.mem_cons_self)
  cases hw

/-- The responses that are `OK` with these data bytes, newest first. -/
def okResponses (ds : List Byte) : List RspWord := (ds.map (rspWord .ok)).reverse

/-- The step of an accepted word that is answered `OK`: the host goes on with the next word. -/
theorem AnswersOk.step {b : Cells} {d : Byte} {rest : List CmdWord} (h : AnswersOk w d s.toCells b) (hr : NoReset s)
    (hhost : s.host = .issue w rest :: L.flatMap issueAll) :
    ∃ t, step s = .next t ∧ t.toCells = b ∧ t.host = (rest :: L).flatMap issueAll ∧ t.resetPin = s.resetPin.tail ∧
      t.responses = rspWord .ok d :: s.responses := by
  obtain ⟨hready, haccept⟩ := h
  exact ⟨_, (step_eq_next_of_issue (resetAsserted_of_noReset hr) hready hhost).2 ⟨_, haccept .., rfl⟩,
    State.resumeExpansion_toCells .., State.resumeExpansion_host_of_ok rfl (rspCode_rspWord .ok d),
    State.resumeExpansion_resetPin .., State.resumeExpansion_responses ..⟩

/-- A host that issues the words `ws`, grouped in any expansions, has each of them answered as `Serves` says. -/
theorem Serves.run (h : Serves ws ds a c) (ha : s.toCells = a) (hpin : ∀ b ∈ s.resetPin, b = false)
    (hhost : s.host = L.flatMap issueAll) (hws : L.flatten = ws) :
    ∃ k t, run k s = .next t ∧ t.toCells = c ∧ t.host = [] ∧ t.responses = okResponses ds ++ s.responses := by
  induction h generalizing s L with
  | nil a => exact ⟨0, s, rfl, ha, hhost.trans (flatMap_issueAll_of_flatten_nil hws), rfl⟩
  | @cons w ws d ds n a b c e hw hbusy _ ih =>
    obtain ⟨rest, L', hissue, hrest⟩ := exists_issue_of_flatten hws
    obtain ⟨t, hstep, ht, hthost, htpin, htresp⟩ :=
      AnswersOk.step (ha ▸ hw) (noReset_of_issues hpin hhost) (hhost.trans hissue)
    have htlevels : ∀ b ∈ t.resetPin, b = false := fun b hb => hpin b (List.mem_of_mem_tail (htpin ▸ hb))
    obtain ⟨u, hrun, hu, hund⟩ := hbusy.run ht (noReset_of_issues htlevels hthost)
    have huhost := (hund.host (host_ne_silent hthost)).trans hthost
    obtain ⟨k, v, hrun', hv, hvhost, hvresp⟩ := ih hu hund.noReset.1 huhost hrest
    refine ⟨n + k + 1, v, ?_, hv, hvhost, ?_⟩
    · rw [run_succ_of_step hstep, run_add_of_run hrun, hrun']
    · rw [hvresp, hund.responses, htresp, okResponses, okResponses, List.map_cons, List.reverse_cons, List.append_assoc]
      rfl

/-! ### The reports -/

theorem rspCode_of_mem_okResponses {r : RspWord} (h : r ∈ okResponses ds) : rspCode r = 0 := by
  obtain ⟨d, -, rfl⟩ := List.mem_map.1 (List.mem_reverse.1 h)
  exact rspCode_rspWord .ok d

theorem length_okResponses (ds : List Byte) : (okResponses ds).length = ds.length := by
  rw [okResponses, List.length_reverse, List.length_map]

/-- An expansion of which every command was answered `OK` reports the data bytes. -/
theorem expansionReport_okResponses (ds : List Byte) : expansionReport ds.length (okResponses ds) = .result ds := by
  have hdata : (okResponses ds).reverse.map rspData = ds := by
    rw [okResponses, List.reverse_reverse, List.map_map]
    exact (List.map_congr_left fun d _ => rspData_rspWord .ok d).trans (List.map_id' ds)
  rw [← length_okResponses, expansionReport_of_ok fun r => rspCode_of_mem_okResponses, hdata]

/-- The newest responses are those to the last commands. -/
theorem take_okResponses (xs ds : List Byte) (given : List RspWord) :
    (okResponses (xs ++ ds) ++ given).take ds.length = okResponses ds := by
  rw [okResponses, List.map_append, List.reverse_append, List.append_assoc]
  exact List.take_left' (length_okResponses ds)

theorem length_digestBytes (hs : Oct Word) : (digestBytes hs).length = 32 := by
  rw [digestBytes_eq_ofFn, List.length_ofFn]

/-- DIGEST reports the 32 bytes that answered it. -/
theorem digestResult_okResponses (hs : Oct Word) : digestResult (okResponses (digestBytes hs)) = .result (digestBytes hs) := by
  have hreport := expansionReport_okResponses (digestBytes hs)
  rwa [length_digestBytes] at hreport

/-- HASH reports what follows the answers to INIT, the UPDATEs and FINALIZE. -/
theorem hashResult_okResponses (h : m.length < 2 ^ 61) (hs : Oct Word) :
    hashResult m (okResponses (List.replicate (m.length + 2) 0 ++ digestBytes hs)) = .result (digestBytes hs) := by
  have hreport := expansionReport_okResponses (List.replicate (m.length + 2) 0 ++ digestBytes hs)
  have hcount : (List.replicate (m.length + 2) 0 ++ digestBytes hs).length = (hashWords m).length := by
    simp [length_digestBytes, hashWords, digestWords]
  rw [hcount] at hreport
  rw [hashResult, if_pos h, hreport, Report.map, List.drop_left' List.length_replicate]

theorem answersSince_of_append {t : State} {new : List RspWord} (h : t.responses = new ++ s.responses) :
    answersSince s t = new := by
  rw [answersSince, h, List.length_append, Nat.add_sub_cancel, List.take_left' rfl]

/-- The words of the script of R167 are those of HASH, in other expansions. -/
theorem flatten_chunkWords (chunks : List (List Byte)) :
    ([initWord] :: chunks.map (List.map updateWord) ++ [[finalizeWord], digestWords]).flatten = hashWords chunks.flatten := by
  simp [hashWords, List.map_flatten]

theorem scriptMoves_chunks (chunks : List (List Byte)) :
    scriptMoves ([.init] ++ chunks.map .updates ++ [.finalize, .digest]) =
      ([initWord] :: chunks.map (List.map updateWord) ++ [[finalizeWord], digestWords]).flatMap issueAll := by
  simp [scriptMoves, ScriptLine.issued, ScriptLine.moves, List.flatMap_map]

end Sys2Proof.Machine

namespace Sys2Proof.Proofs

open Sys2Proof.Machine

/-- Settles O57: the words of HASH are answered one after another by a core whose cells follow the message, and the
reports are read from the answers. -/
theorem hashComputesSha256 : Obligations.HashComputesSha256 := by
  intro m s hlt hr hpin hmoves
  have hhost : s.host = [hashWords m].flatMap issueAll := by
    rw [ScriptLine.moves, if_pos hlt, Except.ok.injEq] at hmoves
    rw [← hmoves, List.flatMap_singleton]
  obtain ⟨k, t, hrun, ht, hthost, hresp⟩ := (serves_hash hlt hr).run rfl hpin hhost (List.flatten_singleton ..)
  refine ⟨k, t, _, _, _, hrun, hthost, ?_, hashState_of_lt hlt, ?_, hresp, ?_, fun r => rspCode_of_mem_okResponses,
    sha256_of_lt hlt, answersSince_of_append hresp, hashResult_okResponses hlt _, ?_⟩
  · rw [ht]; rfl
  · rw [ht]; rfl
  · rw [length_okResponses, List.length_append, List.length_replicate, length_digestBytes]
  · have hlast := take_okResponses (List.replicate (m.length + 2) 0) (digestBytes (foldBlocks (padBytes m))) []
    rw [List.append_nil, length_digestBytes] at hlast
    rw [hlast, digestResult_okResponses]

/-- Settles O58: the script issues the words of HASH of the joined chunks, only in other expansions. -/
theorem chunkBoundariesDoNotMatter : Obligations.ChunkBoundariesDoNotMatter := by
  intro chunks hlt
  obtain ⟨k, t, hrun, ht, hthost, hresp⟩ := (serves_hash hlt (a := Cells.reset) rfl).run
    (s := { State.reset with host := scriptMoves ([.init] ++ chunks.map .updates ++ [.finalize, .digest]) }) rfl nofun
    (scriptMoves_chunks chunks) (flatten_chunkWords chunks)
  have hlast := take_okResponses (List.replicate (chunks.flatten.length + 2) 0)
    (digestBytes (foldBlocks (padBytes chunks.flatten))) []
  rw [length_digestBytes] at hlast
  have hresp : t.responses = _ ++ [] := hresp
  refine ⟨k, t, _, hrun, hthost, by rw [ht]; rfl, fun r hr => ?_, sha256_of_lt hlt, ?_⟩
  · rw [hresp, List.append_nil] at hr
    exact rspCode_of_mem_okResponses hr
  · rw [hresp, hlast, digestResult_okResponses]

end Sys2Proof.Proofs
end

section
/-! The functional layer's answer and what HASH issues (45_engine.md R160, R161, 40_commands.md R96), with the statement. -/

namespace Sys2Proof.Machine

variable {m : List Byte}

theorem pad_of_le (h : 2 ^ 61 ≤ m.length) : pad m = .error .lengthOverflow := if_neg (by omega)

theorem sha256_of_le (h : 2 ^ 61 ≤ m.length) : sha256 m = .error .lengthOverflow := by
  rw [sha256, hashState, pad_of_le h]

theorem moves_hash_of_le (h : 2 ^ 61 ≤ m.length) : (ScriptLine.hash m).moves = .error .lengthOverflow := if_neg (by omega)

/-- DIGEST reads the bytes in order. -/
theorem map_decodeCmd_digestWords :
    digestWords.map decodeCmd = (List.range 32).map fun j => .ok (.rddigest (BitVec.ofNat 8 j)) := by
  rw [digestWords, List.map_map]
  refine List.map_congr_left fun j hj => ?_
  have hj := List.mem_range.1 hj
  have hindex : (BitVec.ofNat 5 j).setWidth 8 = BitVec.ofNat 8 j := by
    apply BitVec.eq_of_toNat_eq
    rw [BitVec.toNat_setWidth, BitVec.toNat_ofNat, BitVec.toNat_ofNat, Nat.mod_eq_of_lt (a := j) (by omega)]
  rw [Function.comp_apply, decodeCmd_rddigestWord, hindex]

end Sys2Proof.Machine

namespace Sys2Proof.Proofs

open Sys2Proof.Machine

/-- Settles O10: the length bound decides in the functional layer and at the host alike; below it every word of HASH is
that of its command. -/
theorem digestExistsUnlessLengthOverflows : Obligations.DigestExistsUnlessLengthOverflows := by
  refine fun m => ⟨fun hle => ⟨pad_of_le hle, sha256_of_le hle, moves_hash_of_le hle, ?_, fun given => ?_⟩,
    fun hlt => ⟨⟨_, sha256_of_lt hlt, length_digestBytes _⟩, m.map updateWord ++ [finalizeWord] ++ digestWords,
      if_pos hlt, ?_⟩⟩
  · rw [ScriptLine.issued, moves_hash_of_le hle]
  · rw [hashResult, if_neg (by omega)]
  · rw [List.map_append, List.map_append, List.map_map, map_decodeCmd_digestWords]
    have hupdates : m.map (decodeCmd ∘ updateWord) = m.map fun b => .ok (.update b) :=
      List.map_congr_left fun b _ => decodeCmd_updateWord b
    rw [hupdates]
    rfl

end Sys2Proof.Proofs
end

section
/-! One step of the sequencer (45_engine.md R162, R163): what each instruction does to `PHASE`, what a step is by what is
enabled and presented, and the two statements. -/

namespace Sys2Proof.Machine

variable {s t : State} {i : Instr} {w : CmdWord} {rest : List CmdWord} {ms : List HostMove}

/-! ### The phase (R162) -/

/-- The phase stays, in a phase that a micro-operation may leave as it is. -/
def PhaseStays (s t : State) : Prop := t.phase = s.phase ∧ s.phase ≠ .vinit ∧ s.phase ≠ .fold

/-- The rows of R162 whose cause is a micro-operation. -/
def MicroOpRow (s t : State) : Prop :=
  ((s.phase = .absorb ∨ s.phase = .pad) ∧ t.phase = .sched ∧ s.cnt = some 64) ∨
  (s.phase = .sched ∧ t.phase = .vinit ∧ s.t = some 63) ∨
  (s.phase = .vinit ∧ t.phase = .round) ∨
  (s.phase = .round ∧ t.phase = .fold ∧ s.t = some 63) ∨
  (s.phase = .fold ∧ t.phase = .absorb ∧ s.ps = some .none) ∨
  (s.phase = .fold ∧ t.phase = .pad ∧ s.ps = some .zero) ∨
  (s.phase = .fold ∧ t.phase = .done ∧ s.ps = some .len)

/-- The rows of R162 whose cause is a command that the word `w` decodes to. -/
def CommandRow (w : CmdWord) (s t : State) : Prop :=
  (t.phase = .absorb ∧ w = 0x100) ∨
  (s.phase = .absorb ∧ t.phase = .failed ∧ s.len = some 0x1fffffffffffffff ∧ ∃ b, decodeCmd w = .ok (.update b)) ∨
  (s.phase = .absorb ∧ t.phase = .pad ∧ w = 0x300)

/-- A pass of a loop leaves the phase, or is the last one. -/
theorem advance_phase_cases {k : BitVec 6} {next : Phase} (ht : s.t = some k) :
    (s.advance k next).phase = s.phase ∨ (s.advance k next).phase = next ∧ s.t = some 63 := by
  rcases Nat.lt_or_ge k.toNat 63 with hlt | hge
  · rw [State.advance_of_lt hlt]
    exact .inl rfl
  · have hlast : k = 63 := BitVec.eq_of_toNat_eq (show k.toNat = 63 by omega)
    rw [State.advance_of_last (by rw [hlast]; rfl), ht, hlast]
    exact .inr ⟨rfl, rfl⟩

/-- What a micro-operation does to the phase. -/
theorem exec_microOp_phase (hi : i.isCommand = false) (hx : exec i s = .next t) : PhaseStays s t ∨ MicroOpRow s t := by
  obtain ⟨hen, -, -, -, -, -, -, -, -, -, -, -, hkept⟩ := Proofs.microOpsLeaveTheRestAlone i s t hi hx
  obtain ⟨p, n, k, hps, hn, hk, hsel⟩ := selectedWhen_of_enabled hen
  cases i with
  | init | update b | finalize | rddigest j => cases hi
  | blkgoAbsorb =>
    obtain ⟨-, rfl⟩ := execBlkgoAbsorb_cases hx
    obtain ⟨hp, rfl⟩ := hsel
    exact .inr (.inl ⟨.inl hp, rfl, hn⟩)
  | blkgoPad =>
    obtain ⟨-, rfl⟩ := execBlkgoPad_cases hx
    obtain ⟨hp, rfl⟩ := hsel
    exact .inr (.inl ⟨.inr hp, rfl, hn⟩)
  | padmark | padzero | padlenFirst | padlenNext | wload =>
    obtain ⟨hp, -⟩ := hsel
    exact .inl ⟨hkept (by simp), by simp [hp]⟩
  | wexp =>
    obtain ⟨-, k', w16, w15, w7, w2, hk', -, -, -, -, rfl⟩ := execWexp_cases hx
    obtain ⟨hp, -⟩ := hsel
    rcases advance_phase_cases (s := { s with w := Store.write s.w k'.toNat (expandWord w16 w15 w7 w2) }) (next := .vinit)
      hk' with hstays | ⟨hnext, hlast⟩
    · exact .inl ⟨hstays, by simp [hp]⟩
    · exact .inr (.inr (.inl ⟨hp, hnext, hlast⟩))
  | vload =>
    obtain ⟨-, _, -, rfl⟩ := execVload_cases hx
    exact .inr (.inr (.inr (.inl ⟨hsel, rfl⟩)))
  | round =>
    obtain ⟨-, k', vs, x, hk', -, -, rfl⟩ := execRound_cases hx
    have hp : s.phase = .round := hsel
    rcases advance_phase_cases (s := { s with v := (round vs (kAt k') x).held }) (next := .fold)
      hk' with hstays | ⟨hnext, hlast⟩
    · exact .inl ⟨hstays, by simp [hp]⟩
    · exact .inr (.inr (.inr (.inr (.inl ⟨hp, hnext, hlast⟩))))
  | fold =>
    obtain ⟨-, p', hs, vs, next, hps', -, -, hnext, rfl⟩ := execFold_cases hx
    have hp : s.phase = .fold := hsel
    refine .inr (.inr (.inr (.inr (.inr ?_))))
    cases p' with
    | none => cases hnext; exact .inl ⟨hp, rfl, hps'⟩
    | zero => cases hnext; exact .inr (.inl ⟨hp, rfl, hps'⟩)
    | len => cases hnext; exact .inr (.inr ⟨hp, rfl, hps'⟩)
    | mark => cases hnext

/-- No ready phase is one that a micro-operation leaves at once. -/
theorem PhaseStays.of_ready (hr : s.ready = true) (h : t.phase = s.phase) : PhaseStays s t := by
  refine ⟨h, fun hp => ?_, fun hp => ?_⟩ <;> simp [Cells.ready, hp] at hr

/-- What an accepted word does to the phase. -/
theorem acceptWord_phase (hr : s.ready = true) (hw : acceptWord w s = .next t) : PhaseStays s t ∨ CommandRow w s t := by
  rcases acceptWord_cases hw with ⟨i, hdec, hx⟩ | ⟨e, -, rfl⟩
  · have hnum := decodeCmd_eq_ok_iff.1 hdec
    cases i with
    | init =>
      cases (execInit_of_ready hr).symm.trans hx
      exact .inr (.inl ⟨rfl, BitVec.eq_of_toNat_eq hnum⟩)
    | update b =>
      rcases execUpdate_cases hx with ⟨-, rfl⟩ | ⟨-, -, rfl⟩ | ⟨-, hp, hmax, rfl⟩ | ⟨-, -, n, l, -, -, -, rfl⟩
      · exact .inl (.of_ready hr rfl)
      · exact .inl (.of_ready hr rfl)
      · exact .inr (.inr (.inl ⟨hp, rfl, hmax, b, hdec⟩))
      · exact .inl (.of_ready hr rfl)
    | finalize =>
      rcases execFinalize_cases hx with ⟨-, rfl⟩ | ⟨-, -, rfl⟩ | ⟨-, hp, rfl⟩
      · exact .inl (.of_ready hr rfl)
      · exact .inl (.of_ready hr rfl)
      · exact .inr (.inr (.inr ⟨hp, rfl, BitVec.eq_of_toNat_eq hnum⟩))
    | rddigest j => exact .inl (.of_ready hr (congrArg Cells.phase (execRddigest_toCells hx)))
    | _ => exact hnum.elim
  · exact .inl (.of_ready hr rfl)

/-! ### What a step is (R163) -/

/-- Where reset is not asserted a ready core makes the port's step. -/
theorem step_eq_portStep (hrst : s.resetAsserted = false) (hr : s.ready = true) : step s = portStep s := by
  simp [step, hrst, enabled_eq_none_of_ready hr, hr]

/-- The step stops with the fault that the evaluation of the presented word stops with. -/
theorem step_of_issue_fault {f : Fault} (hrst : s.resetAsserted = false) (hr : s.ready = true)
    (hhost : s.host = .issue w rest :: ms)
    (hw : acceptWord w { s with host := ms, resetPin := s.resetPin.tail } = .fault f) : step s = .fault f := by
  rw [step_eq_portStep hrst hr, portStep]
  simp only [hhost, hw]

theorem step_of_issue_refused {r : Refusal} (hrst : s.resetAsserted = false) (hr : s.ready = true)
    (hhost : s.host = .issue w rest :: ms)
    (hw : acceptWord w { s with host := ms, resetPin := s.resetPin.tail } = .refused r) : step s = .refused r := by
  rw [step_eq_portStep hrst hr, portStep]
  simp only [hhost, hw]

/-- A silent host, or one without moves, leaves everything but the inputs. -/
theorem portStep_of_silence (h : s.host = [] ∨ ∃ ms, s.host = .silent :: ms) :
    portStep s = .next { s with host := s.host.tail, resetPin := s.resetPin.tail } := by
  rw [portStep]
  rcases h with h | ⟨ms, h⟩ <;> simp only [h, List.tail_cons, List.tail_nil]

/-- The enabled micro-operation is the one that the sequencer vector decodes to (30_encoding.md R82). -/
theorem exists_seqVec_of_enabled {c : Cells} (h : c.enabled = some i) : ∃ v, c.seqVec = some v ∧ decodeSV v = .ok i := by
  obtain ⟨p, n, t, hp, hn, ht, hsel⟩ := selectedWhen_of_enabled h
  exact ⟨packSV c.phase p n t, by simp only [Cells.seqVec, hp, hn, ht], decodeSV_packSV_iff.2 hsel⟩

end Sys2Proof.Machine

namespace Sys2Proof.Proofs

open Sys2Proof.Machine

/-- Settles O45: a step runs the enabled micro-operation, or accepts a word, or leaves the cells. -/
theorem phaseChangesOnlyAsTabled : Obligations.PhaseChangesOnlyAsTabled := by
  intro s t hrst hstep
  rcases step_cases hstep with ⟨hreset, -⟩ | ⟨-, i, hen, hx⟩ | ⟨-, -, hr, hport⟩
  · cases hrst.symm.trans hreset
  · rcases exec_microOp_phase (isCommand_of_enabled hen) hx with hstays | hrow
    · exact .inl hstays
    · exact .inr (.inr (.inr (.inr hrow)))
  · rcases portStep_cases hport with ⟨w, rest, ms, u, hhost, hw, rfl⟩ | ⟨ms, -, rfl⟩ | ⟨ms, hhost, -⟩ | ⟨-, rfl⟩
    · have hphase : (u.resumeExpansion rest).phase = u.phase := congrArg Cells.phase (State.resumeExpansion_toCells rest u)
      rw [hphase]
      rcases acceptWord_phase (s := { s with host := ms, resetPin := s.resetPin.tail }) hr hw with
        hstays | ⟨hp, rfl⟩ | ⟨hp, hp', hmax, b, hdec⟩ | ⟨hp, hp', rfl⟩
      · exact .inl hstays
      · exact .inr (.inl ⟨hr, hp, rest, ms, hhost⟩)
      · exact .inr (.inr (.inl ⟨hp, hp', hmax, w, b, rest, ms, hhost, hdec⟩))
      · exact .inr (.inr (.inr (.inl ⟨hp, hp', hr, rest, ms, hhost⟩)))
    · exact .inl (PhaseStays.of_ready hr rfl)
    · simp [State.resetAsserted, hhost] at hrst
    · exact .inl (PhaseStays.of_ready hr rfl)

/-- Settles O43: by the three branches of a step without reset. -/
theorem stepRunsTheDecodedInstruction : Obligations.StepRunsTheDecodedInstruction := by
  refine ⟨fun s i hrst hen => ⟨step_of_enabled hrst hen, rfl, rfl, exists_seqVec_of_enabled hen⟩,
    fun s p w rest ms hrst hen hr hhost hp => ?_, fun s hrst hen hr hhost => ?_⟩
  · subst hp
    refine ⟨fun t hw => (step_eq_next_of_issue hrst hr hhost).2 ⟨t, hw, rfl⟩, fun f => step_of_issue_fault hrst hr hhost,
      fun r => step_of_issue_refused hrst hr hhost, fun i hi => acceptWord_of_ok hi _, fun e he => ?_⟩
    have hw := acceptWord_of_error he { s with host := ms, resetPin := s.resetPin.tail }
    exact ⟨_, (step_eq_next_of_issue hrst hr hhost).2 ⟨_, hw, rfl⟩, State.resumeExpansion_toCells ..,
      State.resumeExpansion_responses .., State.resumeExpansion_host_of_error rfl (by decide)⟩
  · exact ⟨_, (step_eq_portStep hrst hr).trans (portStep_of_silence hhost), rfl, rfl, rfl⟩

end Sys2Proof.Proofs
end

section
/-! The DigestCodec (46_digest_codec.md R180 to R183): the digest's bytes by their word and their place in it, the state
put together again, the hexadecimal characters by place, and the two statements. -/

namespace Sys2Proof.Machine

/-! ### The digest (R180, R181, R183) -/

/-- Word `k` of the recovered state is made of the four bytes of word `k` of the state. -/
theorem hashOfDigest_digestBytes_eq_map (hs : Oct Word) :
    hashOfDigest (digestBytes hs) = hs.map fun x => be32 (byteOf 0 x) (byteOf 1 x) (byteOf 2 x) (byteOf 3 x) := rfl

@[simp] theorem hashOfDigest_digestBytes (hs : Oct Word) : hashOfDigest (digestBytes hs) = hs :=
  (hashOfDigest_digestBytes_eq_map hs).trans (congrArg hs.map (funext be32_byteOf))

theorem digestBytes_injective : Function.Injective digestBytes :=
  Function.LeftInverse.injective hashOfDigest_digestBytes

/-- The byte index within a word is `j mod 4`. -/
theorem toNat_digestByteIndex (j : BitVec 5) : (j.extractLsb' 0 2).toNat = j.toNat % 4 := by
  rw [BitVec.extractLsb'_toNat, Nat.shiftRight_zero]

/-- The word index is `j div 4`. -/
theorem val_digestWordIndex (j : BitVec 5) : (j.extractLsb' 2 3).toFin.val = j.toNat / 4 := by
  have hj : (j.setWidth 8).toNat = j.toNat := by
    rw [BitVec.toNat_setWidth, Nat.mod_eq_of_lt (by omega)]
  have hword := digestWordIndex_val (j := j.setWidth 8) (by omega)
  rwa [BitVec.setWidth_setWidth_of_le _ (by decide), BitVec.setWidth_eq, hj] at hword

/-- A digest byte as bits of its word. -/
theorem exists_word_of_digestByte (hs : Oct Word) (j : BitVec 5) : ∃ x, hs.toList[j.toNat / 4]? = some x ∧
    (digestByte hs j).toNat = x.toNat / 2 ^ (24 - 8 * (j.toNat % 4)) % 2 ^ 8 := by
  refine ⟨hs.get (j.extractLsb' 2 3).toFin, ?_, ?_⟩
  · rw [← val_digestWordIndex, Oct.toList_getElem?]
  · rw [digestByte, toNat_byteOf, toNat_digestByteIndex]

/-! ### The hexadecimal rendering (R182) -/

theorem hex_cons (b : Byte) (d : List Byte) :
    hex (b :: d) = hexDigit (b.extractLsb' 4 4) :: hexDigit (b.extractLsb' 0 4) :: hex d := rfl

theorem length_hex (d : List Byte) : (hex d).length = 2 * d.length := by
  induction d with
  | nil => rfl
  | cons b d ih => rw [hex_cons, List.length_cons, List.length_cons, List.length_cons, ih, Nat.mul_succ]

/-- The two characters of byte `j` stand at `2j` and `2j + 1`. -/
theorem getElem?_hex {d : List Byte} {j : Nat} {b : Byte} (h : d[j]? = some b) :
    (hex d)[2 * j]? = some (hexDigit (b.extractLsb' 4 4)) ∧ (hex d)[2 * j + 1]? = some (hexDigit (b.extractLsb' 0 4)) := by
  induction d generalizing j with
  | nil => cases h
  | cons x d ih =>
    rw [hex_cons]
    cases j with
    | zero =>
      cases h
      exact ⟨rfl, rfl⟩
    | succ j => exact ih (j := j) h

theorem toNat_hexDigit_of_le {n : BitVec 4} (h : n.toNat ≤ 9) : (hexDigit n).toNat = '0'.toNat + n.toNat := by
  revert n
  decide

theorem toNat_hexDigit_of_ge {n : BitVec 4} (h : 10 ≤ n.toNat) : (hexDigit n).toNat = 'a'.toNat + (n.toNat - 10) := by
  revert n
  decide

end Sys2Proof.Machine

namespace Sys2Proof.Proofs

open Sys2Proof.Machine

/-- Settles O13: the state is recovered from its digest, so the digest decides it; a byte by its word and its place. -/
theorem digestBytesAreTheStateBigEndian : Obligations.DigestBytesAreTheStateBigEndian :=
  ⟨fun hs => ⟨length_digestBytes hs, hashOfDigest_digestBytes hs⟩, fun _ _ heq => digestBytes_injective heq,
    fun hs j => ⟨getElem?_digestBytes hs j, exists_word_of_digestByte hs j⟩, fun _ => ⟨rfl, rfl, rfl, rfl⟩⟩

/-- Settles O14: the rendering grows by two characters with each byte. -/
theorem hexIsTwoLowercaseDigitsPerByte : Obligations.HexIsTwoLowercaseDigitsPerByte := by
  refine ⟨fun d => ⟨length_hex d, fun j hj => ?_⟩, fun n => ⟨toNat_hexDigit_of_le, toNat_hexDigit_of_ge⟩, rfl, rfl⟩
  have hb : d[j]? = some d[j] := List.getElem?_eq_getElem hj
  obtain ⟨hhigh, hlow⟩ := getElem?_hex hb
  exact ⟨_, _, _, hb, hhigh, hlow, rfl, rfl⟩

end Sys2Proof.Proofs
end

section
/-! The digest in `DONE` (46_digest_codec.md R184): only INIT changes a cell there, which response carries data, and the
statement. -/

namespace Sys2Proof.Machine

variable {s t : State} {w : CmdWord} {r : RspWord}

/-- In `DONE` every word but that of INIT leaves the cells: UPDATE and FINALIZE are out of sequence, RDDIGEST reads. -/
theorem acceptWord_toCells_of_done (hp : s.phase = .done) (hne : w ≠ 0x100) (hw : acceptWord w s = .next t) :
    t.toCells = s.toCells := by
  have habsorb : s.phase ≠ .absorb := by rw [hp]; decide
  rcases acceptWord_cases hw with ⟨i, hdec, hx⟩ | ⟨-, -, rfl⟩
  · have hnum := decodeCmd_eq_ok_iff.1 hdec
    cases i with
    | init =>
      have hword : w.toNat = (0x100 : CmdWord).toNat := hnum
      exact absurd (BitVec.eq_of_toNat_eq hword) hne
    | update b =>
      rcases execUpdate_cases hx with ⟨-, rfl⟩ | ⟨-, -, rfl⟩ | ⟨-, habs, -⟩ | ⟨-, habs, -⟩
      · rfl
      · rfl
      · exact absurd habs habsorb
      · exact absurd habs habsorb
    | finalize =>
      rcases execFinalize_cases hx with ⟨-, rfl⟩ | ⟨-, -, rfl⟩ | ⟨-, habs, -⟩
      · rfl
      · rfl
      · exact absurd habs habsorb
    | rddigest j => exact execRddigest_toCells hx
    | _ => exact hnum.elim
  · rfl

/-- A response of an accepted word that carries data is a read of the digest in `DONE`. -/
theorem acceptWord_of_data (hr : s.ready = true) (hw : acceptWord w s = .next t) (hresp : t.responses = r :: s.responses)
    (hdata : rspData r ≠ 0) : s.phase = .done ∧ t.toCells = s.toCells := by
  obtain ⟨r', hresp', ⟨hzero, -⟩ | ⟨j, d, hdec, hp, -, -⟩⟩ := acceptWord_response hr hw
  · cases hresp.symm.trans hresp'
    exact absurd hzero hdata
  · exact ⟨hp, execRddigest_toCells ((acceptWord_of_ok hdec s).symm.trans hw)⟩

/-- A step that gives a response is the evaluation of a word that a ready core accepts. -/
theorem exists_acceptWord_of_response (hstep : step s = .next t) (hresp : t.responses = r :: s.responses) :
    s.ready = true ∧ ∃ w rest ms u, s.host = .issue w rest :: ms ∧
      acceptWord w { s with host := ms, resetPin := s.resetPin.tail } = .next u ∧ t = u.resumeExpansion rest := by
  rcases step_cases hstep with ⟨-, rfl⟩ | ⟨-, i, hen, hx⟩ | ⟨-, -, hr, hport⟩
  · exact absurd hresp.symm (List.cons_ne_self _ _)
  · obtain ⟨-, hkept, -⟩ := Proofs.microOpsLeaveTheRestAlone i s.elapse t (isCommand_of_enabled hen) hx
    exact absurd (hresp.symm.trans hkept) (List.cons_ne_self _ _)
  · rcases portStep_cases hport with hissue | ⟨ms, -, rfl⟩ | ⟨ms, -, rfl⟩ | ⟨-, rfl⟩
    · exact ⟨hr, hissue⟩
    all_goals exact absurd hresp.symm (List.cons_ne_self _ _)

/-- A step without reset in `DONE` leaves the cells unless it accepts INIT. -/
theorem step_toCells_of_done (hp : s.phase = .done) (hrst : s.resetAsserted = false)
    (hinit : ∀ rest ms, s.host ≠ .issue 0x100 rest :: ms) (hstep : step s = .next t) : t.toCells = s.toCells := by
  rw [step_eq_portStep hrst (ready_of_done hp)] at hstep
  rcases portStep_cases hstep with ⟨w, rest, ms, u, hhost, hw, rfl⟩ | ⟨ms, -, rfl⟩ | ⟨ms, hhost, -⟩ | ⟨-, rfl⟩
  · rw [State.resumeExpansion_toCells]
    exact acceptWord_toCells_of_done (s := { s with host := ms, resetPin := s.resetPin.tail }) hp
      (fun h => hinit rest ms (h ▸ hhost)) hw
  · rfl
  · simp [State.resetAsserted, hhost] at hrst
  · rfl

end Sys2Proof.Machine

namespace Sys2Proof.Proofs

open Sys2Proof.Machine

/-- Settles O47: in `DONE` only INIT or reset writes; a response is that of an accepted word, and carries data only where
the word reads the digest. -/
theorem digestStaysUntilInitOrReset : Obligations.DigestStaysUntilInitOrReset := by
  refine ⟨fun s t hp hstep hrst hinit => step_toCells_of_done hp hrst hinit hstep, fun s t r hstep hresp hdata => ?_⟩
  obtain ⟨hr, w, rest, ms, u, -, hw, rfl⟩ := exists_acceptWord_of_response hstep hresp
  rw [State.resumeExpansion_responses] at hresp
  rw [State.resumeExpansion_toCells]
  exact acceptWord_of_data (s := { s with host := ms, resetPin := s.resetPin.tail }) hr hw hresp hdata

end Sys2Proof.Proofs
end

section
/-! Reset, LENGTH_OVERFLOW and the phase FAILED (70_reset_and_hazards.md R210, R211, 60_exceptions.md R191, R197, R198):
when reset is asserted, which instruction overflows, what `FAILED` answers, and the three statements. -/

namespace Sys2Proof.Machine

variable {s t : State} {w : CmdWord} {i : Instr}

/-- Reset is asserted by the reset input or by the host's line `RESET` (30_encoding.md R85). -/
theorem State.resetAsserted_iff (s : State) :
    s.resetAsserted = true ↔ s.resetPin.head? = some true ∨ s.host.head? = some .reset := by
  cases hpin : s.resetPin <;> simp [State.resetAsserted, hpin]

/-- An asserted reset is the step, whatever the core would do and the host presents (R211). -/
theorem step_of_resetAsserted (hrst : s.resetAsserted = true) : step s = .next s.takeReset := if_pos hrst

/-- At the length bound UPDATE abandons the message and stores nothing. -/
theorem execUpdate_of_bound (b : Byte) (hr : s.ready = true) (hp : s.phase = .absorb) (hl : s.len = some Config.maxLen) :
    execUpdate b s = .next ({ s with phase := .failed }.answerError .lengthOverflow) := by
  obtain ⟨n, hn, -⟩ := cnt_of_ready_absorb hr hp
  rw [execUpdate, whenReady_of hr, inPhase_of hp, appendByte, hn, need_some, hl, need_some, if_pos rfl]

/-- The code field tells LENGTH_OVERFLOW from the other codes (30_encoding.md R81). -/
theorem eq_lengthOverflow_of_rspCode {c : RspCode} {d : Byte}
    (h : rspCode (rspWord c d) = RspCode.lengthOverflow.bits) : c = .lengthOverflow := by
  rw [rspCode_rspWord] at h
  cases c with
  | lengthOverflow => rfl
  | _ => cases h

/-- The code LENGTH_OVERFLOW is that of an UPDATE at the length bound alone. -/
theorem update_at_bound_of_rspCode {p : Phase} {atBound : Prop} [Decidable atBound] {h : Oct (Option Word)}
    (hcode : rspCode (commandResponse i p atBound h) = RspCode.lengthOverflow.bits) :
    (∃ b, i = .update b) ∧ p = .absorb ∧ atBound := by
  cases i with
  | update b =>
    simp only [commandResponse] at hcode
    split_ifs at hcode with hp hmax
    · exact ⟨⟨b, rfl⟩, hp, hmax⟩
    all_goals cases eq_lengthOverflow_of_rspCode hcode
  | finalize | rddigest j =>
    simp only [commandResponse] at hcode
    split_ifs at hcode <;> cases eq_lengthOverflow_of_rspCode hcode
  | _ =>
    simp only [commandResponse] at hcode
    cases eq_lengthOverflow_of_rspCode hcode

/-- An instruction that adds a response is a command of a ready core. -/
theorem isCommand_and_ready_of_response {r : RspWord} (hx : exec i s = .next t) (hresp : t.responses = r :: s.responses) :
    i.isCommand = true ∧ s.ready = true := by
  have hnew : t.responses ≠ s.responses := hresp ▸ List.cons_ne_self r _
  cases hi : i.isCommand with
  | false =>
    obtain ⟨-, hkept, -⟩ := Proofs.microOpsLeaveTheRestAlone i s t hi hx
    exact absurd hkept hnew
  | true =>
    refine ⟨rfl, Bool.eq_true_of_not_eq_false fun hb => hnew ?_⟩
    cases (exec_of_busy hi hb).symm.trans hx
    rfl

theorem ready_of_failed {c : Cells} (hp : c.phase = .failed) : c.ready = true := (ready_iff c).2 (.inr (.inr (.inl hp)))

/-- In `FAILED` every legal word but INIT is out of sequence (60_exceptions.md R198). -/
theorem acceptWord_of_failed (hp : s.phase = .failed) (hdec : decodeCmd w = .ok i) (hi : i ≠ .init) :
    acceptWord w s = .next (s.answerError .sequence) := by
  have hr := ready_of_failed hp
  have habsorb : s.phase ≠ .absorb := by rw [hp]; decide
  have hdone : s.phase ≠ .done := by rw [hp]; decide
  have hnum := decodeCmd_eq_ok_iff.1 hdec
  rw [acceptWord_of_ok hdec]
  cases i with
  | init => exact absurd rfl hi
  | update b | finalize => exact (whenReady_of hr).trans (inPhase_of_ne habsorb)
  | rddigest j =>
    obtain ⟨hj, -⟩ := hnum
    exact execRddigest_of_phase_ne hr hj hdone
  | _ => exact hnum.elim

/-- In `FAILED` every word but that of INIT is refused, by its legality (60_exceptions.md R198, R193). -/
theorem acceptWord_refused_of_failed (hp : s.phase = .failed) (hne : w ≠ 0x100) :
    (∃ i, decodeCmd w = .ok i ∧ acceptWord w s = .next (s.answerError .sequence)) ∨
    (∃ e, decodeCmd w = .error e ∧ acceptWord w s = .next (s.answerError .illegal)) := by
  cases hdec : decodeCmd w with
  | error e => exact .inr ⟨e, rfl, acceptWord_of_error hdec s⟩
  | ok i =>
    refine .inl ⟨i, rfl, acceptWord_of_failed hp hdec ?_⟩
    rintro rfl
    exact hne (BitVec.eq_of_toNat_eq (decodeCmd_eq_ok_iff.1 hdec))

/-- A step of a ready core that changes a cell is the evaluation of an accepted word that does, unless reset is
asserted. -/
theorem exists_acceptWord_of_toCells_ne (hr : s.ready = true) (hrst : s.resetAsserted = false) (hstep : step s = .next t)
    (hne : t.toCells ≠ s.toCells) :
    ∃ w rest ms u, s.host = .issue w rest :: ms ∧
      acceptWord w { s with host := ms, resetPin := s.resetPin.tail } = .next u ∧ u.toCells ≠ s.toCells := by
  rw [step_eq_portStep hrst hr] at hstep
  rcases portStep_cases hstep with ⟨w, rest, ms, u, hhost, hw, rfl⟩ | ⟨ms, -, rfl⟩ | ⟨ms, hhost, -⟩ | ⟨-, rfl⟩
  · rw [State.resumeExpansion_toCells] at hne
    exact ⟨w, rest, ms, u, hhost, hw, hne⟩
  · exact absurd rfl hne
  · simp [State.resetAsserted, hhost] at hrst
  · exact absurd rfl hne

end Sys2Proof.Machine

namespace Sys2Proof.Proofs

open Sys2Proof.Machine

/-- Settles O24: the step is the reset, before anything else is looked at. -/
theorem resetClearsEverythingAndWins : Obligations.ResetClearsEverythingAndWins := by
  intro s hrst
  exact ⟨_, step_of_resetAsserted (s.resetAsserted_iff.2 hrst), rfl, rfl, rfl, rfl,
    fun i => ⟨Store.read_nil i, Store.read_nil i⟩, rfl, rfl, rfl, rfl,
    status_eq (r := true) (p := .uninit) rfl rfl, rfl, rfl, rfl, fun w rest ms hhost => congrArg List.tail hhost⟩

/-- Settles O27: UPDATE at the bound writes the phase alone; a response comes from a ready core's command, and its code
says which. -/
theorem updateBeyondBoundFails : Obligations.UpdateBeyondBoundFails := by
  refine ⟨fun s b n hp hn hlt hl => ?_, fun i s t r hx hresp hcode => ?_⟩
  · have hr := ready_of_absorb hp hn hlt
    exact ⟨status_eq hp hr, _, execUpdate_of_bound b hr hp hl, rfl, rfl, ⟨rfl, rfl⟩,
      status_eq (r := true) (p := .failed) rfl rfl⟩
  · obtain ⟨hi, hr⟩ := isCommand_and_ready_of_response hx hresp
    obtain rfl := (List.cons.inj (hresp.symm.trans (exec_responses hi hr hx))).1
    obtain ⟨⟨b, rfl⟩, hp, hmax⟩ := update_at_bound_of_rspCode hcode
    cases (execUpdate_of_bound b hr hp hmax).symm.trans hx
    exact ⟨⟨b, rfl⟩, hp, hmax, rfl⟩

/-- Settles O46: every word but INIT is refused, so a step without reset that changes a cell has accepted INIT. -/
theorem failedIsLeftOnlyByInitOrReset : Obligations.FailedIsLeftOnlyByInitOrReset := by
  refine ⟨fun s w hp => ⟨?_, fun hne => ?_⟩, fun s t hp hstep hne => ?_⟩
  · rintro rfl
    exact ⟨_, execInit_of_ready (ready_of_failed hp), rfl, rfl, rfl, rfl, rfl⟩
  · rcases acceptWord_refused_of_failed hp hne with ⟨i, hdec, hw⟩ | ⟨e, hdec, hw⟩
    · exact ⟨_, _, hw, rfl, rfl, fun _ => rfl, fun ⟨_, herr⟩ => nomatch hdec.symm.trans herr⟩
    · exact ⟨_, _, hw, rfl, rfl, fun ⟨_, hok⟩ => (nomatch hdec.symm.trans hok), fun _ => rfl⟩
  · refine or_iff_not_imp_left.2 fun hrst => ?_
    obtain ⟨w, rest, ms, u, hhost, hw, hchange⟩ :=
      exists_acceptWord_of_toCells_ne (ready_of_failed hp) (Bool.eq_false_of_not_eq_true hrst) hstep hne
    suffices h : w = 0x100 from ⟨rest, ms, h ▸ hhost⟩
    by_contra hinit
    rcases acceptWord_refused_of_failed (s := { s with host := ms, resetPin := s.resetPin.tail }) hp hinit with
      ⟨-, -, href⟩ | ⟨-, -, href⟩
    all_goals
      cases hw.symm.trans href
      exact hchange rfl

end Sys2Proof.Proofs
end
